-- ==== Sys2Proof/Word.lean ====
section
/-! DEFINITION. The block's word types: 64-bit command words, 32-bit registers, and binary32 values as their bit
patterns (00_scope.md R9, R12). The arithmetic on binary32 is in Machine/Float.lean. -/

namespace Sys2Proof

/-- A 64-bit command word W (30_encoding.md R80). -/
abbrev Cmd := BitVec 64

/-- A 32-bit register, OUTBUF word or DATA field (10_state.md R22, 20_memory.md R61). -/
abbrev Word := BitVec 32

/-- A register id: the 16-bit address of the register read port (10_state.md R22). -/
abbrev RegId := BitVec 16

/-- An IEEE 754 binary32 value, held as its encoding; `F32.bits` is the spec's `bits32` and the constructor its
`asf32` (00_scope.md R9, R12). A type of its own, so that no integer operation of `BitVec` is applied to it. -/
structure F32 where
  bits : Word
deriving DecidableEq, Repr, Inhabited

/-- The two channels of a stereo signal or of per-channel state (c ∈ {L, R}). -/
inductive Chan
  | L
  | R
deriving DecidableEq, Repr

/-- One value a channel: a frame of audio (R16), or a piece of state the spec indexes by c ∈ {L, R}. -/
structure Stereo (α : Type) where
  l : α
  r : α
deriving DecidableEq, Repr

/-- The component of channel c. -/
def Stereo.get {α : Type} (x : Stereo α) : Chan → α
  | .L => x.l
  | .R => x.r

end Sys2Proof
end

