-- ==== Sys2Proof/Syntax.lean ====
section
/-! DEFINITION. The commands, one constructor per row of the opcode table (30_encoding.md R82). An operand has the
width of its field (R81), so every operand value of the encoding is an operand here and no other. -/

namespace Sys2Proof

/-- A command of the block with its operands (30_encoding.md R82 to R88). -/
inductive Instr
  /-- NOP (R88, 40_control.md R101). -/
  | nop
  /-- SETP `id`, `value` (R83, 40_control.md R102). -/
  | setp (id : RegId) (value : Word)
  /-- GATEON v`v`, with IMM16 velocity and DATA note (R84, 41_voice.md R121). -/
  | gateon (v : BitVec 8) (vel : BitVec 16) (note : Word)
  /-- GATEOFF v`v` (R85, 41_voice.md R122). -/
  | gateoff (v : BitVec 8)
  /-- RENDER `n` (R86, 42_render.md R161). -/
  | render (n : Word)
  /-- CLRST `mask` (R87, 40_control.md R109). -/
  | clrst (mask : Word)
deriving DecidableEq, Repr

end Sys2Proof
end

