-- ==== Sys2Proof/Config.lean ====
section
/-! DEFINITION. What an implementation fixes and no command changes: the parameters FS and MAXB with the lengths
derived from FS (00_scope.md R5, R6), and the FREE VALUES, opaque constants without a body that stand for what the
spec does not determine: the transcendental functions (R10), the noise draw (R15), the payload of a NaN (R273) and
floorI and roundInt of a non-finite number (R14). The named properties of R10 are put on the raw functions in
Machine/Trans.lean, where the free power function stands too, since its type names a property of binary32 values. -/

namespace Sys2Proof

/-- The implementation parameters a block is built with (R5): `fs` is FS, the sample rate in Hz, and `maxb` is MAXB,
the maximum number of frames a RENDER accepts. NV is the number of voice slots the state holds. DESIGN CHOICE (log
entries 1, 2): they stand in State, so that a statement about every state holds for every admissible FS, NV, MAXB. -/
structure Cfg where
  fs : Nat
  maxb : Nat
deriving DecidableEq, Repr

/-- The ranges R5 gives FS and MAXB. -/
abbrev Cfg.Admissible (c : Cfg) : Prop := 8000 ≤ c.fs ∧ c.fs ≤ 192000 ∧ 1 ≤ c.maxb ∧ c.maxb ≤ 65536

namespace Config

/-- DBUF = 2·FS, the delay buffer's length per channel in frames (R5, R6). -/
def dbuf (fs : Nat) : Nat := 2 * fs

/-- LF = ceil(FS / 20), the flanger buffer's length per channel in frames (R5, R6). -/
def lf (fs : Nat) : Nat := (fs + 19) / 20

/-- REV_STEREO, the right channel's extra length in frames (R5). -/
def revStereo : Nat := 23

/-- CMS[k] in tenths of a millisecond: 29.7, 37.1, 41.1, 43.7 ms (R6). -/
def combTenths : Fin 4 → Nat
  | 0 => 297
  | 1 => 371
  | 2 => 411
  | 3 => 437

/-- AMS[j] in tenths of a millisecond: 5.0, 1.7 ms (R6). -/
def allpassTenths : Fin 2 → Nat
  | 0 => 50
  | 1 => 17

/-- roundInt(ms · FS / 1000) in exact arithmetic, for a length of `tenths` tenths of a millisecond (R6): the floor
of the exact quotient plus one half. -/
def msToFrames (tenths fs : Nat) : Nat := (2 * (tenths * fs) + 10000) / 20000

/-- MC_c[k], the length of comb filter k of channel c (R6). -/
def combLen (fs : Nat) (c : Chan) (k : Fin 4) : Nat :=
  match c with
  | .L => msToFrames (combTenths k) fs
  | .R => msToFrames (combTenths k) fs + revStereo

/-- MA_c[j], the length of allpass filter j of channel c (R6). -/
def allpassLen (fs : Nat) (c : Chan) (j : Fin 2) : Nat :=
  match c with
  | .L => msToFrames (allpassTenths j) fs
  | .R => msToFrames (allpassTenths j) fs + revStereo

/-- Free: the implementation's sine before the properties of R10 are put on it. -/
opaque rawSin : F32 → F32
/-- Free: the implementation's cosine before the properties of R10 are put on it. -/
opaque rawCos : F32 → F32
/-- Free: the implementation's hyperbolic tangent before the properties of R10 are put on it. -/
opaque rawTanh : F32 → F32
/-- Free: the implementation's exponential before the properties of R10 are put on it. -/
opaque rawExp : F32 → F32
/-- Free: the implementation's power of two before the properties of R10 are put on it. -/
opaque rawExp2 : F32 → F32
/-- Free: a monotone map of the ranks of the positive binary32 values, from which F_log10 is made (R10 P_LOGMON; log
entry 7). -/
opaque rawLogRank : ℕ →o ℕ
/-- Free: whether F_log10 answers −0.0 where its value is a zero (R10; log entry 7). -/
opaque rawLogNegZero : F32 → Bool
/-- Free: F_log10 outside the positive values, where R10 says nothing of it. -/
opaque rawLogOther : F32 → F32

/-- Free: the n-th noise draw before it is limited to [−1, 1] (R15, R134). -/
opaque rawNoise : Nat → F32

/-- Free: sign and payload of the quiet NaN that an operation gives (R273: "invalid gives a quiet NaN"; log entry
9). The first argument numbers the operation. -/
opaque rawNaN : Nat → F32 → F32 → F32

/-- Free: floorI of a non-finite number, on which R14 is silent (log entry 11). -/
opaque floorNonFinite : F32 → Int
/-- Free: roundInt of a non-finite number, on which R14 is silent (log entry 11). -/
opaque roundNonFinite : F32 → Int

end Config
end Sys2Proof
end

