-- ==== Sys2Proof/Machine/Float.lean ====
section
/-! DEFINITION. IEEE 754 binary32 arithmetic (00_scope.md R9, R14, 60_exceptions.md R273), written over exact
integers: every finite binary32 is an integer multiple of 2^-149, so a finite operand is that integer (`F32.fix`), an
operation is done exactly on integers, and `roundMag` rounds once, to nearest, ties to even, subnormals kept. -/

namespace Sys2Proof
namespace F32

/-- The sign bit is set. -/
def neg (x : F32) : Bool := decide (2147483648 ≤ x.bits.toNat)

/-- Exponent and fraction fields, bits 30:0. They order the magnitudes of non-NaN values. -/
def mag (x : F32) : Nat := x.bits.toNat % 2147483648

/-- The magnitude pattern of +∞, 0x7F800000. -/
abbrev infMag : Nat := 2139095040

/-- isNaN(f), quiet or signalling (R14). -/
def isNaN (x : F32) : Bool := decide (infMag < x.mag)

/-- x is +∞ or −∞. -/
def isInf (x : F32) : Bool := decide (x.mag = infMag)

/-- isFinite(f) (R14). -/
def isFinite (x : F32) : Bool := decide (x.mag < infMag)

/-- x is +0.0 or −0.0. -/
def isZero (x : F32) : Bool := decide (x.mag = 0)

/-- The value of a finite magnitude pattern, in units of 2^-149: the fraction itself in the subnormal binade, else
the significand with its hidden bit times a power of two. -/
def fixMag (m : Nat) : Nat :=
  if m < 8388608 then m else (8388608 + m % 8388608) * 2 ^ (m / 8388608 - 1)

/-- The exact value of a finite x, in units of 2^-149. -/
def fix (x : F32) : Int := if x.neg then -(fixMag x.mag : Int) else (fixMag x.mag : Int)

/-- The position of a non-NaN x in the numeric order; +0.0 and −0.0 share it. -/
def key (x : F32) : Int := if x.neg then -(x.mag : Int) else (x.mag : Int)

/-- The value with sign `s` and magnitude pattern `m`. -/
def pack (s : Bool) (m : Nat) : F32 := ⟨BitVec.ofNat 32 (if s then 2147483648 + m else m)⟩

/-- The magnitude pattern of the non-negative rational n/d, in units of 2^-149, rounded to nearest, ties to even
(R9); a value that rounds past the largest finite number gives ∞ (R273). With k the exponent of the binade above the
subnormals, the pattern of significand m is k·2^23 + m, and a carry out of m moves to the next binade by itself. -/
def roundMag (n d : Nat) : Nat :=
  let k := Nat.log2 (n / d) - 23
  let u := d * 2 ^ k
  let m := n / u
  let r := n % u
  let m' := if 2 * r < u then m else if u < 2 * r then m + 1 else m + m % 2
  min (k * 8388608 + m') infMag

/-- The quiet NaN that operation `op` gives on these operands: sign and payload are free (R273; log entry 9). -/
def quietNaN (op : Nat) (a b : F32) : F32 :=
  ⟨((Config.rawNaN op a b).bits &&& 0x803FFFFF#32) ||| 0x7FC00000#32⟩

/-- a + b. An exact zero sum is +0.0 unless both operands are negative zeros. -/
def add (a b : F32) : F32 :=
  if a.isNaN || b.isNaN then quietNaN 0 a b
  else if a.isInf then (if b.isInf && (a.neg != b.neg) then quietNaN 0 a b else a)
  else if b.isInf then b
  else
    let z := a.fix + b.fix
    if z = 0 then pack (a.neg && b.neg) 0 else pack (decide (z < 0)) (roundMag z.natAbs 1)

/-- x with its sign bit inverted. -/
def negate (x : F32) : F32 := ⟨x.bits ^^^ 0x80000000#32⟩

/-- a − b, the sum a + (−b) but for the NaN of an invalid subtraction: that is free by its own operation number and
operands, also for ∞ − ∞ of one sign (R273; log entry 9). -/
def sub (a b : F32) : F32 :=
  if a.isNaN || b.isNaN || (a.isInf && b.isInf && (a.neg == b.neg)) then quietNaN 1 a b else add a (negate b)

/-- a * b. -/
def mul (a b : F32) : F32 :=
  if a.isNaN || b.isNaN then quietNaN 2 a b
  else if a.isInf || b.isInf then
    (if a.isZero || b.isZero then quietNaN 2 a b else pack (a.neg != b.neg) infMag)
  else pack (a.neg != b.neg) (roundMag (fixMag a.mag * fixMag b.mag) (2 ^ 149))

/-- a / b. Division of a non-zero number by zero gives an infinity (R273). -/
def div (a b : F32) : F32 :=
  if a.isNaN || b.isNaN then quietNaN 3 a b
  else if a.isInf then (if b.isInf then quietNaN 3 a b else pack (a.neg != b.neg) infMag)
  else if b.isInf then pack (a.neg != b.neg) 0
  else if b.isZero then
    (if a.isZero then quietNaN 3 a b else pack (a.neg != b.neg) infMag)
  else pack (a.neg != b.neg) (roundMag (fixMag a.mag * 2 ^ 149) (fixMag b.mag))

/-- The integer square root of n, bit by bit from bit `i - 1` down, starting from the part `s` already found. -/
def isqrtFrom (n : Nat) : Nat → Nat → Nat
  | 0, s => s
  | i + 1, s => isqrtFrom n i (if (s + 2 ^ i) * (s + 2 ^ i) ≤ n then s + 2 ^ i else s)

/-- The integer square root of n < 2^428. -/
def isqrt (n : Nat) : Nat := isqrtFrom n 214 0

/-- sqrt(x). In units of 2^-149 the root of N is √(N·2^149); an inexact integer root stands half a unit higher, far
below the last bit kept, so that it rounds to the same side. -/
def sqrt (x : F32) : F32 :=
  if x.isNaN then quietNaN 4 x x
  else if x.isZero then x
  else if x.neg then quietNaN 4 x x
  else if x.isInf then x
  else
    let n := fixMag x.mag * 2 ^ 149
    let s := isqrt n
    pack false (roundMag (2 * s + (if s * s = n then 0 else 1)) 2)

/-- a < b, false when an operand is a NaN. -/
def lt (a b : F32) : Bool := !a.isNaN && !b.isNaN && decide (a.key < b.key)

/-- a ≤ b, false when an operand is a NaN. -/
def le (a b : F32) : Bool := !a.isNaN && !b.isNaN && decide (a.key ≤ b.key)

/-- a == b as numbers (+0.0 == −0.0), false when an operand is a NaN. -/
def eq (a b : F32) : Bool := !a.isNaN && !b.isNaN && decide (a.key = b.key)

/-- abs(f): the sign bit cleared (R14). -/
def abs (x : F32) : F32 := ⟨x.bits &&& 0x7FFFFFFF#32⟩

/-- copysign(m, s): m with the sign of s (R14). -/
def copysign (m s : F32) : F32 := ⟨(m.bits &&& 0x7FFFFFFF#32) ||| (s.bits &&& 0x80000000#32)⟩

/-- clampf(v, lo, hi) (R14). -/
def clampf (v lo hi : F32) : F32 := if lt v lo then lo else if lt hi v then hi else v

/-- minf(a, b) (R14). -/
def minf (a b : F32) : F32 := if lt b a then b else a

/-- maxf(a, b) (R14). -/
def maxf (a b : F32) : F32 := if lt a b then b else a

/-- floorI(f): the largest integer ≤ f, exact (R14); free for a non-finite f (log entry 11). -/
def floorI (x : F32) : Int := if x.isFinite then x.fix / 2 ^ 149 else Config.floorNonFinite x

/-- roundInt(f) = floor(f + 1/2) on the exact value of f (R14); free for a non-finite f (log entry 11). -/
def roundInt (x : F32) : Int :=
  if x.isFinite then (2 * x.fix + 2 ^ 149) / 2 ^ 150 else Config.roundNonFinite x

/-- f32 of an integer (R14). -/
def ofInt (z : Int) : F32 := pack (decide (z < 0)) (roundMag (z.natAbs * 2 ^ 149) 1)

/-- f32 of a natural number. -/
def ofNat (n : Nat) : F32 := pack false (roundMag (n * 2 ^ 149) 1)

/-- f32 of the rational n/d: what a decimal literal of the spec denotes (R9, R14). -/
def ofRat (n : Int) (d : Nat) : F32 := pack (decide (n < 0)) (roundMag (n.natAbs * 2 ^ 149) d)

/-- +0.0 -/
def zero : F32 := ⟨0x00000000#32⟩
/-- 1.0 -/
def one : F32 := ⟨0x3F800000#32⟩
/-- −1.0 -/
def negOne : F32 := ⟨0xBF800000#32⟩
/-- 0.5 -/
def half : F32 := ⟨0x3F000000#32⟩
/-- 2.0 -/
def two : F32 := ⟨0x40000000#32⟩

/-- frac(p) = p − f32(floorI(p)), one binary32 subtraction (R14). -/
def frac (p : F32) : F32 := sub p (ofInt (floorI p))

/-- −1.0 ≤ x ≤ 1.0 (so x is no NaN). -/
def inUnit (x : F32) : Bool := le negOne x && le x one

end F32
end Sys2Proof
end

