-- ==== Sys2Proof/WellFormed.lean ====
section
/-! DEFINITION. Which commands the block accepts: `Instr.wf` is the check of the operands (60_exceptions.md R263 steps
3, 5 and 6, and the NaN check of step 4). The check of a word's opcode and reserved fields that comes before it
(30_encoding.md R89, R90) is `wordLegal` in Decode.lean: an `Instr` cannot violate it. -/

namespace Sys2Proof

/-- The block with `nv` voice slots and a maximum block of `maxb` frames accepts the command's operands: V < NV for
GATEON and GATEOFF, no NaN value or note, 1 ≤ n ≤ MAXB for RENDER (60_exceptions.md R263). A SETP of a NaN to an id that
is no parameter register is ignored without a flag (40_control.md R107); it is not counted well-formed here. -/
def Instr.wf (nv maxb : Nat) : Instr → Bool
  | .nop => true
  | .setp _ value => !(F32.mk value).isNaN
  | .gateon v _ note => decide (v.toNat < nv) && !(F32.mk note).isNaN
  | .gateoff v => decide (v.toNat < nv)
  | .render n => decide (1 ≤ n.toNat) && decide (n.toNat ≤ maxb)
  | .clrst _ => true

end Sys2Proof
end

