-- ==== Sys2Proof/Decode.lean ====
section
/-! DEFINITION. Decoding a command word, total on every word and every byte string, each rejection by name
(30_encoding.md R80 to R93), and the encoder written from the same table. -/

namespace Sys2Proof

/-- The opcode field W[63:56] (R81). -/
def opc (w : Cmd) : BitVec 8 := w.extractLsb' 56 8
/-- The voice field W[55:48] (R81). -/
def fieldV (w : Cmd) : BitVec 8 := w.extractLsb' 48 8
/-- The field IMM16, W[47:32] (R81). -/
def fieldImm (w : Cmd) : BitVec 16 := w.extractLsb' 32 16
/-- The field DATA, W[31:0] (R81). -/
def fieldData (w : Cmd) : Word := w.extractLsb' 0 32

/-- The opcode is one of the six assigned (R82, R90). -/
def opcodeAssigned (w : Cmd) : Bool := decide ((opc w).toNat ≤ 5)

/-- Every reserved field of the word's opcode is zero (R89): NOP reserves V, IMM16 and DATA, SETP V, GATEON none,
GATEOFF IMM16 and DATA, RENDER and CLRST V and IMM16. -/
def reservedZero (w : Cmd) : Bool :=
  match (opc w).toNat with
  | 0 => decide (fieldV w = 0) && decide (fieldImm w = 0) && decide (fieldData w = 0)
  | 1 => decide (fieldV w = 0)
  | 2 => true
  | 3 => decide (fieldImm w = 0) && decide (fieldData w = 0)
  | 4 => decide (fieldV w = 0) && decide (fieldImm w = 0)
  | 5 => decide (fieldV w = 0) && decide (fieldImm w = 0)
  | _ => false

/-- The word is a command with legal fields (R91). -/
def wordLegal (w : Cmd) : Bool := opcodeAssigned w && reservedZero w

/-- Why a word is no command. -/
inductive Reject
  /-- Opcode 0x06 to 0xFF: dropped with ERR_OPC (R90). -/
  | unassignedOpcode
  /-- A reserved field of an assigned opcode is not zero: dropped with ERR_RSVD (R89). -/
  | reservedField
deriving DecidableEq, Repr

/-- Why a byte string does not begin with a command. -/
inductive BytesReject
  /-- Fewer than eight bytes have arrived: the command is not complete yet (R93). -/
  | incomplete
  /-- The first eight bytes are a word that is no command. -/
  | word (r : Reject)
deriving DecidableEq, Repr

/-- Decode a command word: the opcode first, then the reserved fields (R91, 60_exceptions.md R263 steps 1 and 2),
then the operands (R82 to R88). -/
def decodeWord (w : Cmd) : Except Reject Instr :=
  if !opcodeAssigned w then .error .unassignedOpcode
  else if !reservedZero w then .error .reservedField
  else
    match (opc w).toNat with
    | 0 => .ok .nop
    | 1 => .ok (.setp (fieldImm w) (fieldData w))
    | 2 => .ok (.gateon (fieldV w) (fieldImm w) (fieldData w))
    | 3 => .ok (.gateoff (fieldV w))
    | 4 => .ok (.render (fieldData w))
    | 5 => .ok (.clrst (fieldData w))
    | _ => .error .unassignedOpcode

/-- W = {OPC, V, IMM16, DATA} (R81). -/
def packWord (opc v : BitVec 8) (imm : BitVec 16) (data : Word) : Cmd := opc ++ v ++ imm ++ data

/-- The word of a command, its reserved fields zero (R82, R89). -/
def encode : Instr → Cmd
  | .nop => packWord 0x00 0 0 0
  | .setp id value => packWord 0x01 0 id value
  | .gateon v vel note => packWord 0x02 v vel note
  | .gateoff v => packWord 0x03 v 0 0
  | .render n => packWord 0x04 0 0 n
  | .clrst mask => packWord 0x05 0 0 mask

/-- A word carried as two 32-bit parts, W[31:0] first (R93, 20_memory.md R63). -/
def wordOfHalves (first second : Word) : Cmd := second ++ first

/-- A word carried as eight bytes, W[7:0] first (R93, R63). -/
def wordOfBytes (b0 b1 b2 b3 b4 b5 b6 b7 : BitVec 8) : Cmd := b7 ++ b6 ++ b5 ++ b4 ++ b3 ++ b2 ++ b1 ++ b0

/-- The n least significant bytes of a word, W[7:0] first (R93, R63). -/
def bytesOfWord : Nat → Cmd → List (BitVec 8)
  | 0, _ => []
  | n + 1, w => w.extractLsb' 0 8 :: bytesOfWord n (w >>> 8)

/-- Decode the first command of a byte string, and give the bytes after it (R92, R93). -/
def decodeBytes : List (BitVec 8) → Except BytesReject (Instr × List (BitVec 8))
  | b0 :: b1 :: b2 :: b3 :: b4 :: b5 :: b6 :: b7 :: rest =>
    match decodeWord (wordOfBytes b0 b1 b2 b3 b4 b5 b6 b7) with
    | .ok i => .ok (i, rest)
    | .error e => .error (.word e)
  | _ => .error .incomplete

/-- The word whose lowest `nbits` bits are those of w and whose other bits are zero. -/
def tableWord (nbits w : Nat) : Cmd := BitVec.ofNat 64 (w % 2 ^ nbits)

/-- The instruction the decoder reads from the opcode table's word: laid out as its bytes, least significant first,
and given to `decodeBytes`. -/
def decodeTableWord (nbits w : Nat) : Option Instr :=
  match decodeBytes (bytesOfWord 8 (tableWord nbits w)) with
  | .ok (i, _) => some i
  | .error _ => none

end Sys2Proof
end

