-- ==== Sys2Proof/Machine/Consts.lean ====
section
/-! DEFINITION. The numeric constants of 00_scope.md R5 and R11 as binary32 values. A decimal stands as the rational
it is, and `F32.ofRat` rounds it once, as R9 says a literal is read; R11's constants stand as the bits R11 gives. -/

namespace Sys2Proof
namespace Consts

/-- The binary32 nearest n/d. -/
abbrev dec (n : Int) (d : Nat) : F32 := F32.ofRat n d

/-- T_SNAP = 0.001 s (R5). -/
def tSnap : F32 := dec 1 1000
/-- UNISON_SPAN = 1.0 semitone (R5). -/
def unisonSpan : F32 := dec 1 1
/-- SMOOTH = 0.01 (R5). -/
def smooth : F32 := dec 1 100
/-- COMP_ATT_MS = 10 (R5). -/
def compAttMs : F32 := dec 10 1
/-- COMP_REL_MS = 100 (R5). -/
def compRelMs : F32 := dec 100 1
/-- DC_R = 0.995 (R5). -/
def dcR : F32 := dec 995 1000
/-- AG_MIN = 0.25 (R5). -/
def agMin : F32 := dec 1 4
/-- AG_MAX = 4.0 (R5). -/
def agMax : F32 := dec 4 1
/-- AG_STEP = 0.05 (R5). -/
def agStep : F32 := dec 5 100
/-- AG_FLOOR = 1e-4 (R5). -/
def agFloor : F32 := dec 1 10000
/-- METER_FLOOR = 1e-6 (R5). -/
def meterFloor : F32 := dec 1 1000000
/-- REV_FB_MAX = 0.805 (R5). -/
def revFbMax : F32 := dec 805 1000
/-- REV_AP_G = 0.7 (R5). -/
def revApG : F32 := dec 7 10
/-- FL_MIN_MS = 1.0 (R5). -/
def flMinMs : F32 := dec 1 1
/-- FL_SWEEP_MS = 10.0 (R5). -/
def flSweepMs : F32 := dec 10 1
/-- PHOFF = 0.0, the lookup phase offset (41_voice.md R128). -/
def phOff : F32 := F32.zero

/-- TWO_PI32 (R11). -/
def twoPi : F32 := ⟨0x40C90FDB#32⟩
/-- QPI32 (R11). -/
def qPi : F32 := ⟨0x3F490FDB#32⟩
/-- PI32 (R11). -/
def pi : F32 := ⟨0x40490FDB#32⟩

/-- FSf = f32(FS) (R11). -/
def fsf (fs : Nat) : F32 := F32.ofNat fs
/-- DT = 1 / FSf (R11). -/
def dt (fs : Nat) : F32 := F32.div F32.one (fsf fs)

end Consts
end Sys2Proof
end

