-- ==== Sys2Proof/Machine/Registers.lean ====
section
/-! DEFINITION. The parameter registers: the tables of 10_state.md R26 to R36 as one list of rows (id, dotted name,
kind with its legal set, reset value), and the ids under their names. -/

namespace Sys2Proof

/-- The four kinds of parameter register with their legal sets (10_state.md R23). -/
inductive Kind
  /-- Any binary32 in [lo, hi]. -/
  | cont (lo hi : F32)
  /-- An integral binary32 in [lo, hi]. -/
  | int (lo hi : F32)
  /-- An integral binary32 code from 0 to maxcode. -/
  | enum (maxcode : F32)
  /-- Exactly 0.0 or 1.0. -/
  | bool
deriving DecidableEq, Repr

/-- One row of a register table. -/
structure ParamRow where
  id : Nat
  name : String
  kind : Kind
  reset : F32
deriving DecidableEq, Repr

namespace ParamTable
open Consts

/-- [lo, hi] with integer bounds. -/
def range (lo hi : Int) : Kind := .cont (dec lo 1) (dec hi 1)

/-- The enable register `unit`.enable at `id`, reset 0. -/
def enable (id : Nat) (unit : String) : ParamRow := ⟨id, unit ++ ".enable", .bool, dec 0 1⟩

/-- Oscillator slot s = 1..4 (R26). -/
def oscRows (s : Nat) : List ParamRow :=
  let base := 0x0100 + 0x10 * (s - 1)
  let n := "osc" ++ toString s
  [⟨base + 0, n ++ ".wave", .enum (dec 4 1), dec 0 1⟩,
   ⟨base + 1, n ++ ".pitch", range (-24) 24, dec 0 1⟩,
   ⟨base + 2, n ++ ".detune", range (-1) 1, dec 0 1⟩,
   ⟨base + 3, n ++ ".gain", range 0 1, if s = 1 then dec 1 1 else dec 0 1⟩,
   ⟨base + 4, n ++ ".pan", range (-1) 1, dec 0 1⟩,
   ⟨base + 5, n ++ ".pw", range 0 1, dec 1 2⟩,
   ⟨base + 6, n ++ ".unison", .int (dec 1 1) (dec 8 1), dec 1 1⟩,
   ⟨base + 7, n ++ ".spread", range 0 1, dec 0 1⟩]

/-- Envelope (R27). -/
def envRows : List ParamRow :=
  [⟨0x0200, "env.attack", range 0 10, dec 1 100⟩,
   ⟨0x0201, "env.decay", range 0 10, dec 1 10⟩,
   ⟨0x0202, "env.sustain", range 0 1, dec 7 10⟩,
   ⟨0x0203, "env.release", range 0 10, dec 2 10⟩]

/-- Mixer bus and master (R28). -/
def mixerRows : List ParamRow :=
  [⟨0x0300, "mixer.bus1.gain", range 0 2, dec 1 1⟩,
   ⟨0x0301, "mixer.bus2.gain", range 0 2, dec 1 1⟩,
   ⟨0x0302, "mixer.bus3.gain", range 0 2, dec 1 1⟩,
   ⟨0x0303, "mixer.bus4.gain", range 0 2, dec 1 1⟩,
   ⟨0x0310, "mixer.master.gain", range 0 2, dec 1 1⟩,
   ⟨0x0311, "mixer.master.pan", range (-1) 1, dec 0 1⟩,
   ⟨0x0312, "mixer.master.width", range 0 2, dec 1 1⟩]

/-- Compressor (R29). -/
def compRows : List ParamRow :=
  [enable 0x0320 "mixer.comp",
   ⟨0x0321, "mixer.comp.threshold", range (-60) 0, dec (-12) 1⟩,
   ⟨0x0322, "mixer.comp.ratio", range 1 20, dec 4 1⟩,
   ⟨0x0323, "mixer.comp.makeup", range 0 24, dec 0 1⟩]

/-- DC blocker, soft clipper and auto-gain (R30). -/
def masterRows : List ParamRow :=
  [enable 0x0330 "mixer.dc",
   enable 0x0340 "mixer.softclip",
   ⟨0x0341, "mixer.softclip.threshold", range (-24) 0, dec (-6) 1⟩,
   enable 0x0350 "mixer.autogain",
   ⟨0x0351, "mixer.autogain.target", range (-40) 0, dec (-18) 1⟩]

/-- Ring modulator (R31). -/
def ringRows : List ParamRow :=
  [enable 0x0400 "fx.ring",
   ⟨0x0401, "fx.ring.freq", range 0 20000, dec 440 1⟩,
   ⟨0x0402, "fx.ring.mix", range 0 1, dec 1 2⟩]

/-- Filter (R32). -/
def filterRows : List ParamRow :=
  [enable 0x0500 "fx.filter",
   ⟨0x0501, "fx.filter.type", .enum (dec 3 1), dec 0 1⟩,
   ⟨0x0502, "fx.filter.cutoff", range 20 20000, dec 1000 1⟩,
   ⟨0x0503, "fx.filter.resonance", range 0 1, dec 0 1⟩,
   ⟨0x0504, "fx.filter.drive", range 0 4, dec 1 1⟩,
   ⟨0x0505, "fx.filter.oversample", .enum (dec 3 1), dec 0 1⟩]

/-- Flanger (R33). -/
def flangerRows : List ParamRow :=
  [enable 0x0600 "fx.flanger",
   ⟨0x0601, "fx.flanger.rate", .cont (dec 5 100) (dec 5 1), dec 25 100⟩,
   ⟨0x0602, "fx.flanger.depth", range 0 1, dec 1 2⟩,
   ⟨0x0603, "fx.flanger.feedback", .cont (dec (-95) 100) (dec 95 100), dec 0 1⟩,
   ⟨0x0604, "fx.flanger.mix", range 0 1, dec 1 2⟩]

/-- Delay and tempo (R34). -/
def delayRows : List ParamRow :=
  [enable 0x0700 "fx.delay",
   ⟨0x0701, "fx.delay.mode", .enum (dec 1 1), dec 0 1⟩,
   ⟨0x0702, "fx.delay.time", .cont (dec 1 1000) (dec 199 100), dec 25 100⟩,
   ⟨0x0703, "fx.delay.feedback", .cont (dec 0 1) (dec 95 100), dec 3 10⟩,
   ⟨0x0704, "fx.delay.mix", range 0 1, dec 3 10⟩,
   ⟨0x0705, "fx.delay.tempo", range 20 300, dec 120 1⟩]

/-- Delay tap t = 1..8 (R35). -/
def tapRows (t : Nat) : List ParamRow :=
  let base := 0x0800 + 0x10 * (t - 1)
  let n := "fx.delay.tap" ++ toString t
  [enable base n,
   ⟨base + 1, n ++ ".beats", range 0 8, dec t 4⟩,
   ⟨base + 2, n ++ ".level", range 0 1, dec 1 2⟩]

/-- Reverb (R36). -/
def reverbRows : List ParamRow :=
  [enable 0x0900 "fx.reverb",
   ⟨0x0901, "fx.reverb.size", range 0 1, dec 1 2⟩,
   ⟨0x0902, "fx.reverb.mix", range 0 1, dec 3 10⟩]

end ParamTable

open ParamTable in
/-- Every parameter register, in the order of the spec's tables (10_state.md R26 to R36, 20_memory.md R74). -/
def paramTable : List ParamRow :=
  oscRows 1 ++ oscRows 2 ++ oscRows 3 ++ oscRows 4 ++ envRows ++ mixerRows ++ compRows ++ masterRows ++ ringRows
    ++ filterRows ++ flangerRows ++ delayRows
    ++ tapRows 1 ++ tapRows 2 ++ tapRows 3 ++ tapRows 4 ++ tapRows 5 ++ tapRows 6 ++ tapRows 7 ++ tapRows 8
    ++ reverbRows

/-- How many parameter registers there are. -/
abbrev nParams : Nat := 99

theorem paramTable_length : paramTable.length = nParams := by decide +kernel

/-- The place of register `id` in the table, or none if it is no parameter register (10_state.md R22). -/
def paramIndex? (id : Nat) : Option (Fin nParams) :=
  let i := paramTable.findIdx (fun r => r.id == id)
  if h : i < nParams then some ⟨i, h⟩ else none

/-- The row of a place in the table. -/
def paramRow (i : Fin nParams) : ParamRow := paramTable[i.val]'(by rw [paramTable_length]; exact i.isLt)

/-! The ids under their names. Slots s and taps t count from 0 here: `oscPitch 0` is osc1.pitch. -/
namespace Reg
def oscWave (s : Nat) : Nat := 0x0100 + 0x10 * s
def oscPitch (s : Nat) : Nat := 0x0101 + 0x10 * s
def oscDetune (s : Nat) : Nat := 0x0102 + 0x10 * s
def oscGain (s : Nat) : Nat := 0x0103 + 0x10 * s
def oscPan (s : Nat) : Nat := 0x0104 + 0x10 * s
def oscPw (s : Nat) : Nat := 0x0105 + 0x10 * s
def oscUnison (s : Nat) : Nat := 0x0106 + 0x10 * s
def oscSpread (s : Nat) : Nat := 0x0107 + 0x10 * s
def envAttack : Nat := 0x0200
def envDecay : Nat := 0x0201
def envSustain : Nat := 0x0202
def envRelease : Nat := 0x0203
def busGain (s : Nat) : Nat := 0x0300 + s
def masterGain : Nat := 0x0310
def masterPan : Nat := 0x0311
def masterWidth : Nat := 0x0312
def compEnable : Nat := 0x0320
def compThreshold : Nat := 0x0321
def compRatio : Nat := 0x0322
def compMakeup : Nat := 0x0323
def dcEnable : Nat := 0x0330
def softclipEnable : Nat := 0x0340
def softclipThreshold : Nat := 0x0341
def autogainEnable : Nat := 0x0350
def autogainTarget : Nat := 0x0351
def ringEnable : Nat := 0x0400
def ringFreq : Nat := 0x0401
def ringMix : Nat := 0x0402
def filterEnable : Nat := 0x0500
def filterType : Nat := 0x0501
def filterCutoff : Nat := 0x0502
def filterResonance : Nat := 0x0503
def filterDrive : Nat := 0x0504
def filterOversample : Nat := 0x0505
def flangerEnable : Nat := 0x0600
def flangerRate : Nat := 0x0601
def flangerDepth : Nat := 0x0602
def flangerFeedback : Nat := 0x0603
def flangerMix : Nat := 0x0604
def delayEnable : Nat := 0x0700
def delayMode : Nat := 0x0701
def delayTime : Nat := 0x0702
def delayFeedback : Nat := 0x0703
def delayMix : Nat := 0x0704
def delayTempo : Nat := 0x0705
def tapEnable (t : Nat) : Nat := 0x0800 + 0x10 * t
def tapBeats (t : Nat) : Nat := 0x0801 + 0x10 * t
def tapLevel (t : Nat) : Nat := 0x0802 + 0x10 * t
def reverbEnable : Nat := 0x0900
def reverbSize : Nat := 0x0901
def reverbMix : Nat := 0x0902
end Reg

end Sys2Proof
end

