-- ==== Sys2Proof/Machine/State.lean ====
section
/-! DEFINITION. The block's state as plain data (10_state.md R20 to R51, 20_memory.md R60 to R72), the reasons a step
can stop, and the state after reset (70_reset_and_hazards.md R280 to R284). -/

namespace Sys2Proof.Machine

/-- No step of the block faults: it has no exceptions, traps or faults (60_exceptions.md R260). The type is closed and
empty, so no meaning can raise one (log entry 19). Safe. -/
inductive Fault
deriving DecidableEq, Repr

/-- Why the model refuses. No command is refused. -/
inductive Refusal
  /-- An instruction without a meaning; raised by no arm of exec. Safe. -/
  | notModelled (mnemonic : String)
  /-- A read through a byte bridge at a byte address that is no multiple of 4: "the block defines no result for one,
  and a model refuses it" (20_memory.md R64). Raised by `bridgeRead` only, which is no command. Safe. -/
  | misalignedBridgeAccess (byteAddr : Nat)
deriving DecidableEq, Repr

/-- A memory of 32-bit elements: the listed elements in rising order of their index, none of them zero. An unlisted
element reads as 0x00000000, the reset contents of every memory (70_reset R282, R283; log entries 13, 14). -/
abbrev Mem := List (Nat × Word)

/-- The canonical form: indexes strictly rising, no entry equal to what an unlisted element reads as. -/
def Memory.wf : Mem → Bool
  | [] => true
  | [(_, v)] => decide (v ≠ 0)
  | (a, v) :: (b, w) :: t => decide (v ≠ 0) && decide (a < b) && Memory.wf ((b, w) :: t)

/-- The parameter registers in the order of `paramTable` (10_state.md R22). -/
abbrev ParamFile := Vector F32 nParams

/-- Envelope phases (10_state.md R41). -/
inductive Phase
  | idle
  | attack
  | decay
  | sustain
  | release
deriving DecidableEq, Repr

/-- A voice slot V[v] (10_state.md R40). `acc` holds the phase accumulators acc[s][k], slot s = 1..4 at index s − 1. -/
structure Voice where
  phase : Phase
  level : F32
  time : F32
  relStart : F32
  note : F32
  vel : F32
  acc : Vector (Vector F32 8) 4
deriving DecidableEq, Repr

/-- The DC blocker's history of one channel: dx1[c], dy1[c] (10_state.md R43). -/
structure DcHist where
  x1 : F32
  y1 : F32
deriving DecidableEq, Repr

/-- The Direct Form I history of one channel: bq[c] (10_state.md R45). -/
structure Biquad where
  x1 : F32
  x2 : F32
  y1 : F32
  y2 : F32
deriving DecidableEq, Repr

/-- Filter state (10_state.md R45). -/
structure FilterState where
  smCut : F32
  smRes : F32
  smDrive : F32
  bq : Stereo Biquad
deriving DecidableEq, Repr

/-- Flanger state: FLB, flW, flPh (10_state.md R46). -/
structure FlangerState where
  flb : Stereo Mem
  w : Nat
  ph : F32
deriving DecidableEq, Repr

/-- Delay state: DLY, dW (10_state.md R47). -/
structure DelayState where
  dly : Stereo Mem
  w : Nat
deriving DecidableEq, Repr

/-- One comb or allpass filter: its buffer and its index (10_state.md R48). -/
structure Line where
  buf : Mem
  idx : Nat
deriving DecidableEq, Repr

/-- Reverb state of one channel: CMB[c][k] with ic[c][k], APB[c][j] with ia[c][j] (10_state.md R48). -/
structure ReverbChan where
  comb : Vector Line 4
  allpass : Vector Line 2
deriving DecidableEq, Repr

/-- The whole state (10_state.md R20). `port` and `draws` are the model's own: the command words issued and not yet
consumed (log entry 3), and the number of noise draws taken (log entry 10). `cfg` holds FS and MAXB, which no step
changes (log entries 1, 2); NV is the length of `voices`. -/
structure State where
  cfg : Cfg
  port : List Cmd
  cmdidx : BitVec 64
  regs : ParamFile
  status : Word
  peakDb : F32
  rmsDb : F32
  grDb : F32
  frames : BitVec 64
  voices : List Voice
  ag : F32
  ce : Stereo F32
  dc : Stereo DcHist
  ringPh : F32
  filter : FilterState
  flanger : FlangerState
  delay : DelayState
  reverb : Stereo ReverbChan
  outbuf : Mem
  draws : Nat
deriving DecidableEq, Repr

/-- NV, the number of voice slots (00_scope.md R5). -/
def State.nv (s : State) : Nat := s.voices.length

/-- The parameter registers after reset: the tables' reset column (70_reset R281). -/
def ParamFile.reset : ParamFile :=
  ⟨(paramTable.map (·.reset)).toArray, by simp [paramTable_length]⟩

/-- A voice slot after reset (70_reset R282). -/
def Voice.reset : Voice :=
  { phase := .idle, level := F32.zero, time := F32.zero, relStart := F32.zero, note := F32.zero, vel := F32.zero
    acc := Vector.replicate 4 (Vector.replicate 8 F32.zero) }

/-- A reverb channel after reset (70_reset R282). -/
def ReverbChan.reset : ReverbChan :=
  { comb := Vector.replicate 4 ⟨[], 0⟩, allpass := Vector.replicate 2 ⟨[], 0⟩ }

/-- The block with parameters `c` and `nv` voice slots right after reset (70_reset R281 to R283). -/
def State.resetWith (c : Cfg) (nv : Nat) : State :=
  { cfg := c
    port := []
    cmdidx := 0
    regs := ParamFile.reset
    status := 0
    peakDb := Consts.dec (-120) 1
    rmsDb := Consts.dec (-120) 1
    grDb := F32.zero
    frames := 0
    voices := List.replicate nv Voice.reset
    ag := F32.one
    ce := ⟨F32.zero, F32.zero⟩
    dc := ⟨⟨F32.zero, F32.zero⟩, ⟨F32.zero, F32.zero⟩⟩
    ringPh := F32.zero
    filter :=
      { smCut := Consts.dec 1000 1, smRes := F32.zero, smDrive := F32.one
        bq := ⟨⟨F32.zero, F32.zero, F32.zero, F32.zero⟩, ⟨F32.zero, F32.zero, F32.zero, F32.zero⟩⟩ }
    flanger := { flb := ⟨[], []⟩, w := 0, ph := F32.zero }
    delay := { dly := ⟨[], []⟩, w := 0 }
    reverb := ⟨ReverbChan.reset, ReverbChan.reset⟩
    outbuf := []
    draws := 0 }

/-- The machine right after reset: MAXB = 1024 and NV = 16 are the spec's defaults, FS = 48000 is one value of its
test vectors (DESIGN CHOICE: R5 leaves FS open; log entries 1, 2). -/
def State.reset : State := State.resetWith ⟨48000, 1024⟩ 16

end Sys2Proof.Machine
end

