-- ==== Sys2Proof/Machine/Flags.lean ====
section
/-! DEFINITION. The sticky STATUS flags: which bit each is, setting one and clearing by mask (10_state.md R37,
40_control.md R109, 60_exceptions.md R261). -/

namespace Sys2Proof.Machine

/-- The STATUS flags (10_state.md R37). -/
inductive Flag
  | errOpc
  | errRsvd
  | errVoice
  | errLen
  | errNan
  | fltReset
deriving DecidableEq, Repr

/-- The bit of a flag in STATUS, which is also its cause code (R37, 60_exceptions.md R261). -/
def Flag.bit : Flag → Nat
  | .errOpc => 0
  | .errRsvd => 1
  | .errVoice => 2
  | .errLen => 3
  | .errNan => 4
  | .fltReset => 5

/-- The STATUS word with only this flag set. -/
def Flag.mask (f : Flag) : Word := 1#32 <<< f.bit

/-- STATUS with the flag set; a flag already set stays set (60_exceptions.md R262). -/
def setFlag (status : Word) (f : Flag) : Word := status ||| f.mask

/-- The flag reads as set. -/
def flagSet (status : Word) (f : Flag) : Bool := status.getLsbD f.bit

/-- The bits of STATUS that are flags: 5:0 (R37). -/
def flagBits : Word := 0x0000003F#32

/-- STATUS AND (NOT mask) AND 0x0000003F (40_control.md R109). -/
def clearFlags (status mask : Word) : Word := status &&& ~~~mask &&& flagBits

/-- The state with one flag set. -/
def State.raise (s : State) (f : Flag) : State := { s with status := setFlag s.status f }

/-- The state with the flags the mask names cleared (40_control.md R109). -/
def State.clearStatus (s : State) (mask : Word) : State := { s with status := clearFlags s.status mask }

end Sys2Proof.Machine
end

