-- ==== Sys2Proof/Machine/Operands.lean ====
section
/-! DEFINITION. What an operand field stands for: the velocity of GATEON (30_encoding.md R84) and the conversion of a
value written by SETP to the value stored (40_control.md R103 to R106). -/

namespace Sys2Proof.Machine
open F32

/-- vel = f32(IMM16) / 65535.0 (30_encoding.md R84). -/
def velOf (imm : BitVec 16) : F32 := div (ofNat imm.toNat) (ofNat 65535)

/-- The note a voice takes: clampf(noteRaw, 0.0, 127.0) (41_voice.md R121). -/
def noteOf (raw : F32) : F32 := clampf raw F32.zero (Consts.dec 127 1)

/-- Convert(kind, value, lo, hi): the value a register of this kind stores (40_control.md R103 to R106). -/
def convert : Kind → F32 → F32
  | .cont lo hi, v => clampf v lo hi
  | .int lo hi, v => ofInt (roundInt (clampf v lo hi))
  | .enum maxcode, v => ofInt (roundInt (clampf v F32.zero maxcode))
  | .bool, v => if le half v then one else F32.zero

end Sys2Proof.Machine
end

