-- ==== Sys2Proof/Machine/Ops.lean ====
section
/-! DEFINITION. The shared operations: reading and writing a memory element, a register and a circular index; taking a
word from the command port; dropping a command, which is this block's only answer to an error and stands where
another machine takes an exception (60_exceptions.md R260, R262, R265: there is no entry, no saved state and no
return); and counting a consumed command. -/

namespace Sys2Proof.Machine
open F32

/-- The element at index a: MemRead(space, a, 1) (00_scope.md R13). -/
def Memory.read : Mem → Nat → Word
  | [], _ => 0
  | (k, v) :: t, a => if k = a then v else Memory.read t a

/-- MemWrite(space, a, 1, v) in canonical form: a zero is unlisted, any other value listed in order. -/
def Memory.write : Mem → Nat → Word → Mem
  | [], a, v => if v = 0 then [] else [(a, v)]
  | (k, w) :: t, a, v =>
    if k < a then (k, w) :: Memory.write t a v
    else if k = a then (if v = 0 then t else (a, v) :: t)
    else (if v = 0 then (k, w) :: t else (a, v) :: (k, w) :: t)

/-- The element at index a as the binary32 it encodes. -/
def Memory.readF (m : Mem) (a : Nat) : F32 := ⟨Memory.read m a⟩

/-- Store a binary32. -/
def Memory.writeF (m : Mem) (a : Nat) (x : F32) : Mem := Memory.write m a x.bits

/-- mod(i − d, size) for a circular buffer (20_memory.md R73). -/
def ringBack (i : Nat) (d : Int) (size : Nat) : Nat := (((i : Int) - d) % (size : Int)).toNat

/-- mod(i + 1, size): a circular index advanced by one (20_memory.md R73). -/
def ringNext (i size : Nat) : Nat := (i + 1) % size

/-- P.<name>: the value of the parameter register `id`; an id that is no parameter register reads +0.0 (20_memory.md
R69). -/
def par (r : ParamFile) (id : Nat) : F32 :=
  match paramIndex? id with
  | some i => r[i]
  | none => F32.zero

/-- P.<name> == 1.0, the test of an enable register. -/
def isOn (r : ParamFile) (id : Nat) : Bool := eq (par r id) one

/-- The non-negative integer a register of kind int or enum holds. -/
def parNat (r : ParamFile) (id : Nat) : Nat := (floorI (par r id)).toNat

/-- x[id] <- v for a parameter register; an id that is none is left alone. -/
def setPar (r : ParamFile) (id : Nat) (v : F32) : ParamFile :=
  match paramIndex? id with
  | some i => r.set i v
  | none => r

/-- The state with one parameter register written. -/
def State.writeParam (s : State) (id : Nat) (v : F32) : State := { s with regs := setPar s.regs id v }

/-- The state with voice slot v replaced. -/
def State.setVoice (s : State) (v : Nat) (x : Voice) : State := { s with voices := s.voices.set v x }

/-- The state with the command port replaced. -/
def State.setPort (s : State) (ws : List Cmd) : State := { s with port := ws }

/-- The next command word on the port and the state without it, if the host has issued one (20_memory.md R76; log
entry 3). -/
def fetch (s : State) : Option (Cmd × State) :=
  match s.port with
  | [] => none
  | w :: rest => some (w, s.setPort rest)

/-- cmdidx <- cmdidx + 1 modulo 2^64, after every command, dropped or executed (10_state.md R21, 30_encoding.md R94;
log entry 4). -/
def State.retire (s : State) : State := { s with cmdidx := s.cmdidx + 1 }

/-- DROPPING A COMMAND: nothing changes but the flag (60_exceptions.md R262). -/
def drop (f : Flag) (s : State) : State := s.raise f

/-- The flag of a word that does not decode (60_exceptions.md R261, R263 steps 1 and 2). -/
def rejectFlag : Reject → Flag
  | .unassignedOpcode => .errOpc
  | .reservedField => .errRsvd

/-- What a command leaves, with the command counted. -/
def finish : Host.Outcome State Fault Refusal → Host.Outcome State Fault Refusal
  | .next s => .next s.retire
  | .fault f => .fault f
  | .refused r => .refused r

end Sys2Proof.Machine
end

