-- ==== Sys2Proof/Machine/Control.lean ====
section
/-! DEFINITION. The control commands NOP, SETP and CLRST (40_control.md). -/

namespace Sys2Proof.Machine
open F32

/-- NOP: no state changes (40_control.md R101). -/
def execNop (s : State) : Host.Outcome State Fault Refusal := .next s

/-- SETP: ignored for an id that is no parameter register (R107), dropped with ERR_NAN for a NaN (R102), else the
converted value is stored in the one register (R103 to R106, R108). -/
def execSetp (id : RegId) (value : Word) (s : State) : Host.Outcome State Fault Refusal :=
  match paramIndex? id.toNat with
  | none => .next s
  | some i =>
    if (F32.mk value).isNaN then .next (drop .errNan s)
    else .next (s.writeParam id.toNat (convert (paramRow i).kind ⟨value⟩))

/-- CLRST: x[0xF000] <- x[0xF000] AND (NOT mask) AND 0x0000003F (R109). -/
def execClrst (mask : Word) (s : State) : Host.Outcome State Fault Refusal :=
  .next (s.clearStatus mask)

end Sys2Proof.Machine
end

