-- ==== Sys2Proof/Machine/Trans.lean ====
section
/-! DEFINITION. The transcendental functions F_sin .. F_log10 and the noise draw (00_scope.md R10, R15). Each is the
free constant of Config narrowed to the named properties of R10 and to nothing more: where the free value already has
the property it stands, so every admissible implementation is one of these functions (log entries 5 to 8). P_POWPOS asks
about an exact real power, which no evaluation decides, so the free power function carries it as a proof. -/

namespace Sys2Proof
open F32

/-- `y` if it satisfies the property, else a value that does. -/
def narrow (ok : F32 → Bool) (fallback y : F32) : F32 := if ok y then y else fallback

/-- F_sin: P_SIN0, P_SINR. -/
def fSin (x : F32) : F32 :=
  if x = F32.zero then F32.zero
  else if x.isZero then narrow isZero F32.zero (Config.rawSin x)
  else if x.isFinite then narrow inUnit F32.zero (Config.rawSin x)
  else Config.rawSin x

/-- F_cos: P_COS0, P_COSR. -/
def fCos (x : F32) : F32 :=
  if x.isZero then one
  else if x.isFinite then narrow inUnit one (Config.rawCos x)
  else Config.rawCos x

/-- F_tanh: P_TANH0, P_TANHR (which R10 states for every operand). -/
def fTanh (x : F32) : F32 :=
  if x = F32.zero then F32.zero
  else if x.isZero then narrow isZero F32.zero (Config.rawTanh x)
  else narrow inUnit F32.zero (Config.rawTanh x)

/-- F_exp: P_EXPR. -/
def fExp (x : F32) : F32 :=
  if x.isFinite && lt x F32.zero then narrow (fun y => lt F32.zero y && lt y one) half (Config.rawExp x)
  else Config.rawExp x

/-- x is finite and greater than 0. -/
def posFinite (x : F32) : Bool := x.isFinite && lt F32.zero x

/-- 2^k for −126 ≤ k ≤ 127: exponent field k + 127, fraction 0. -/
def pow2 (k : Int) : F32 := pack false ((k + 127).toNat * 8388608)

/-- F_exp2: P_EXP2I at the integers from −126 to 127, P_EXP2R for finite |x| ≤ 8. DEDUCED: k = 0 is read at both zeros, so
F_exp2(−0.0) = 1.0 too (log entry 8). -/
def fExp2 (x : F32) : F32 :=
  if x.isFinite && decide (x.fix % 2 ^ 149 = 0) && decide (-126 ≤ floorI x) && decide (floorI x ≤ 127) then
    pow2 (floorI x)
  else if x.isFinite && le (abs x) ⟨0x41000000#32⟩ then narrow posFinite one (Config.rawExp2 x)
  else Config.rawExp2 x

/-- The exact result x^y, a real number, is a normal binary32: it lies between the least normal number 2^-126 and the
greatest finite one (log entry 6). `fix` counts in units of 2^-149. No evaluation asks whether this holds: it stands in
the type of the free power function. -/
def powNormal (x y : F32) : Prop :=
  (2 : ℝ) ^ (-126 : ℤ) ≤ ((x.fix : ℝ) / 2 ^ 149) ^ ((y.fix : ℝ) / 2 ^ 149)
    ∧ ((x.fix : ℝ) / 2 ^ 149) ^ ((y.fix : ℝ) / 2 ^ 149) ≤ (2 ^ 24 - 1) * 2 ^ 104

/-- The power functions that P_POWPOS admits: finite and greater than 0 for finite x > 0 and finite y whose exact result
is a normal binary32, and nothing else (R10). -/
structure PowField where
  toFun : F32 → F32 → F32 := fun _ _ => one
  pos : ∀ x y, posFinite x = true → y.isFinite = true → powNormal x y → posFinite (toFun x y) = true := by
    intros; decide
deriving Inhabited

/-- Free: the implementation's power function, any with P_POWPOS, before P_POW0 is put on it. -/
opaque Config.rawPow : PowField

/-- F_pow: P_POW0, P_POWPOS. DEDUCED: P_POW0's exponent 0 is read at both zeros, so F_pow(x, −0.0) = 1.0 too (log
entry 8). -/
def fPow (x y : F32) : F32 := if posFinite x && y.isZero then one else Config.rawPow.toFun x y

/-- The value at signed rank z among the binary32 values, zero being rank 0; `limit` bounds its magnitude pattern. -/
def ofRank (z : Int) (limit : Nat) (negZero : Bool) : F32 :=
  pack (if z = 0 then negZero else decide (z < 0)) (min z.natAbs limit)

/-- F_log10: P_LOG1, P_LOGFIN, P_LOGMON. On the positive values, ranked by their magnitude patterns, it is the
difference of a free monotone map from its value at 1.0 (pattern 0x3F800000), limited to the finite numbers for a
finite operand. -/
def fLog10 (x : F32) : F32 :=
  if x = one then F32.zero
  else if x.isNaN || x.neg || x.isZero then Config.rawLogOther x
  else
    ofRank ((Config.rawLogRank x.mag : Int) - (Config.rawLogRank 1065353216 : Int))
      (if x.isFinite then infMag - 1 else infMag) (Config.rawLogNegZero x)

/-- NoiseDraw(): the n-th draw, any binary32 in [−1.0, 1.0] (R15, 41_voice.md R134; log entry 10). -/
def noiseDraw (n : Nat) : F32 := narrow inUnit F32.zero (Config.rawNoise n)

end Sys2Proof
end

