-- ==== Sys2Proof/Machine/Effects.lean ====
section
/-! DEFINITION. The effect stages: ring modulator, filter with saturation and oversampling, flanger, delay, reverb
(43_effects.md). Each maps a frame to a frame and updates its own state; a disabled stage is the identity and keeps
its state, but for the delay's buffer write (R200, R217). -/

namespace Sys2Proof.Machine
open F32 Consts

/-- (x * (1.0 − mix)) + (wet * mix), the dry/wet blend. -/
def blend (x wet mix : F32) : F32 := add (mul x (sub one mix)) (mul wet mix)

/-! ### Ring modulator -/

/-- RingMod: carrier phase and frame (43_effects.md R201, R202). -/
def ringMod (P : ParamFile) (fs : Nat) (ph : F32) (x : Stereo F32) : F32 × Stereo F32 :=
  if isOn P Reg.ringEnable then
    let car := fSin (mul twoPi ph)
    let mix := par P Reg.ringMix
    (frac (add ph (div (par P Reg.ringFreq) (fsf fs))), ⟨blend x.l (mul x.l car) mix, blend x.r (mul x.r car) mix⟩)
  else (ph, x)

/-! ### Filter -/

/-- v + ((target − v) * SMOOTH) (43_effects.md R203). -/
def smoothTo (v target : F32) : F32 := add v (mul (sub target v) smooth)

/-- Parameter smoothing, once per frame (R203). -/
def filterSmooth (P : ParamFile) (f : FilterState) : FilterState :=
  { f with
    smCut := smoothTo f.smCut (par P Reg.filterCutoff)
    smRes := smoothTo f.smRes (par P Reg.filterResonance)
    smDrive := smoothTo f.smDrive (par P Reg.filterDrive) }

/-- fc = minf(smCut, 0.45 * FSf) (R204). -/
def filterFc (fs : Nat) (smCut : F32) : F32 := minf smCut (mul (dec 45 100) (fsf fs))

/-- Q = 0.70710678 + (smRes * 9.2928932) (R204). -/
def filterQ (smRes : F32) : F32 := add (dec 70710678 100000000) (mul smRes (dec 92928932 10000000))

/-- OSF = 2^int(oversample) (R204). -/
def filterOsf (P : ParamFile) : Nat := 2 ^ parNat P Reg.filterOversample

/-- The normalised coefficients nb0, nb1, nb2, na1, na2 (R210). -/
structure Coefs where
  nb0 : F32
  nb1 : F32
  nb2 : F32
  na1 : F32
  na2 : F32
deriving DecidableEq, Repr

/-- b0, b1, b2 of a filter type: Lowpass, Highpass, Bandpass, Notch (R206 to R209). No code above 3 can be stored (log
entry 15). -/
def filterNum (type : Nat) (cw alpha : F32) : F32 × F32 × F32 :=
  match type with
  | 0 => (div (sub one cw) two, sub one cw, div (sub one cw) two)
  | 1 => (div (add one cw) two, sub F32.zero (add one cw), div (add one cw) two)
  | 2 => (alpha, F32.zero, sub F32.zero alpha)
  | _ => (one, mul (sub F32.zero two) cw, one)

/-- The coefficients from cos w0, sin w0, the Q and the type (R205 to R210). -/
def filterCoefsOf (type : Nat) (cw sw Q : F32) : Coefs :=
  let alpha := div sw (mul two Q)
  let b := filterNum type cw alpha
  let a0 := add one alpha
  let a1 := mul (sub F32.zero two) cw
  let a2 := sub one alpha
  ⟨div b.1 a0, div b.2.1 a0, div b.2.2 a0, div a1 a0, div a2 a0⟩

/-- The coefficients of this frame, from the smoothed state (R204 to R210). -/
def filterCoefs (P : ParamFile) (fs : Nat) (f : FilterState) : Coefs :=
  let w0 := div (mul twoPi (filterFc fs f.smCut)) (mul (fsf fs) (ofNat (filterOsf P)))
  filterCoefsOf (parNat P Reg.filterType) (fCos w0) (fSin w0) (filterQ f.smRes)

/-- Pre-saturation: the tanh blend above drive 1.0 (R211). -/
def preSaturate (smDrive x : F32) : F32 :=
  let bl := clampf (div (sub smDrive one) (dec 3 1)) F32.zero one
  if lt F32.zero bl then add x (mul bl (sub (fTanh (mul smDrive x)) x)) else x

/-- y of one Direct Form I step (R212). -/
def biquadOut (k : Coefs) (b : Biquad) (xs : F32) : F32 :=
  sub (sub (add (add (mul k.nb0 xs) (mul k.nb1 b.x1)) (mul k.nb2 b.x2)) (mul k.na1 b.y1)) (mul k.na2 b.y2)

/-- OSF steps of the biquad on the held sample, with the running sum of their outputs (R212). -/
def biquadSteps (k : Coefs) (xs : F32) : Nat → Biquad → F32 → Biquad × F32
  | 0, b, acc => (b, acc)
  | n + 1, b, acc =>
    let y := biquadOut k b xs
    biquadSteps k xs n ⟨xs, b.x1, y, b.y1⟩ (add acc y)

/-- What the guard found: history, output and whether it reset the channel (R213). -/
structure GuardOut where
  bq : Biquad
  out : F32
  tripped : Bool
deriving DecidableEq, Repr

/-- The non-finite guard of one channel (R213). -/
def filterGuard (b : Biquad) (out : F32) : GuardOut :=
  if !out.isFinite || !b.y1.isFinite || !b.y2.isFinite then
    ⟨⟨F32.zero, F32.zero, F32.zero, F32.zero⟩, F32.zero, true⟩
  else ⟨b, out, false⟩

/-- One channel of the filter: saturation, oversampled biquad, guard (R211 to R213). -/
def filterChan (k : Coefs) (osf : Nat) (smDrive : F32) (b : Biquad) (x : F32) : GuardOut :=
  let r := biquadSteps k (preSaturate smDrive x) osf b F32.zero
  filterGuard r.1 (div r.2 (ofNat osf))

/-- Filter(L, R), with the FLT_RESET condition of the block so far (R203 to R213). -/
def filter (P : ParamFile) (fs : Nat) (st : FilterState × Bool) (x : Stereo F32) :
    (FilterState × Bool) × Stereo F32 :=
  if isOn P Reg.filterEnable then
    let f := filterSmooth P st.1
    let k := filterCoefs P fs f
    let l := filterChan k (filterOsf P) f.smDrive f.bq.l x.l
    let r := filterChan k (filterOsf P) f.smDrive f.bq.r x.r
    (({ f with bq := ⟨l.bq, r.bq⟩ }, st.2 || l.tripped || r.tripped), ⟨l.out, r.out⟩)
  else (st, x)

/-! ### Flanger -/

/-- D, the flanger's delay in frames (R214). -/
def flangerDelay (P : ParamFile) (fs : Nat) (ph : F32) : F32 :=
  let lfo := fSin (mul twoPi ph)
  let dms := add flMinMs (mul (mul (par P Reg.flangerDepth) flSweepMs) (add half (mul half lfo)))
  mul (mul dms (dec 1 1000)) (fsf fs)

/-- One channel of the flanger: the buffer and the sample after it (R215). -/
def flangerChan (P : ParamFile) (fs w : Nat) (D : F32) (buf : Mem) (x : F32) : Mem × F32 :=
  let Di := floorI D
  let fD := sub D (ofInt Di)
  let da := Memory.readF buf (ringBack w Di (Config.lf fs))
  let db := Memory.readF buf (ringBack w (Di + 1) (Config.lf fs))
  let d := add (mul da (sub one fD)) (mul db fD)
  (Memory.writeF buf w (add x (mul (par P Reg.flangerFeedback) d)), blend x d (par P Reg.flangerMix))

/-- Flanger(L, R) (R214 to R216). -/
def flanger (P : ParamFile) (fs : Nat) (st : FlangerState) (x : Stereo F32) : FlangerState × Stereo F32 :=
  if isOn P Reg.flangerEnable then
    let D := flangerDelay P fs st.ph
    let l := flangerChan P fs st.w D st.flb.l x.l
    let r := flangerChan P fs st.w D st.flb.r x.r
    ({ flb := ⟨l.1, r.1⟩, w := ringNext st.w (Config.lf fs)
       ph := frac (add st.ph (div (par P Reg.flangerRate) (fsf fs))) }, ⟨l.2, r.2⟩)
  else (st, x)

/-! ### Delay -/

/-- min(DBUF − 1, max(1, roundInt(d))): a delay length in frames (R218, R220). -/
def delayLen (fs : Nat) (d : F32) : Nat := min (Config.dbuf fs - 1) (max 1 (roundInt d).toNat)

/-- nS, the standard mode's delay (R218). -/
def standardLen (P : ParamFile) (fs : Nat) : Nat := delayLen fs (mul (par P Reg.delayTime) (fsf fs))

/-- TapLen(t) (R220); tap t counts from 0. -/
def tapLen (P : ParamFile) (fs t : Nat) : Nat :=
  delayLen fs (mul (mul (par P (Reg.tapBeats t)) (div (dec 60 1) (par P Reg.delayTempo))) (fsf fs))

/-- MultiTapWet(c) on one channel's buffer: the enabled taps in ascending order (R219). -/
def multiTapWet (P : ParamFile) (fs w : Nat) (buf : Mem) : F32 :=
  (List.range 8).foldl
    (fun wet t =>
      if isOn P (Reg.tapEnable t) then
        add wet (mul (par P (Reg.tapLevel t)) (Memory.readF buf (ringBack w (tapLen P fs t) (Config.dbuf fs))))
      else wet) F32.zero

/-- One channel of the delay: Standard, Multi-tap or disabled; it reads before it writes (R217). -/
def delayChan (P : ParamFile) (fs w : Nat) (buf : Mem) (x : F32) : Mem × F32 :=
  if isOn P Reg.delayEnable && eq (par P Reg.delayMode) F32.zero then
    let tap := Memory.readF buf (ringBack w (standardLen P fs) (Config.dbuf fs))
    (Memory.writeF buf w (add x (mul (par P Reg.delayFeedback) tap)), blend x tap (par P Reg.delayMix))
  else if isOn P Reg.delayEnable then
    (Memory.writeF buf w x, blend x (multiTapWet P fs w buf) (par P Reg.delayMix))
  else (Memory.writeF buf w x, x)

/-- Delay(L, R): the buffer is written and the index advances in every frame (R217). -/
def delay (P : ParamFile) (fs : Nat) (st : DelayState) (x : Stereo F32) : DelayState × Stereo F32 :=
  let l := delayChan P fs st.w st.dly.l x.l
  let r := delayChan P fs st.w st.dly.r x.r
  ({ dly := ⟨l.1, r.1⟩, w := ringNext st.w (Config.dbuf fs) }, ⟨l.2, r.2⟩)

/-! ### Reverb -/

/-- gc = REV_FB_MAX * size (R224). -/
def combFeedback (P : ParamFile) : F32 := mul revFbMax (par P Reg.reverbSize)

/-- One comb filter of length `len`: the sample it returns and itself after the frame (R222). -/
def combStep (gc x : F32) (len : Nat) (c : Line) : F32 × Line :=
  let d := Memory.readF c.buf c.idx
  (d, ⟨Memory.writeF c.buf c.idx (add x (mul gc d)), ringNext c.idx len⟩)

/-- One allpass filter of length `len`: u after it and itself after the frame (R223). -/
def allpassStep (u : F32) (len : Nat) (a : Line) : F32 × Line :=
  let d := Memory.readF a.buf a.idx
  let v := add u (mul revApG d)
  (sub d (mul revApG v), ⟨Memory.writeF a.buf a.idx v, ringNext a.idx len⟩)

/-- The reverb of one channel: four combs summed and scaled, two allpasses in series, the mix (R222 to R225). -/
def reverbChan (P : ParamFile) (fs : Nat) (c : Chan) (st : ReverbChan) (x : F32) : ReverbChan × F32 :=
  let gc := combFeedback P
  let c0 := combStep gc x (Config.combLen fs c 0) st.comb[0]
  let c1 := combStep gc x (Config.combLen fs c 1) st.comb[1]
  let c2 := combStep gc x (Config.combLen fs c 2) st.comb[2]
  let c3 := combStep gc x (Config.combLen fs c 3) st.comb[3]
  let s := add (add (add (add F32.zero c0.1) c1.1) c2.1) c3.1
  let a0 := allpassStep (mul s (dec 1 4)) (Config.allpassLen fs c 0) st.allpass[0]
  let a1 := allpassStep a0.1 (Config.allpassLen fs c 1) st.allpass[1]
  ({ comb := #v[c0.2, c1.2, c2.2, c3.2], allpass := #v[a0.2, a1.2] }, blend x a1.1 (par P Reg.reverbMix))

/-- Reverb(L, R) (R222 to R225). -/
def reverb (P : ParamFile) (fs : Nat) (st : Stereo ReverbChan) (x : Stereo F32) : Stereo ReverbChan × Stereo F32 :=
  if isOn P Reg.reverbEnable then
    let l := reverbChan P fs .L st.l x.l
    let r := reverbChan P fs .R st.r x.r
    (⟨l.1, r.1⟩, ⟨l.2, r.2⟩)
  else (st, x)

end Sys2Proof.Machine
end

