-- ==== Sys2Proof/Machine/Voice.lean ====
section
/-! DEFINITION. The voice: GATEON and GATEOFF, the ADSR envelope, the oscillator with unison, and a voice's
contribution to one frame (41_voice.md). -/

namespace Sys2Proof.Machine
open F32 Consts

/-! ### Commands -/

/-- A voice slot right after GATEON (41_voice.md R121). -/
def gatedOn (vel note : F32) : Voice := { Voice.reset with phase := .attack, note := note, vel := vel }

/-- A voice slot after GATEOFF: a sounding voice enters Release from its current level, an Idle one is left alone
(41_voice.md R122). -/
def gatedOff (v : Voice) : Voice :=
  match v.phase with
  | .idle => v
  | .attack => { v with relStart := v.level, phase := .release, time := F32.zero }
  | .decay => { v with relStart := v.level, phase := .release, time := F32.zero }
  | .sustain => { v with relStart := v.level, phase := .release, time := F32.zero }
  | .release => { v with relStart := v.level, phase := .release, time := F32.zero }

/-- GATEON (41_voice.md R121, 30_encoding.md R84); the voice check before the NaN check (60_exceptions.md R263). -/
def execGateon (v : BitVec 8) (vel : BitVec 16) (note : Word) (s : State) : Host.Outcome State Fault Refusal :=
  if s.nv ≤ v.toNat then .next (drop .errVoice s)
  else if (F32.mk note).isNaN then .next (drop .errNan s)
  else .next (s.setVoice v.toNat (gatedOn (velOf vel) (noteOf ⟨note⟩)))

/-- GATEOFF (41_voice.md R122, 30_encoding.md R85). -/
def execGateoff (v : BitVec 8) (s : State) : Host.Outcome State Fault Refusal :=
  match s.voices[v.toNat]? with
  | none => .next (drop .errVoice s)
  | some x => .next (s.setVoice v.toNat (gatedOff x))

/-! ### Envelope -/

/-- Sustain: level S, read anew on every call (41_voice.md R141). -/
def envSustain (P : ParamFile) (v : Voice) : Voice := { v with level := par P Reg.envSustain }

/-- Decay: a linear fall from 1.0 to S over D seconds, or its end and then Sustain in the same call (R140, R143). -/
def envDecay (P : ParamFile) (v : Voice) : Voice :=
  let D := par P Reg.envDecay
  let S := par P Reg.envSustain
  if le D tSnap || le D v.time then
    envSustain P { v with level := S, phase := .sustain, time := F32.zero }
  else { v with level := add one (mul (sub S one) (div v.time D)) }

/-- Attack: a linear rise from 0 to 1 over A seconds, or its end and then Decay at time 0 in the same call (R139,
R143). -/
def envAttack (P : ParamFile) (v : Voice) : Voice :=
  let A := par P Reg.envAttack
  if le A tSnap || le A v.time then
    envDecay P { v with level := one, phase := .decay, time := F32.zero }
  else { v with level := div v.time A }

/-- Release: a linear fall from relStart to 0 over R seconds, or its end at level 0 in Idle (R142, R143). -/
def envRelease (P : ParamFile) (v : Voice) : Voice :=
  let R := par P Reg.envRelease
  if le R tSnap || le R v.time then { v with level := F32.zero, phase := .idle, time := F32.zero }
  else { v with level := mul v.relStart (sub one (div v.time R)) }

/-- The time in phase advanced by dt (R137). -/
def envTick (dt : F32) (v : Voice) : Voice := { v with time := add v.time dt }

/-- EnvAdvance(v, dt) (41_voice.md R137, R138). -/
def envAdvance (P : ParamFile) (dt : F32) (v : Voice) : Voice :=
  match v.phase with
  | .idle => { v with level := F32.zero }
  | .attack => envAttack P (envTick dt v)
  | .decay => envDecay P (envTick dt v)
  | .sustain => envSustain P (envTick dt v)
  | .release => envRelease P (envTick dt v)

/-! ### Oscillator -/

/-- Freq(base, vd) = 440.0 * F_exp2(((base + vd) − 69.0) / 12.0) (41_voice.md R126). -/
def freq (base vd : F32) : F32 := mul (dec 440 1) (fExp2 (div (sub (add base vd) (dec 69 1)) (dec 12 1)))

/-- UD[U][k], the unison detune offset, computed exactly and rounded once (41_voice.md R125). -/
def unisonOffset (U k : Nat) : F32 :=
  if U ≤ 1 then F32.zero else dec (2 * (k : Int) - ((U : Int) - 1)) (U - 1)

/-- Sine (41_voice.md R130). -/
def waveSine (q : F32) : F32 := fSin (mul twoPi q)
/-- Saw (41_voice.md R131). -/
def waveSaw (q : F32) : F32 := sub (mul two q) one
/-- Square (41_voice.md R132). -/
def waveSquare (q pw : F32) : F32 := if lt q pw then one else negOne
/-- Triangle (41_voice.md R133). -/
def waveTriangle (q : F32) : F32 := sub (mul (dec 4 1) (abs (sub q half))) one

/-- Wave(code, q, pw) and the count of draws after it; code 4 is Noise, one draw (41_voice.md R129, R134). No code
above 4 can be stored (log entry 15). -/
def wave (code : Nat) (q pw : F32) (draws : Nat) : F32 × Nat :=
  match code with
  | 0 => (waveSine q, draws)
  | 1 => (waveSaw q, draws)
  | 2 => (waveSquare q pw, draws)
  | 3 => (waveTriangle q, draws)
  | _ => (noiseDraw draws, draws + 1)

/-- What the loop over unison voices carries: the slot's accumulators, the running sum and the count of draws. -/
structure OscLoop where
  acc : Vector F32 8
  sum : F32
  draws : Nat
deriving DecidableEq, Repr

/-- q = frac(acc + PHOFF), the lookup phase (41_voice.md R128). -/
def lookupPhase (acc : F32) : F32 := frac (add acc phOff)

/-- acc <- frac(acc + (f / FSf)) (41_voice.md R127). -/
def advancePhase (fs : Nat) (acc f : F32) : F32 := frac (add acc (div f (fsf fs)))

/-- Unison voice k of slot s: sample at the phase before the advance, add, advance (41_voice.md R124). -/
def unisonStep (P : ParamFile) (fs s U : Nat) (base : F32) (st : OscLoop) (k : Fin 8) : OscLoop :=
  let vd := mul (mul (par P (Reg.oscSpread s)) (unisonOffset U k)) unisonSpan
  let f := freq base vd
  let q := lookupPhase st.acc[k]
  let w := wave (parNat P (Reg.oscWave s)) q (par P (Reg.oscPw s)) st.draws
  { acc := st.acc.set k (advancePhase fs st.acc[k] f), sum := add st.sum w.1, draws := w.2 }

/-- The unison voices in ascending order. -/
def unisonIds : List (Fin 8) := [0, 1, 2, 3, 4, 5, 6, 7]

/-- OscProcess(v, s): the mean of the U unison samples, with the accumulators and the count of draws after it
(41_voice.md R124, R135). Slot s counts from 0; accumulators k ≥ U are left alone (10_state.md R42). -/
def oscProcess (P : ParamFile) (fs s : Nat) (note : F32) (acc : Vector F32 8) (draws : Nat) :
    F32 × Vector F32 8 × Nat :=
  let U := parNat P (Reg.oscUnison s)
  let base := add (add note (par P (Reg.oscPitch s))) (par P (Reg.oscDetune s))
  let r := (unisonIds.take U).foldl (unisonStep P fs s U base) { acc := acc, sum := F32.zero, draws := draws }
  (div r.sum (ofNat U), r.acc, r.draws)

/-! ### One voice, one frame -/

/-- PanGains(p), the equal-power law (41_voice.md R148). -/
def panGains (p : F32) : Stereo F32 :=
  let th := mul (add p one) qPi
  ⟨fCos th, fSin th⟩

/-- What the loop over oscillator slots carries: the voice's accumulators, the two sums and the count of draws. -/
structure SlotLoop where
  acc : Vector (Vector F32 8) 4
  sum : Stereo F32
  draws : Nat
deriving DecidableEq, Repr

/-- Slot s of VoiceFrame: the slot's sample times its gain and its bus gain, panned and added (41_voice.md R146,
R147). -/
def slotStep (P : ParamFile) (fs : Nat) (note : F32) (st : SlotLoop) (s : Fin 4) : SlotLoop :=
  let o := oscProcess P fs s note st.acc[s] st.draws
  let m := mul (mul o.1 (par P (Reg.oscGain s))) (par P (Reg.busGain s))
  let g := panGains (par P (Reg.oscPan s))
  { acc := st.acc.set s o.2.1, sum := ⟨add st.sum.l (mul m g.l), add st.sum.r (mul m g.r)⟩, draws := o.2.2 }

/-- The oscillator slots in ascending order. -/
def slotIds : List (Fin 4) := [0, 1, 2, 3]

/-- VoiceFrame(v): the voice after the frame, its stereo contribution, and the count of draws (41_voice.md R146,
R149). -/
def voiceFrame (P : ParamFile) (fs : Nat) (v : Voice) (draws : Nat) : Voice × Stereo F32 × Nat :=
  let v1 := envAdvance P (dt fs) v
  let r := slotIds.foldl (slotStep P fs v1.note) { acc := v1.acc, sum := ⟨F32.zero, F32.zero⟩, draws := draws }
  let amp := mul v1.level v1.vel
  ({ v1 with acc := r.acc }, ⟨mul r.sum.l amp, mul r.sum.r amp⟩, r.draws)

end Sys2Proof.Machine
end

