-- ==== Sys2Proof/Machine/Mastering.lean ====
section
/-! DEFINITION. Metering, auto-gain and the mastering stage (42_render.md R163 to R174). -/

namespace Sys2Proof.Machine
open F32 Consts

/-! ### Metering and auto-gain -/

/-- The meter's running peak and sum of squares. -/
structure MeterSum where
  peak : F32
  ss : F32
deriving DecidableEq, Repr

/-- One frame of Meter: L, then R, into the peak and into the sum (42_render.md R163). -/
def meterStep (m : MeterSum) (x : Stereo F32) : MeterSum :=
  { peak := maxf (maxf m.peak (abs x.l)) (abs x.r)
    ss := add (add m.ss (mul x.l x.l)) (mul x.r x.r) }

/-- The block's peak and RMS levels, linear (42_render.md R163). -/
structure Levels where
  peak : F32
  rms : F32
deriving DecidableEq, Repr

/-- Meter(n) over the accumulation buffer (42_render.md R163). -/
def meter (acc : List (Stereo F32)) : Levels :=
  let m := acc.foldl meterStep ⟨F32.zero, F32.zero⟩
  { peak := m.peak, rms := sqrt (div m.ss (ofNat (2 * acc.length))) }

/-- 20.0 * F_log10(maxf(x, METER_FLOOR)), a level in dB (42_render.md R163). -/
def levelDb (x : F32) : F32 := mul (dec 20 1) (fLog10 (maxf x meterFloor))

/-- The linear gain of a level in dB: F_pow(10.0, x / 20.0). -/
def dbToGain (x : F32) : F32 := fPow (dec 10 1) (div x (dec 20 1))

/-- The gain auto-gain aims at: target/rms, capped at 1/peak and bounded, or the present gain on silence (R164). -/
def autoGainDesired (P : ParamFile) (lv : Levels) (ag : F32) : F32 :=
  if lt agFloor lv.rms then
    let desired := div (dbToGain (par P Reg.autogainTarget)) lv.rms
    let desired := if lt meterFloor lv.peak then minf desired (div one lv.peak) else desired
    clampf desired agMin agMax
  else ag

/-- AutoGainUpdate(), once per RENDER (42_render.md R164). -/
def autoGainUpdate (P : ParamFile) (lv : Levels) (ag : F32) : F32 :=
  if isOn P Reg.autogainEnable then
    let delta := clampf (sub (autoGainDesired P lv ag) ag) (sub F32.zero agStep) agStep
    clampf (add ag delta) agMin agMax
  else one

/-! ### The mastering stage -/

/-- HardClamp(x): a NaN to 0.0, else clamped to [−1, 1] (42_render.md R174). -/
def hardClamp (x : F32) : F32 := if x.isNaN then F32.zero else clampf x negOne one

/-- Master gain (R165). -/
def masterGain (P : ParamFile) (x : Stereo F32) : Stereo F32 :=
  ⟨mul x.l (par P Reg.masterGain), mul x.r (par P Reg.masterGain)⟩

/-- Auto-gain multiplier (R166). -/
def applyAutoGain (ag : F32) (x : Stereo F32) : Stereo F32 := ⟨mul x.l ag, mul x.r ag⟩

/-- Master pan (R167). -/
def masterPan (P : ParamFile) (x : Stereo F32) : Stereo F32 :=
  let g := panGains (par P Reg.masterPan)
  ⟨mul x.l g.l, mul x.r g.r⟩

/-- Mid/side width (R168). -/
def midSide (width : F32) (x : Stereo F32) : Stereo F32 :=
  let m := mul (add x.l x.r) half
  let sd := mul (mul (sub x.l x.r) half) width
  ⟨add m sd, sub m sd⟩

/-- F_exp((0.0 − 1.0) / ((ms * 0.001) * FSf)): a follower coefficient (R169). -/
def followCoef (fs : Nat) (ms : F32) : F32 := fExp (div (sub F32.zero one) (mul (mul ms (dec 1 1000)) (fsf fs)))

/-- The compressor's peak follower on one channel (R169). -/
def compFollow (fs : Nat) (ce x : F32) : F32 :=
  let a := abs x
  let c := if lt ce a then followCoef fs compAttMs else followCoef fs compRelMs
  add (mul c ce) (mul (sub one c) a)

/-- The compressor's gain from the follower's level (R170). -/
def compGain (P : ParamFile) (ce : F32) : F32 :=
  let thr := dbToGain (par P Reg.compThreshold)
  if lt thr ce then fPow (div ce thr) (sub (div one (par P Reg.compRatio)) one) else one

/-- What the compressor carries from frame to frame: the followers ce, and the block's smallest gain so far. -/
structure CompLoop where
  ce : Stereo F32
  grMin : F32
deriving DecidableEq, Repr

/-- The compressor on both channels, L then R (R169, R170); the identity when disabled (R177). -/
def compressor (P : ParamFile) (fs : Nat) (st : CompLoop) (x : Stereo F32) : CompLoop × Stereo F32 :=
  if isOn P Reg.compEnable then
    let ceL := compFollow fs st.ce.l x.l
    let gL := compGain P ceL
    let ceR := compFollow fs st.ce.r x.r
    let gR := compGain P ceR
    let mk := dbToGain (par P Reg.compMakeup)
    ({ ce := ⟨ceL, ceR⟩, grMin := minf (minf st.grMin gL) gR }, ⟨mul (mul x.l gL) mk, mul (mul x.r gR) mk⟩)
  else (st, x)

/-- The gain-reduction readout at the end of a RENDER (R171). -/
def gainReductionDb (grMin : F32) : F32 := sub F32.zero (mul (dec 20 1) (fLog10 grMin))

/-- The DC blocker on one channel (R172). -/
def dcStep (h : DcHist) (x : F32) : DcHist × F32 :=
  let y := add (sub x h.x1) (mul dcR h.y1)
  (⟨x, y⟩, y)

/-- The DC blocker; the identity when disabled (R172, R177). -/
def dcBlock (P : ParamFile) (h : Stereo DcHist) (x : Stereo F32) : Stereo DcHist × Stereo F32 :=
  if isOn P Reg.dcEnable then
    let l := dcStep h.l x.l
    let r := dcStep h.r x.r
    (⟨l.1, r.1⟩, ⟨l.2, r.2⟩)
  else (h, x)

/-- The soft clipper on one channel with threshold T (R173). -/
def softClipOne (T x : F32) : F32 :=
  let a := abs x
  if le one T || !(lt T a) then x
  else if a.isInf then copysign one x
  else
    let e := div (sub a T) (sub one T)
    copysign (add T (mul (sub one T) (div e (add one e)))) x

/-- The soft clipper; the identity when disabled (R173, R177). -/
def softClip (P : ParamFile) (x : Stereo F32) : Stereo F32 :=
  if isOn P Reg.softclipEnable then
    let T := dbToGain (par P Reg.softclipThreshold)
    ⟨softClipOne T x.l, softClipOne T x.r⟩
  else x

/-- Master(L, R): master gain, auto-gain, pan, width, compressor, DC blocker, soft clip, hard clamp, in this order
(R160, R165 to R174). -/
def master (P : ParamFile) (fs : Nat) (ag : F32) (st : CompLoop × Stereo DcHist) (x : Stereo F32) :
    (CompLoop × Stereo DcHist) × Stereo F32 :=
  let x := midSide (par P Reg.masterWidth) (masterPan P (applyAutoGain ag (masterGain P x)))
  let c := compressor P fs st.1 x
  let d := dcBlock P st.2 c.2
  let y := softClip P d.2
  ((c.1, d.1), ⟨hardClamp y.l, hardClamp y.r⟩)

end Sys2Proof.Machine
end

