-- ==== Sys2Proof/Machine/Render.lean ====
section
/-! DEFINITION. RENDER: the accumulation pass, metering and auto-gain, and the output pass (42_render.md R160 to R162,
R171, R175 to R177). -/

namespace Sys2Proof.Machine
open F32 Consts

/-! ### Accumulation pass -/

/-- What one frame of the accumulation pass leaves: the voices, the frame's sums, the count of draws. -/
structure AccFrame where
  voices : List Voice
  sum : Stereo F32
  draws : Nat
deriving DecidableEq, Repr

/-- One frame over the voices in ascending order: an Idle voice is skipped, any other adds its VoiceFrame (R162,
41_voice.md R150). -/
def accFrame (P : ParamFile) (fs : Nat) : List Voice → Stereo F32 → Nat → AccFrame
  | [], sum, draws => ⟨[], sum, draws⟩
  | v :: vs, sum, draws =>
    if v.phase = .idle then
      let r := accFrame P fs vs sum draws
      { r with voices := v :: r.voices }
    else
      let f := voiceFrame P fs v draws
      let r := accFrame P fs vs ⟨add sum.l f.2.1.l, add sum.r f.2.1.r⟩ f.2.2
      { r with voices := f.1 :: r.voices }

/-- What the accumulation pass leaves: the voices, the frames accL[i], accR[i] in order, the count of draws. -/
structure AccPass where
  voices : List Voice
  frames : List (Stereo F32)
  draws : Nat
deriving DecidableEq, Repr

/-- AccumulationPass(n) (R162). -/
def accumulate (P : ParamFile) (fs : Nat) : Nat → List Voice → Nat → AccPass
  | 0, voices, draws => ⟨voices, [], draws⟩
  | n + 1, voices, draws =>
    let f := accFrame P fs voices ⟨F32.zero, F32.zero⟩ draws
    let r := accumulate P fs n f.voices f.draws
    { r with frames := f.sum :: r.frames }

/-! ### Output pass -/

/-- What the output pass carries from frame to frame: the state of every stage, the compressor's smallest gain of the
block, and whether the filter guard acted in the block. -/
structure Chain where
  comp : CompLoop
  dc : Stereo DcHist
  ringPh : F32
  filter : FilterState
  fltReset : Bool
  flanger : FlangerState
  delay : DelayState
  reverb : Stereo ReverbChan
deriving DecidableEq, Repr

/-- FinalClamp (R175). -/
def finalClamp (x : F32) : F32 := hardClamp x

/-- OutputFrame(i) on the frame's accumulated sums: mastering, ring modulator, filter, flanger, delay, reverb, final
clamp (R160 phase 3). -/
def outputFrame (P : ParamFile) (fs : Nat) (ag : F32) (c : Chain) (x : Stereo F32) : Chain × Stereo F32 :=
  let m := master P fs ag (c.comp, c.dc) x
  let g := ringMod P fs c.ringPh m.2
  let f := filter P fs (c.filter, c.fltReset) g.2
  let l := flanger P fs c.flanger f.2
  let d := delay P fs c.delay l.2
  let v := reverb P fs c.reverb d.2
  ({ comp := m.1.1, dc := m.1.2, ringPh := g.1, filter := f.1.1, fltReset := f.1.2, flanger := l.1, delay := d.1
     reverb := v.1 }, ⟨finalClamp v.2.l, finalClamp v.2.r⟩)

/-- The output pass over the frames in ascending order: the chain after it and the output frames (R160). -/
def outputPass (P : ParamFile) (fs : Nat) (ag : F32) : List (Stereo F32) → Chain → Chain × List (Stereo F32)
  | [], c => (c, [])
  | x :: xs, c =>
    let o := outputFrame P fs ag c x
    let r := outputPass P fs ag xs o.1
    (r.1, o.2 :: r.2)

/-- MemWrite of the frames from frame i on: L at word 2i, R at word 2i + 1 (R176, 20_memory.md R61). -/
def writeFrames (m : Mem) (i : Nat) : List (Stereo F32) → Mem
  | [] => m
  | x :: xs => writeFrames (Memory.writeF (Memory.writeF m (2 * i) x.l) (2 * i + 1) x.r) (i + 1) xs

/-! ### RENDER -/

/-- The chain at the start of a RENDER: the state's stages, grMin 1.0, no guard action yet (R161). -/
def State.chain (s : State) : Chain :=
  { comp := ⟨s.ce, one⟩, dc := s.dc, ringPh := s.ringPh, filter := s.filter, fltReset := false
    flanger := s.flanger, delay := s.delay, reverb := s.reverb }

/-- The state after the output pass has left chain `c` and output frames `out` (R171, R176, 43_effects.md R213). -/
def State.finishRender (s : State) (c : Chain) (out : List (Stereo F32)) : State :=
  { s with
    ce := c.comp.ce
    dc := c.dc
    ringPh := c.ringPh
    filter := c.filter
    flanger := c.flanger
    delay := c.delay
    reverb := c.reverb
    outbuf := writeFrames s.outbuf 0 out
    status := if c.fltReset then setFlag s.status .fltReset else s.status
    grDb := gainReductionDb c.comp.grMin
    frames := s.frames + BitVec.ofNat 64 out.length }

/-- The state after the accumulation pass `a`, with the meters and the auto-gain multiplier it leads to (R162 to
R164). -/
def State.afterMeter (s : State) (a : AccPass) (peakDb rmsDb ag : F32) : State :=
  { s with voices := a.voices, draws := a.draws, peakDb := peakDb, rmsDb := rmsDb, ag := ag }

/-- An accepted RENDER of n frames: accumulate, meter, auto-gain, output (R160, R161). -/
def State.render (s : State) (n : Nat) : State :=
  let a := accumulate s.regs s.cfg.fs n s.voices s.draws
  let lv := meter a.frames
  let ag := autoGainUpdate s.regs lv s.ag
  let o := outputPass s.regs s.cfg.fs ag a.frames s.chain
  (s.afterMeter a (levelDb lv.peak) (levelDb lv.rms) ag).finishRender o.1 o.2

/-- RENDER: dropped with ERR_LEN when n is 0 or greater than MAXB (R161, 30_encoding.md R86). -/
def execRender (n : Word) (s : State) : Host.Outcome State Fault Refusal :=
  if n.toNat = 0 ∨ s.cfg.maxb < n.toNat then .next (drop .errLen s) else .next (s.render n.toNat)

end Sys2Proof.Machine
end

