-- ==== Sys2Proof/Machine/Dispatch.lean ====
section
/-! DEFINITION. One arm per command. -/

namespace Sys2Proof.Machine

def exec (i : Instr) (s : State) : Host.Outcome State Fault Refusal :=
  match i with
  | .nop => Sys2Proof.Machine.execNop s
  | .setp id value => Sys2Proof.Machine.execSetp id value s
  | .gateon v vel note => Sys2Proof.Machine.execGateon v vel note s
  | .gateoff v => Sys2Proof.Machine.execGateoff v s
  | .render n => Sys2Proof.Machine.execRender n s
  | .clrst mask => Sys2Proof.Machine.execClrst mask s

end Sys2Proof.Machine
end

