-- ==== Sys2Proof/Machine/HostPort.lean ====
section
/-! DEFINITION. What the host can do to the block besides letting it step: issue a command word, read a register or an
OUTBUF word, read OUTBUF through a byte bridge, assert reset (20_memory.md R60 to R69, 70_reset_and_hazards.md R280).
A read is a function of the state: it happens between two commands and changes nothing (R65, R66; log entry 17). -/

namespace Sys2Proof.Machine

/-- The host issues one command word: it is consumed after those already issued (20_memory.md R66, R76). -/
def State.issue (s : State) (w : Cmd) : State := s.setPort (s.port ++ [w])

/-- Phase codes as VOICE<v>.PHASE shows them (10_state.md R41). -/
def Phase.code : Phase → Nat
  | .idle => 0
  | .attack => 1
  | .decay => 2
  | .sustain => 3
  | .release => 4

/-- A voice is active exactly when it is not Idle (41_voice.md R151). -/
def Voice.active (v : Voice) : Bool := decide (v.phase ≠ .idle)

/-- ACTIVE: how many voice slots are active at the time of the read (10_state.md R38). -/
def activeCount (s : State) : Nat := s.voices.countP Voice.active

/-- A per-voice status register: the field of slot v, or 0 when v ≥ NV (10_state.md R39). -/
def voiceReg (s : State) (v : Nat) (f : Voice → Word) : Word :=
  match s.voices[v]? with
  | some x => f x
  | none => 0

/-- A status register's value at the time of the read; 0 for an unmapped id (10_state.md R37 to R39). -/
def statusReg (s : State) (id : Nat) : Word :=
  match id with
  | 0xF000 => s.status
  | 0xF001 => BitVec.ofNat 32 (activeCount s)
  | 0xF002 => s.peakDb.bits
  | 0xF003 => s.rmsDb.bits
  | 0xF004 => s.grDb.bits
  | 0xF005 => s.ag.bits
  | 0xF006 => s.frames.extractLsb' 0 32
  | 0xF007 => s.frames.extractLsb' 32 32
  | 0xF008 => BitVec.ofNat 32 s.nv
  | 0xF009 => BitVec.ofNat 32 s.cfg.maxb
  | 0xF00A => BitVec.ofNat 32 s.cfg.fs
  | _ =>
    match id / 256 with
    | 0xF1 => voiceReg s (id % 256) (fun v => BitVec.ofNat 32 v.phase.code)
    | 0xF2 => voiceReg s (id % 256) (fun v => v.level.bits)
    | 0xF3 => voiceReg s (id % 256) (fun v => v.note.bits)
    | 0xF4 => voiceReg s (id % 256) (fun v => v.vel.bits)
    | _ => 0

/-- x[id]: a host read of register `id` (20_memory.md R69). -/
def readReg (s : State) (id : RegId) : Word :=
  match paramIndex? id.toNat with
  | some i => (s.regs[i]).bits
  | none => statusReg s id.toNat

/-- A host read of OUTBUF word a: its 32 bits below 2·MAXB, else 0 (20_memory.md R62). -/
def readOut (s : State) (a : Nat) : Word := if a < 2 * s.cfg.maxb then Memory.read s.outbuf a else 0

/-- Byte j = 0..3 of a word carried as bytes, byte 0 the least significant (20_memory.md R63). -/
def byteOf (w : Word) (j : Nat) : BitVec 8 := w.extractLsb' (8 * j) 8

/-- A read through a bus bridge with byte addresses: byte address 4a is OUTBUF word a, and any other address the model
refuses (20_memory.md R64; log entry 18). -/
def bridgeRead (s : State) (byteAddr : Nat) : Except Refusal Word :=
  if byteAddr % 4 = 0 then .ok (readOut s (byteAddr / 4)) else .error (.misalignedBridgeAccess byteAddr)

/-- The host asserts reset: every piece of state takes its reset value at once, and the block's parameters FS, MAXB
and NV stay (70_reset R280, R283). Words issued and not consumed are discarded, and the count of noise draws goes on,
so that draws after the reset are not those before it (log entry 16). -/
def State.hostReset (s : State) : State := { State.resetWith s.cfg s.nv with draws := s.draws }

end Sys2Proof.Machine
end

