-- ==== Sys2Proof/Machine/Step.lean ====
section
/-! DEFINITION. One step of the block: consume the next command word and execute it as one atomic step (00_scope.md R7,
20_memory.md R66, R76). With no word on the port the block is idle and its state is held (60_exceptions.md R272). -/

namespace Sys2Proof.Machine

/-- Execute one command word: decode, drop with its flag what does not decode, else run it; then count it
(60_exceptions.md R263, 30_encoding.md R94). -/
def runWord (w : Cmd) (s : State) : Host.Outcome State Fault Refusal :=
  match decodeWord w with
  | .ok i => finish (exec i s)
  | .error e => finish (.next (drop (rejectFlag e) s))

/-- One step. -/
def step (s : State) : Host.Outcome State Fault Refusal :=
  match fetch s with
  | none => .next s
  | some (w, s1) => runWord w s1

/-- The state with the opcode table's word issued as the next command to be consumed (log entry 3). -/
def State.withFetchWord (s : State) (nbits w : Nat) : State := s.setPort (tableWord nbits w :: s.port)

end Sys2Proof.Machine
end

