-- ==== Sys2Proof/Safety.lean ====
section
/-! DEFINITION. What counts as a sound state, in the terms claims use: the legal sets of the parameter registers
(10_state.md R23), memories in canonical form and indexes inside their buffers (20_memory.md R73), the reserved bits of
STATUS (R37), OUTBUF words that are numbers in [−1, 1] (42_render.md R178), and the ranges R40, R44 and R46 give the
voices and the free-running phases, and R43 the auto-gain multiplier. -/

namespace Sys2Proof.Machine
open F32

/-- The value is in the legal set of the kind (10_state.md R23). -/
def Kind.legal : Kind → F32 → Bool
  | .cont lo hi, v => le lo v && le v hi
  | .int lo hi, v => le lo v && le v hi && decide (v = ofInt (floorI v))
  | .enum maxcode, v => le F32.zero v && le v maxcode && decide (v = ofInt (floorI v))
  | .bool, v => decide (v = F32.zero) || decide (v = one)

/-- Every parameter register holds a value of its legal set (R23). -/
abbrev State.RegsLegal (s : State) : Prop := ∀ i : Fin nParams, Kind.legal (paramRow i).kind s.regs[i] = true

/-- The memory is in canonical form and lists no index at or above `size`. -/
def Memory.within (size : Nat) (m : Mem) : Bool := Memory.wf m && m.all (fun e => decide (e.1 < size))

/-- A filter line's buffer and index are inside its length (20_memory.md R72, R73). -/
def Line.ok (len : Nat) (c : Line) : Bool := Memory.within len c.buf && decide (c.idx < len)

/-- Every comb and allpass filter of a channel is inside its length. -/
abbrev ReverbChan.Ok (fs : Nat) (c : Chan) (r : ReverbChan) : Prop :=
  (∀ k : Fin 4, Line.ok (Config.combLen fs c k) r.comb[k] = true)
    ∧ (∀ j : Fin 2, Line.ok (Config.allpassLen fs c j) r.allpass[j] = true)

/-- Every memory is canonical and inside its size, every circular index inside its buffer (20_memory.md R73). -/
abbrev State.MemoriesOk (s : State) : Prop :=
  Memory.within (2 * s.cfg.maxb) s.outbuf = true
    ∧ (∀ c, Memory.within (Config.dbuf s.cfg.fs) (s.delay.dly.get c) = true) ∧ s.delay.w < Config.dbuf s.cfg.fs
    ∧ (∀ c, Memory.within (Config.lf s.cfg.fs) (s.flanger.flb.get c) = true) ∧ s.flanger.w < Config.lf s.cfg.fs
    ∧ (∀ c, ReverbChan.Ok s.cfg.fs c (s.reverb.get c))

/-- Bits 31:6 of STATUS read as 0 (10_state.md R37). -/
abbrev State.StatusOk (s : State) : Prop := s.status &&& ~~~flagBits = 0

/-- Every OUTBUF word encodes a number in [−1, 1] (42_render.md R178). -/
abbrev State.OutOk (s : State) : Prop := ∀ a, inUnit (Memory.readF s.outbuf a) = true

/-- AG_MIN ≤ ag ≤ AG_MAX; the value 1.0 of a disabled auto-gain is inside (10_state.md R43). -/
abbrev State.AgOk (s : State) : Prop := le Consts.agMin s.ag = true ∧ le s.ag Consts.agMax = true

/-- x lies in [0, 1): the range of a phase (10_state.md R40, R44, R46). -/
def inPhase (x : F32) : Bool := le F32.zero x && lt x one

/-- lo ≤ x ≤ hi (so x is no NaN). -/
def within (lo hi x : F32) : Bool := le lo x && le x hi

/-- The ranges of a voice slot: level, release level and velocity in [0, 1], note in [0, 127], time ≥ 0 (10_state.md
R40). -/
structure Voice.Ok (v : Voice) : Prop where
  level : within F32.zero one v.level = true
  relStart : within F32.zero one v.relStart = true
  vel : within F32.zero one v.vel = true
  note : within F32.zero ⟨0x42FE0000#32⟩ v.note = true
  time : le F32.zero v.time = true

/-- Every phase accumulator of the voice lies in [0, 1) (10_state.md R40). -/
abbrev Voice.AccOk (v : Voice) : Prop := ∀ (slot : Fin 4) (k : Fin 8), inPhase v.acc[slot][k] = true

/-- F_exp2 makes a frequency overflow: 440 times its value is not finite on some operand of [−8, 8]. P_EXP2R does not
exclude it (00_scope.md R10, 41_voice.md R126). -/
def FreqOverflows : Prop :=
  ∃ x : F32, x.isFinite = true ∧ le (abs x) ⟨0x41000000#32⟩ = true
    ∧ (mul ⟨0x43DC0000#32⟩ (fExp2 x)).isFinite = false

/-- The block's parameters are admissible: FS and MAXB by R5, and 1 ≤ NV ≤ 64. -/
abbrev State.ConfigOk (s : State) : Prop := s.cfg.Admissible ∧ 1 ≤ s.nv ∧ s.nv ≤ 64

/-- The sound states: what holds at reset and what every step keeps. -/
structure State.Inv (s : State) : Prop where
  config : s.ConfigOk
  regs : s.RegsLegal
  mem : s.MemoriesOk
  status : s.StatusOk
  out : s.OutOk
  ag : s.AgOk
  ringPh : inPhase s.ringPh = true
  flPh : inPhase s.flanger.ph = true
  voices : ∀ v ∈ s.voices, v.Ok
  acc : FreqOverflows ∨ ∀ v ∈ s.voices, v.AccOk

/-! ### Words the statements use -/

/-- What a consumed command word leaves when it changes nothing but STATUS: the word is gone from the port and counted
(60_exceptions.md R262). -/
def State.consumed (s : State) (ws : List Cmd) (status : Word) : State :=
  { s with port := ws, status := status, cmdidx := s.cmdidx + 1 }

/-- What a dropped command word leaves: the flag with this cause code is set as well (60_exceptions.md R261, R262). -/
def State.dropped (s : State) (ws : List Cmd) (code : Nat) : State := s.consumed ws (s.status ||| 1#32 <<< code)

/-- The ids of the parameter registers as the address map gives them (20_memory.md R74, 10_state.md R26 to R36). -/
def isParamId (id : Nat) : Bool :=
  decide (0x0100 ≤ id ∧ id ≤ 0x0137 ∧ id % 16 ≤ 7) || decide (0x0200 ≤ id ∧ id ≤ 0x0203)
    || decide (0x0300 ≤ id ∧ id ≤ 0x0303) || decide (0x0310 ≤ id ∧ id ≤ 0x0312)
    || decide (0x0320 ≤ id ∧ id ≤ 0x0323) || decide (id = 0x0330) || decide (0x0340 ≤ id ∧ id ≤ 0x0341)
    || decide (0x0350 ≤ id ∧ id ≤ 0x0351) || decide (0x0400 ≤ id ∧ id ≤ 0x0402)
    || decide (0x0500 ≤ id ∧ id ≤ 0x0505) || decide (0x0600 ≤ id ∧ id ≤ 0x0604)
    || decide (0x0700 ≤ id ∧ id ≤ 0x0705) || decide (0x0800 ≤ id ∧ id ≤ 0x0872 ∧ id % 16 ≤ 2)
    || decide (0x0900 ≤ id ∧ id ≤ 0x0902)

/-- A reserved field of the word's assigned opcode is not zero, read off bits 63:56, 55:48, 47:32 and 31:0
(30_encoding.md R81, R89). -/
def reservedNonzero (w : Cmd) : Bool :=
  decide (w.extractLsb' 56 8 = 0 ∧ w.extractLsb' 0 56 ≠ 0) || decide (w.extractLsb' 56 8 = 1 ∧ w.extractLsb' 48 8 ≠ 0)
    || decide (w.extractLsb' 56 8 = 3 ∧ w.extractLsb' 0 48 ≠ 0)
    || decide (w.extractLsb' 56 8 = 4 ∧ w.extractLsb' 32 24 ≠ 0)
    || decide (w.extractLsb' 56 8 = 5 ∧ w.extractLsb' 32 24 ≠ 0)

/-- x = f32(roundInt(c)) for a finite c: some integer n with n ≤ c + 1/2 < n + 1, as binary32 (00_scope.md R14); `fix`
counts in units of 2^-149. -/
def RoundsHalfUp (c x : F32) : Prop :=
  ∃ n : Int, n * 2 ^ 149 ≤ c.fix + 2 ^ 148 ∧ c.fix + 2 ^ 148 < (n + 1) * 2 ^ 149 ∧ x = ofInt n

/-- x is the exact value n/d (d > 0, in units of 2^-149) as one rounding to nearest, ties to even, gives it (00_scope.md
R9, 60_exceptions.md R273): finite exactly below the midpoint 2^277 − 2^252 that follows the greatest finite number
2^277 − 2^253, and beyond it an infinity; with the sign of a non-zero n; and if finite, no finite binary32 is nearer, and
where another is as near, the last bit of x is 0. -/
structure RoundsTo (n d : Int) (x : F32) : Prop where
  finite_iff : x.isFinite = true ↔ |n| < (2 ^ 277 - 2 ^ 252) * d
  overflow : x.isFinite = false → x.isInf = true
  sign : n ≠ 0 → x.neg = decide (n < 0)
  nearest : x.isFinite = true → ∀ y : F32, y.isFinite = true → |x.fix * d - n| ≤ |y.fix * d - n|
  ties_even : x.isFinite = true → ∀ y : F32, y.isFinite = true → |x.fix * d - n| = |y.fix * d - n| →
    y.fix = x.fix ∨ x.mag % 2 = 0

/-- A RENDER of n frames is accepted (42_render.md R161). -/
abbrev State.Accepts (s : State) (n : Word) : Prop := 1 ≤ n.toNat ∧ n.toNat ≤ s.cfg.maxb

/-- The voice with accumulator acc[slot][k] replaced (10_state.md R40). -/
def Voice.withAcc (v : Voice) (slot : Fin 4) (k : Fin 8) (z : F32) : Voice :=
  { v with acc := v.acc.set slot (v.acc[slot].set k z) }

/-- The phases a voice can be in after frames of RENDER that started in phase p (41_voice.md R136). -/
def phasesAfter : Phase → List Phase
  | .idle => [.idle]
  | .attack => [.attack, .decay, .sustain]
  | .decay => [.decay, .sustain]
  | .sustain => [.sustain]
  | .release => [.release, .idle]

/-- One stage run over a whole block of frames, its state carried along (42_render.md R160). -/
def runStage {σ α β : Type} (f : σ → α → σ × β) : σ → List α → σ × List β
  | st, [] => (st, [])
  | st, x :: xs => ((runStage f (f st x).1 xs).1, (f st x).2 :: (runStage f (f st x).1 xs).2)

/-- A comb filter of length `len` run over a block of inputs (43_effects.md R222). -/
def combRun (gc : F32) (len : Nat) : List F32 → Line → Line
  | [], c => c
  | x :: xs, c => combRun gc len xs (combStep gc x len c).2

/-- An allpass filter of length `len` run over a block of inputs (43_effects.md R223). -/
def allpassRun (len : Nat) : List F32 → Line → Line
  | [], a => a
  | u :: us, a => allpassRun len us (allpassStep u len a).2

/-- Index a is none of the n slots of a circular buffer written from index w on (20_memory.md R73). -/
def outsideRing (w n size a : Nat) : Prop := ∀ j, j < n → a ≠ (w + j) % size

end Sys2Proof.Machine
end

