-- ==== Sys2Proof/Certificates/Slice0/Obligations.lean ====
section
/-! DEFINITION. The statements for the provers. Each docstring names the rules of spec/ it comes from. A statement
whose conclusion gives the next state as `s` with some fields replaced says with it that every other field, every
register and every element of every memory is as before. -/

open Sys2Proof Sys2Proof.Machine

/-! ### Encoding and decoding -/

/-- A word decodes to a command exactly when it is that command's encoding: no bit of an operand is dropped, and no
second word stands for a command (30_encoding.md R81 to R90). -/
def Obligations.DecodeIffEncode : Prop :=
  ∀ (w : Cmd) (i : Instr), decodeWord w = .ok i ↔ w = encode i

/-- A command sent as eight bytes, least significant first, or as two 32-bit words, W[31:0] first, is the command; with
fewer than eight bytes none has arrived (30_encoding.md R92, R93, 20_memory.md R63). -/
def Obligations.NarrowTransportsCarryTheWord : Prop :=
  (∀ (i : Instr) (rest : List (BitVec 8)), decodeBytes (bytesOfWord 8 (encode i) ++ rest) = .ok (i, rest))
    ∧ (∀ (i : Instr),
        decodeWord (wordOfHalves ((encode i).extractLsb' 0 32) ((encode i).extractLsb' 32 32)) = .ok i)
    ∧ (∀ (w : Cmd) (j : Nat), j < 8 → (bytesOfWord 8 w)[j]? = some (w.extractLsb' (8 * j) 8))
    ∧ ∀ bs : List (BitVec 8), bs.length < 8 → decodeBytes bs = .error .incomplete

/-- Every 64-bit word is exactly one of: a command with legal fields, an assigned opcode with a non-zero reserved
field, an unassigned opcode (30_encoding.md R91). -/
def Obligations.EveryWordIsClassified : Prop :=
  ∀ w : Cmd,
    (decodeWord w = .error .unassignedOpcode ↔ 6 ≤ (w.extractLsb' 56 8).toNat)
      ∧ (decodeWord w = .error .reservedField ↔ (w.extractLsb' 56 8).toNat ≤ 5 ∧ reservedNonzero w = true)
      ∧ ((∃ i, decodeWord w = .ok i) ↔ (w.extractLsb' 56 8).toNat ≤ 5 ∧ reservedNonzero w = false)

/-- The worked encodings of 30_encoding.md R97, one for every command: a sanity check on fixed words. -/
def Obligations.WorkedEncodingsDecode : Prop :=
  decodeWord 0x0100010141400000#64 = .ok (.setp 0x0101#16 0x41400000#32)
    ∧ decodeWord 0x0200FFFF428A0000#64 = .ok (.gateon 0#8 0xFFFF#16 0x428A0000#32)
    ∧ decodeWord 0x0303000000000000#64 = .ok (.gateoff 3#8)
    ∧ decodeWord 0x0400000000000004#64 = .ok (.render 4#32)
    ∧ decodeWord 0x050000000000003F#64 = .ok (.clrst 0x3F#32)
    ∧ decodeWord 0x0000000000000000#64 = .ok .nop

/-! ### The step -/

/-- When the next word on the port decodes to a command, the step runs that command on the state without the word and
counts it; a word placed by withFetchWord is that next word. The command port as a list is the model's choice (log
entry 3). -/
def Obligations.StepRunsTheDecodedCommand : Prop :=
  (∀ (s : State) (w : Cmd) (ws : List Cmd) (i : Instr), s.port = w :: ws → decodeWord w = .ok i →
      ∃ t, exec i { s with port := ws } = .next t ∧ step s = .next { t with cmdidx := t.cmdidx + 1 })
    ∧ ∀ (s : State) (i : Instr), ∃ t, exec i s = .next t
        ∧ step (s.withFetchWord 64 (encode i).toNat) = .next { t with cmdidx := t.cmdidx + 1 }

/-- `cmdidx` counts the commands consumed: every command, dropped or executed, advances it by exactly 1, modulo 2^64,
and nothing else changes it; it starts at 0 and no register shows it (10_state.md R21). That a step with an empty port
answers the same state is the model's form of an idle block (60_exceptions.md R272; log entry 3), and that the step, not
exec, counts the command is the model's choice (log entry 4). -/
def Obligations.CmdidxCountsEveryCommand : Prop :=
  (∀ (s s' : State) (w : Cmd) (ws : List Cmd), s.port = w :: ws → step s = .next s' →
      s'.cmdidx = s.cmdidx + 1 ∧ s'.port = ws)
    ∧ (∀ s : State, s.port = [] → step s = .next s)
    ∧ (∀ (s t : State) (i : Instr), exec i s = .next t → t.cmdidx = s.cmdidx ∧ t.port = s.port)
    ∧ (∀ (s : State) (w : Cmd), (s.issue w).cmdidx = s.cmdidx)
    ∧ State.reset.cmdidx = 0 ∧ (∀ s : State, s.hostReset.cmdidx = 0)
    ∧ ∀ (s : State) (c : BitVec 64) (id : RegId), readReg { s with cmdidx := c } id = readReg s id

/-- No command stops the block: every command on every state, and every step, gives a next state (60_exceptions.md
R260). -/
def Obligations.NoCommandStopsTheBlock : Prop :=
  (∀ (i : Instr) (s : State), ∃ t, exec i s = .next t) ∧ ∀ s : State, ∃ s', step s = .next s'

/-- The checks in their order: the first that fails sets its flag and drops the command, which then changes nothing
but that flag and the count; a command that passes every check sets no error flag (60_exceptions.md R261 to R263). -/
def Obligations.ChecksApplyInOrder : Prop :=
  ∀ (s : State) (w : Cmd) (ws : List Cmd), s.port = w :: ws →
    (6 ≤ (w.extractLsb' 56 8).toNat → step s = .next (s.dropped ws 0))
      ∧ (reservedNonzero w = true → step s = .next (s.dropped ws 1))
      ∧ (w.extractLsb' 56 8 = 2 → s.nv ≤ (w.extractLsb' 48 8).toNat → step s = .next (s.dropped ws 2))
      ∧ (w.extractLsb' 56 8 = 3 → reservedNonzero w = false → s.nv ≤ (w.extractLsb' 48 8).toNat →
          step s = .next (s.dropped ws 2))
      ∧ (w.extractLsb' 56 8 = 1 → reservedNonzero w = false → isParamId (w.extractLsb' 32 16).toNat = false →
          step s = .next (s.consumed ws s.status))
      ∧ (w.extractLsb' 56 8 = 1 → reservedNonzero w = false → isParamId (w.extractLsb' 32 16).toNat = true →
          (F32.mk (w.extractLsb' 0 32)).isNaN = true → step s = .next (s.dropped ws 4))
      ∧ (w.extractLsb' 56 8 = 2 → (w.extractLsb' 48 8).toNat < s.nv →
          (F32.mk (w.extractLsb' 0 32)).isNaN = true → step s = .next (s.dropped ws 4))
      ∧ (w.extractLsb' 56 8 = 4 → reservedNonzero w = false →
          ((w.extractLsb' 0 32).toNat = 0 ∨ s.cfg.maxb < (w.extractLsb' 0 32).toNat) →
          step s = .next (s.dropped ws 3))
      ∧ ((w.extractLsb' 56 8).toNat ≤ 5 → reservedNonzero w = false →
          ((w.extractLsb' 56 8 = 2 ∨ w.extractLsb' 56 8 = 3) → (w.extractLsb' 48 8).toNat < s.nv) →
          (w.extractLsb' 56 8 = 1 → isParamId (w.extractLsb' 32 16).toNat = true →
            (F32.mk (w.extractLsb' 0 32)).isNaN = false) →
          (w.extractLsb' 56 8 = 2 → (F32.mk (w.extractLsb' 0 32)).isNaN = false) →
          (w.extractLsb' 56 8 = 4 →
            1 ≤ (w.extractLsb' 0 32).toNat ∧ (w.extractLsb' 0 32).toNat ≤ s.cfg.maxb) →
          ∃ s', step s = .next s' ∧ s'.status &&& ~~~s.status &&& 0x1F#32 = 0)

/-- Flags are sticky and inert: a command runs alike whatever STATUS holds, adds the same flags, and only CLRST and
reset clear one (60_exceptions.md R264). -/
def Obligations.FlagsAreStickyAndInert : Prop :=
  (∀ (i : Instr) (s t : State) (st : Word), exec i s = .next t →
      ∃ u, exec i { s with status := st } = .next u ∧ u = { t with status := u.status })
    ∧ (∀ (i : Instr) (s t : State) (st : Word), exec i s = .next t → (∀ mask, i ≠ .clrst mask) →
        ∃ new : Word, t.status = s.status ||| new
          ∧ exec i { s with status := st } = .next { t with status := st ||| new })
    ∧ (∀ (s s' : State) (w : Cmd) (ws : List Cmd), s.port = w :: ws → w.extractLsb' 56 8 ≠ 5 →
        step s = .next s' → s.status &&& ~~~s'.status = 0)
    ∧ ∀ s : State, s.hostReset.status = 0

/-! ### NOP, SETP, CLRST -/

/-- The ids of the parameter registers are those of the address map (20_memory.md R74). -/
def Obligations.ParameterIdsAreTheMap : Prop :=
  ∀ id : Nat, (paramIndex? id).isSome = isParamId id

/-- The kind and the legal set of every parameter register (10_state.md R26 to R36); a bound is the binary32 nearest
its decimal. -/
def Obligations.LegalSetsAreTheTables : Prop :=
  let kindAt := fun id : Nat => (paramIndex? id).map (fun i => (paramRow i).kind)
  let cont := fun lo hi : Word => some (Kind.cont ⟨lo⟩ ⟨hi⟩)
  let unit := cont 0 0x3F800000#32
  (∀ slot : Fin 4, [0, 1, 2, 3, 4, 5, 6, 7].map (fun f => kindAt (0x0100 + 0x10 * slot.val + f))
      = [some (.enum ⟨0x40800000#32⟩), cont 0xC1C00000#32 0x41C00000#32, cont 0xBF800000#32 0x3F800000#32, unit,
        cont 0xBF800000#32 0x3F800000#32, unit, some (.int ⟨0x3F800000#32⟩ ⟨0x41000000#32⟩), unit])
    ∧ [0x0200, 0x0201, 0x0202, 0x0203].map kindAt
        = [cont 0 0x41200000#32, cont 0 0x41200000#32, unit, cont 0 0x41200000#32]
    ∧ [0x0300, 0x0301, 0x0302, 0x0303, 0x0310, 0x0311, 0x0312].map kindAt
        = [cont 0 0x40000000#32, cont 0 0x40000000#32, cont 0 0x40000000#32, cont 0 0x40000000#32,
          cont 0 0x40000000#32, cont 0xBF800000#32 0x3F800000#32, cont 0 0x40000000#32]
    ∧ [0x0320, 0x0330, 0x0340, 0x0350, 0x0400, 0x0500, 0x0600, 0x0700, 0x0900].map kindAt
        = List.replicate 9 (some .bool)
    ∧ [0x0321, 0x0322, 0x0323, 0x0341, 0x0351].map kindAt
        = [cont 0xC2700000#32 0, cont 0x3F800000#32 0x41A00000#32, cont 0 0x41C00000#32, cont 0xC1C00000#32 0,
          cont 0xC2200000#32 0]
    ∧ [0x0401, 0x0402, 0x0501, 0x0502, 0x0503, 0x0504, 0x0505].map kindAt
        = [cont 0 0x469C4000#32, unit, some (.enum ⟨0x40400000#32⟩), cont 0x41A00000#32 0x469C4000#32, unit,
          cont 0 0x40800000#32, some (.enum ⟨0x40400000#32⟩)]
    ∧ [0x0601, 0x0602, 0x0603, 0x0604].map kindAt
        = [cont 0x3D4CCCCD#32 0x40A00000#32, unit, cont 0xBF733333#32 0x3F733333#32, unit]
    ∧ [0x0701, 0x0702, 0x0703, 0x0704, 0x0705, 0x0901, 0x0902].map kindAt
        = [some (.enum ⟨0x3F800000#32⟩), cont 0x3A83126F#32 0x3FFEB852#32, cont 0 0x3F733333#32, unit,
          cont 0x41A00000#32 0x43960000#32, unit, unit]
    ∧ ∀ t : Fin 8, [0, 1, 2].map (fun f => kindAt (0x0800 + 0x10 * t.val + f))
        = [some .bool, cont 0 0x41000000#32, unit]

/-- NOP changes no register, memory or voice; the all-zero word is its only encoding, and any other word of its opcode
is dropped with ERR_RSVD (40_control.md R101, 30_encoding.md R88). -/
def Obligations.NopChangesNothing : Prop :=
  (∀ s : State, exec .nop s = .next s)
    ∧ ∀ (s : State) (w : Cmd) (ws : List Cmd), s.port = w :: ws → w.extractLsb' 56 8 = 0 →
        (w = 0 → step s = .next (s.consumed ws s.status)) ∧ (w ≠ 0 → step s = .next (s.dropped ws 1))

/-- SETP of a parameter register stores the value converted by the register's kind, and changes nothing else; a NaN of
either kind is dropped with ERR_NAN, and any id that is no parameter register is ignored (40_control.md R102 to R107).
-/
def Obligations.SetpStoresTheConvertedValue : Prop :=
  ∀ (s : State) (id : RegId) (v : Word),
    (isParamId id.toNat = false → exec (.setp id v) s = .next s)
      ∧ ∀ i, paramIndex? id.toNat = some i →
        ((F32.mk v).isNaN = true → exec (.setp id v) s = .next { s with status := s.status ||| 0x10#32 })
          ∧ ((F32.mk v).isNaN = false →
            ∃ x, exec (.setp id v) s = .next { s with regs := s.regs.set i x }
              ∧ match (paramRow i).kind with
                | .cont lo hi => (F32.lt ⟨v⟩ lo = true → x = lo) ∧ (F32.lt hi ⟨v⟩ = true → x = hi)
                    ∧ (F32.le lo ⟨v⟩ = true → F32.le ⟨v⟩ hi = true → x = ⟨v⟩)
                | .int lo hi => RoundsHalfUp (F32.clampf ⟨v⟩ lo hi) x
                | .enum maxcode => RoundsHalfUp (F32.clampf ⟨v⟩ F32.zero maxcode) x
                | .bool => (F32.le F32.half ⟨v⟩ = true → x = F32.one)
                    ∧ (F32.lt ⟨v⟩ F32.half = true → x = F32.zero))

/-- Round trip: a legal value written by SETP is read back bit for bit (40_control.md R110). -/
def Obligations.SetpRoundTrips : Prop :=
  ∀ (s : State) (id : RegId) (i : Fin nParams) (u : F32), paramIndex? id.toNat = some i →
    (match (paramRow i).kind with
      | .cont lo hi => F32.le lo u = true ∧ F32.le u hi = true
      | .int lo hi => F32.le lo u = true ∧ F32.le u hi = true ∧ ∃ n : Nat, u = F32.ofNat n
      | .enum maxcode => F32.le u maxcode = true ∧ ∃ n : Nat, u = F32.ofNat n
      | .bool => u = F32.zero ∨ u = F32.one) →
    ∃ t, exec (.setp id u.bits) s = .next t ∧ readReg t id = u.bits

/-- SETP writes exactly one register: after it every other register, STATUS among them unless the value is a NaN, every
OUTBUF word and every part of the internal state read as before (40_control.md R108). -/
def Obligations.SetpWritesOneRegister : Prop :=
  ∀ (s t : State) (id : RegId) (v : Word), exec (.setp id v) s = .next t →
    (∀ id' : RegId, id' ≠ id → id' ≠ 0xF000 → readReg t id' = readReg s id')
      ∧ (isParamId id.toNat = false ∨ (F32.mk v).isNaN = false → readReg t 0xF000 = readReg s 0xF000)
      ∧ (isParamId id.toNat = false → readReg t id = readReg s id)
      ∧ (∀ a, readOut t a = readOut s a)
      ∧ t = { s with regs := t.regs, status := t.status }

/-- CLRST clears the flags its mask names, sets none, and leaves everything else; mask bits above 5 have no effect, and
a CLRST word with a reserved field set clears nothing (40_control.md R109). -/
def Obligations.ClrstClearsTheNamedFlags : Prop :=
  (∀ (s : State) (mask : Word), ∃ t, exec (.clrst mask) s = .next t
      ∧ (∀ b : Nat, t.status.getLsbD b = (s.status.getLsbD b && !mask.getLsbD b && decide (b < 6)))
      ∧ t = { s with status := t.status })
    ∧ ∀ (s : State) (w : Cmd) (ws : List Cmd), s.port = w :: ws → w.extractLsb' 56 8 = 5 →
        reservedNonzero w = true → step s = .next (s.dropped ws 1)

/-! ### GATEON, GATEOFF -/

/-- GATEON of an existing slot with a note that is no NaN starts the note there, whatever the slot was doing, and leaves
everything else; otherwise it is dropped with ERR_VOICE, checked first, or ERR_NAN (41_voice.md R121). -/
def Obligations.GateonStartsTheNote : Prop :=
  ∀ (s : State) (v : BitVec 8) (vel : BitVec 16) (note : Word),
    (s.nv ≤ v.toNat → exec (.gateon v vel note) s = .next { s with status := s.status ||| 0x04#32 })
      ∧ (v.toNat < s.nv → (F32.mk note).isNaN = true →
          exec (.gateon v vel note) s = .next { s with status := s.status ||| 0x10#32 })
      ∧ (v.toNat < s.nv → (F32.mk note).isNaN = false →
          ∃ x : Voice, exec (.gateon v vel note) s = .next { s with voices := s.voices.set v.toNat x }
            ∧ x.phase = .attack ∧ x.time = F32.zero ∧ x.level = F32.zero ∧ x.relStart = F32.zero
            ∧ (∀ (slot : Fin 4) (k : Fin 8), x.acc[slot][k] = F32.zero)
            ∧ x.vel = F32.div (F32.ofNat vel.toNat) (F32.ofNat 65535)
            ∧ (F32.lt ⟨note⟩ F32.zero = true → x.note = F32.zero)
            ∧ (F32.lt ⟨0x42FE0000#32⟩ ⟨note⟩ = true → x.note = ⟨0x42FE0000#32⟩)
            ∧ (F32.le F32.zero ⟨note⟩ = true → F32.le ⟨note⟩ ⟨0x42FE0000#32⟩ = true → x.note = ⟨note⟩))

/-- GATEOFF moves a sounding slot to Release from its current level, in every sounding phase, and leaves an Idle slot
and everything else alone; a slot that does not exist drops the command with ERR_VOICE (41_voice.md R122). -/
def Obligations.GateoffReleases : Prop :=
  ∀ (s : State) (v : BitVec 8),
    (s.nv ≤ v.toNat → exec (.gateoff v) s = .next { s with status := s.status ||| 0x04#32 })
      ∧ ∀ x, s.voices[v.toNat]? = some x →
        (x.phase = .idle → exec (.gateoff v) s = .next s)
          ∧ (x.phase ≠ .idle → exec (.gateoff v) s = .next { s with
              voices := s.voices.set v.toNat { x with relStart := x.level, phase := .release, time := F32.zero } })

/-- The same GATEON issued twice leaves one sounding voice: the second changes nothing, and the slot counts once in
ACTIVE (41_voice.md R151, R152). -/
def Obligations.RetriggerKeepsOneVoice : Prop :=
  ∀ (s t : State) (v : BitVec 8) (vel : BitVec 16) (note : Word), v.toNat < s.nv → (F32.mk note).isNaN = false →
    exec (.gateon v vel note) s = .next t →
    exec (.gateon v vel note) t = .next t
      ∧ (∀ x, s.voices[v.toNat]? = some x →
          activeCount t = activeCount s + (if x.phase = .idle then 1 else 0))
      ∧ activeCount t ≤ t.nv

/-- The velocity operand is IMM16 / 65535, so it lies in [0, 1], 0 gives 0.0 and 0xFFFF gives exactly 1.0
(30_encoding.md R84). -/
def Obligations.VelocityLiesInUnitRange : Prop :=
  (∀ imm : BitVec 16, F32.le F32.zero (velOf imm) = true ∧ F32.le (velOf imm) F32.one = true)
    ∧ velOf 0#16 = F32.zero ∧ velOf 0xFFFF#16 = F32.one

/-! ### What the host reads -/

/-- The register read port: a parameter register's bits, a status register's value, and 0 for an unmapped id, with the
phase codes 0 to 4 (20_memory.md R69, 10_state.md R37 to R39, R41). -/
def Obligations.ReadPortAnswers : Prop :=
  ∀ (s : State) (id : RegId),
    (∀ i, paramIndex? id.toNat = some i → readReg s id = (s.regs[i]).bits)
      ∧ (id = 0xF000 → readReg s id = s.status)
      ∧ (id = 0xF001 →
          readReg s id = BitVec.ofNat 32 (s.voices.filter (fun x => decide (x.phase ≠ .idle))).length)
      ∧ (id = 0xF002 → readReg s id = s.peakDb.bits) ∧ (id = 0xF003 → readReg s id = s.rmsDb.bits)
      ∧ (id = 0xF004 → readReg s id = s.grDb.bits) ∧ (id = 0xF005 → readReg s id = s.ag.bits)
      ∧ (id = 0xF006 → readReg s id = s.frames.extractLsb' 0 32)
      ∧ (id = 0xF007 → readReg s id = s.frames.extractLsb' 32 32)
      ∧ (id = 0xF008 → readReg s id = BitVec.ofNat 32 s.nv)
      ∧ (id = 0xF009 → readReg s id = BitVec.ofNat 32 s.cfg.maxb)
      ∧ (id = 0xF00A → readReg s id = BitVec.ofNat 32 s.cfg.fs)
      ∧ (∀ (v : Nat) (x : Voice), v < 256 → s.voices[v]? = some x →
          (id.toNat = 0xF100 + v → readReg s id = match x.phase with
            | .idle => 0 | .attack => 1 | .decay => 2 | .sustain => 3 | .release => 4)
            ∧ (id.toNat = 0xF200 + v → readReg s id = x.level.bits)
            ∧ (id.toNat = 0xF300 + v → readReg s id = x.note.bits)
            ∧ (id.toNat = 0xF400 + v → readReg s id = x.vel.bits))
      ∧ (∀ v : Nat, s.nv ≤ v → v < 256 →
          (id.toNat = 0xF100 + v ∨ id.toNat = 0xF200 + v ∨ id.toNat = 0xF300 + v ∨ id.toNat = 0xF400 + v) →
          readReg s id = 0)
      ∧ (isParamId id.toNat = false → id.toNat < 0xF000 → readReg s id = 0)
      ∧ (0xF00B ≤ id.toNat → id.toNat < 0xF100 → readReg s id = 0)
      ∧ (0xF500 ≤ id.toNat → readReg s id = 0)

/-- OUTBUF reads: the word below 2·MAXB, 0 from there on; a byte bridge maps byte address 4a to word a and the model
refuses any other byte address by name; byte j of a word is its bits 8j+7 to 8j (20_memory.md R62 to R64). -/
def Obligations.OutbufReadsAndBridge : Prop :=
  (∀ (s : State) (a : Nat), (a < 2 * s.cfg.maxb → readOut s a = Memory.read s.outbuf a)
      ∧ (2 * s.cfg.maxb ≤ a → readOut s a = 0) ∧ bridgeRead s (4 * a) = .ok (readOut s a))
    ∧ (∀ (s : State) (b : Nat), b % 4 ≠ 0 → bridgeRead s b = .error (.misalignedBridgeAccess b))
    ∧ ∀ w : Word, byteOf w 3 ++ byteOf w 2 ++ byteOf w 1 ++ byteOf w 0 = w

/-! ### Reset -/

/-- The parameter registers after reset (70_reset_and_hazards.md R281, 10_state.md R26 to R36). -/
def Obligations.ResetParameters : Prop :=
  ∀ s : State,
    (∀ slot : Fin 4,
        [0, 1, 2, 3, 4, 5, 6, 7].map (fun f => readReg s.hostReset (BitVec.ofNat 16 (0x0100 + 0x10 * slot.val + f)))
          = [0, 0, 0, if slot = 0 then 0x3F800000#32 else 0, 0, 0x3F000000#32, 0x3F800000#32, 0])
      ∧ [0x0200, 0x0201, 0x0202, 0x0203].map (readReg s.hostReset)
          = [0x3C23D70A#32, 0x3DCCCCCD#32, 0x3F333333#32, 0x3E4CCCCD#32]
      ∧ [0x0300, 0x0301, 0x0302, 0x0303, 0x0310, 0x0311, 0x0312].map (readReg s.hostReset)
          = [0x3F800000#32, 0x3F800000#32, 0x3F800000#32, 0x3F800000#32, 0x3F800000#32, 0, 0x3F800000#32]
      ∧ [0x0320, 0x0330, 0x0340, 0x0350, 0x0400, 0x0500, 0x0600, 0x0700, 0x0900].map (readReg s.hostReset)
          = [0, 0, 0, 0, 0, 0, 0, 0, 0]
      ∧ [0x0321, 0x0322, 0x0323, 0x0341, 0x0351].map (readReg s.hostReset)
          = [0xC1400000#32, 0x40800000#32, 0, 0xC0C00000#32, 0xC1900000#32]
      ∧ [0x0401, 0x0402, 0x0501, 0x0502, 0x0503, 0x0504, 0x0505].map (readReg s.hostReset)
          = [0x43DC0000#32, 0x3F000000#32, 0, 0x447A0000#32, 0, 0x3F800000#32, 0]
      ∧ [0x0601, 0x0602, 0x0603, 0x0604].map (readReg s.hostReset)
          = [0x3E800000#32, 0x3F000000#32, 0, 0x3F000000#32]
      ∧ [0x0701, 0x0702, 0x0703, 0x0704, 0x0705, 0x0901, 0x0902].map (readReg s.hostReset)
          = [0, 0x3E800000#32, 0x3E99999A#32, 0x3E99999A#32, 0x42F00000#32, 0x3F000000#32, 0x3E99999A#32]
      ∧ [0, 1, 2, 3, 4, 5, 6, 7].map (fun t => readReg s.hostReset (BitVec.ofNat 16 (0x0801 + 0x10 * t)))
          = [0x3E800000#32, 0x3F000000#32, 0x3F400000#32, 0x3F800000#32, 0x3FA00000#32, 0x3FC00000#32, 0x3FE00000#32,
            0x40000000#32]
      ∧ ∀ t : Fin 8, readReg s.hostReset (BitVec.ofNat 16 (0x0800 + 0x10 * t.val)) = 0
          ∧ readReg s.hostReset (BitVec.ofNat 16 (0x0802 + 0x10 * t.val)) = 0x3F000000#32

/-- Internal state, status and bookkeeping after a reset, whatever the state before it; FS, MAXB and NV stay
(70_reset_and_hazards.md R280, R282, R283). -/
def Obligations.ResetInternalState : Prop :=
  ∀ s : State,
    (∀ (v : Nat) (x : Voice), s.hostReset.voices[v]? = some x →
        x.phase = .idle ∧ x.level = F32.zero ∧ x.time = F32.zero ∧ x.relStart = F32.zero ∧ x.note = F32.zero
          ∧ x.vel = F32.zero ∧ ∀ (slot : Fin 4) (k : Fin 8), x.acc[slot][k] = F32.zero)
      ∧ s.hostReset.nv = s.nv ∧ s.hostReset.cfg = s.cfg
      ∧ s.hostReset.ag = F32.one ∧ s.hostReset.ce = ⟨F32.zero, F32.zero⟩
      ∧ (∀ c, s.hostReset.dc.get c = ⟨F32.zero, F32.zero⟩)
      ∧ s.hostReset.peakDb = ⟨0xC2F00000#32⟩ ∧ s.hostReset.rmsDb = ⟨0xC2F00000#32⟩ ∧ s.hostReset.grDb = F32.zero
      ∧ s.hostReset.ringPh = F32.zero
      ∧ s.hostReset.filter.smCut = ⟨0x447A0000#32⟩ ∧ s.hostReset.filter.smRes = F32.zero
      ∧ s.hostReset.filter.smDrive = F32.one
      ∧ (∀ c, s.hostReset.filter.bq.get c = ⟨F32.zero, F32.zero, F32.zero, F32.zero⟩)
      ∧ (∀ c a, Memory.read (s.hostReset.flanger.flb.get c) a = 0) ∧ s.hostReset.flanger.w = 0
      ∧ s.hostReset.flanger.ph = F32.zero
      ∧ (∀ c a, Memory.read (s.hostReset.delay.dly.get c) a = 0) ∧ s.hostReset.delay.w = 0
      ∧ (∀ (c : Chan) (k : Fin 4) (a : Nat), Memory.read ((s.hostReset.reverb.get c).comb[k]).buf a = 0
          ∧ ((s.hostReset.reverb.get c).comb[k]).idx = 0)
      ∧ (∀ (c : Chan) (j : Fin 2) (a : Nat), Memory.read ((s.hostReset.reverb.get c).allpass[j]).buf a = 0
          ∧ ((s.hostReset.reverb.get c).allpass[j]).idx = 0)
      ∧ s.hostReset.status = 0 ∧ s.hostReset.frames = 0 ∧ s.hostReset.cmdidx = 0
      ∧ (∀ a, readOut s.hostReset a = 0) ∧ readReg s.hostReset 0xF002 = 0xC2F00000#32

/-- The invariant holds after reset: for State.reset, whose FS = 48000 is the model's choice (log entry 1), and for every
FS, MAXB and NV that R5 admits. -/
def Obligations.InvariantHoldsAfterReset : Prop :=
  State.reset.Inv ∧ ∀ (c : Cfg) (nv : Nat), c.Admissible → 1 ≤ nv → nv ≤ 64 → (State.resetWith c nv).Inv

/-! ### Invariants -/

/-- Every step keeps the invariant: admissible parameters, registers in their legal sets, memories canonical with every
index inside its buffer, reserved STATUS bits 0, OUTBUF words in [−1, 1], the auto-gain multiplier in its bounds, both
free-running phases in [0, 1), every voice's level, release level and velocity in [0, 1], its note in [0, 127] and its
time at least 0, and its accumulators in [0, 1) unless F_exp2 makes a frequency overflow, which R10 does not exclude
(10_state.md R23, R37, R40, R43, R44, R46, 20_memory.md R73, 42_render.md R164, R178). -/
def Obligations.StepKeepsTheInvariant : Prop :=
  ∀ s s' : State, s.Inv → step s = .next s' → s'.Inv

/-- Every parameter register stays in its legal set, never a NaN, whatever is written (10_state.md R23). -/
def Obligations.RegistersStayLegal : Prop :=
  (∀ s s' : State, s.RegsLegal → step s = .next s' → s'.RegsLegal)
    ∧ ∀ (s : State), s.RegsLegal → ∀ i : Fin nParams, (s.regs[i]).isNaN = false

/-- Every memory stays in canonical form and inside its size, and every circular index inside its buffer (20_memory.md
R73). -/
def Obligations.MemoriesStayCanonical : Prop :=
  ∀ s s' : State, s.MemoriesOk → step s = .next s' → s'.MemoriesOk

/-- FS, MAXB and NV are fixed for the block's lifetime: no command changes them, nor does a reset (00_scope.md R5,
70_reset_and_hazards.md R283). -/
def Obligations.ParametersOfTheBlockAreFixed : Prop :=
  (∀ s s' : State, step s = .next s' → s'.cfg = s.cfg ∧ s'.nv = s.nv)
    ∧ (∀ (i : Instr) (s t : State), exec i s = .next t → t.cfg = s.cfg ∧ t.nv = s.nv)
    ∧ ∀ s : State, s.hostReset.cfg = s.cfg ∧ s.hostReset.nv = s.nv

/-! ### RENDER: completion, frame, output -/

/-- RENDER of 1 to MAXB frames completes: it counts its frames modulo 2^64, writes no parameter register, changes no
note, velocity or release level, sets no flag but FLT_RESET, and that only with the filter enabled; any other n drops
it with ERR_LEN (42_render.md R161, R176, 10_state.md R51). -/
def Obligations.RenderCompletes : Prop :=
  ∀ (s : State) (n : Word),
    (¬ s.Accepts n → exec (.render n) s = .next { s with status := s.status ||| 0x08#32 })
      ∧ (s.Accepts n → ∃ t, exec (.render n) s = .next t
          ∧ t.frames = s.frames + BitVec.ofNat 64 n.toNat
          ∧ t.regs = s.regs ∧ t.cfg = s.cfg ∧ t.port = s.port ∧ t.cmdidx = s.cmdidx
          ∧ (t.status = s.status ∨ t.status = s.status ||| 0x20#32)
          ∧ (isOn s.regs Reg.filterEnable = false → t.status = s.status)
          ∧ t.nv = s.nv
          ∧ ∀ (v : Nat) (x : Voice), s.voices[v]? = some x → ∃ y, t.voices[v]? = some y
              ∧ y.note = x.note ∧ y.vel = x.vel ∧ y.relStart = x.relStart)

/-- The memory frame of RENDER: of OUTBUF only words 0 to 2n−1 are written, of the delay line only the n slots from dW
on, of the flanger, comb and allpass buffers only the n slots from their indexes on, and nothing of a flanger or reverb
that is disabled (20_memory.md R62, R70 to R73, 42_render.md R177). -/
def Obligations.RenderMemoryFrame : Prop :=
  ∀ (s t : State) (n : Word), s.MemoriesOk → exec (.render n) s = .next t →
    (∀ a, 2 * n.toNat ≤ a → Memory.read t.outbuf a = Memory.read s.outbuf a ∧ readOut t a = readOut s a)
      ∧ (∀ c a, outsideRing s.delay.w n.toNat (Config.dbuf s.cfg.fs) a →
          Memory.read (t.delay.dly.get c) a = Memory.read (s.delay.dly.get c) a)
      ∧ (∀ c a, (isOn s.regs Reg.flangerEnable = false
            ∨ outsideRing s.flanger.w n.toNat (Config.lf s.cfg.fs) a) →
          Memory.read (t.flanger.flb.get c) a = Memory.read (s.flanger.flb.get c) a)
      ∧ (∀ (c : Chan) (k : Fin 4) (a : Nat), (isOn s.regs Reg.reverbEnable = false
            ∨ outsideRing ((s.reverb.get c).comb[k]).idx n.toNat (Config.combLen s.cfg.fs c k) a) →
          Memory.read ((t.reverb.get c).comb[k]).buf a = Memory.read ((s.reverb.get c).comb[k]).buf a)
      ∧ ∀ (c : Chan) (j : Fin 2) (a : Nat), (isOn s.regs Reg.reverbEnable = false
            ∨ outsideRing ((s.reverb.get c).allpass[j]).idx n.toNat (Config.allpassLen s.cfg.fs c j) a) →
          Memory.read ((t.reverb.get c).allpass[j]).buf a = Memory.read ((s.reverb.get c).allpass[j]).buf a

/-- Every word RENDER writes to OUTBUF encodes a number in [−1, 1], never a NaN, whatever the parameters, draws and
configuration fields; so if OUTBUF held only such words, it still does (42_render.md R178). -/
def Obligations.RenderedWordsAreUnitNumbers : Prop :=
  (∀ (s t : State) (n : Word), Memory.wf s.outbuf = true → s.Accepts n → exec (.render n) s = .next t →
      ∀ a, a < 2 * n.toNat → F32.le F32.negOne ⟨readOut t a⟩ = true ∧ F32.le ⟨readOut t a⟩ F32.one = true
        ∧ (F32.mk (readOut t a)).isNaN = false)
    ∧ ∀ s s' : State, Memory.wf s.outbuf = true → s.OutOk → step s = .next s' → s'.OutOk

/-- OUTBUF after RENDER: word 2i is the left and word 2i+1 the right sample of the i-th frame the output chain makes of
the accumulated frames, run with the auto-gain multiplier of this block (20_memory.md R61, 42_render.md R160, R176). -/
def Obligations.OutbufHoldsTheFrames : Prop :=
  ∀ (s t : State) (n : Word), Memory.wf s.outbuf = true → s.Accepts n → exec (.render n) s = .next t →
    ∀ (i : Nat) (y : Stereo F32),
      (outputPass s.regs s.cfg.fs t.ag (accumulate s.regs s.cfg.fs n.toNat s.voices s.draws).frames s.chain).2[i]?
        = some y →
      readOut t (2 * i) = y.l.bits ∧ readOut t (2 * i + 1) = y.r.bits

/-- Every circular index advances by exactly 1 a processed frame, modulo its size: the delay's in every frame, the
flanger's and the reverb's only while their stage is enabled (20_memory.md R73, 43_effects.md R216, R217, R225). -/
def Obligations.CircularIndexesAdvance : Prop :=
  ∀ (s t : State) (n : Word), s.Accepts n → exec (.render n) s = .next t →
    t.delay.w = (s.delay.w + n.toNat) % Config.dbuf s.cfg.fs
      ∧ (isOn s.regs Reg.flangerEnable = true → t.flanger.w = (s.flanger.w + n.toNat) % Config.lf s.cfg.fs)
      ∧ (isOn s.regs Reg.flangerEnable = false → t.flanger.w = s.flanger.w)
      ∧ (isOn s.regs Reg.reverbEnable = true → ∀ (c : Chan) (k : Fin 4), ((t.reverb.get c).comb[k]).idx
          = (((s.reverb.get c).comb[k]).idx + n.toNat) % Config.combLen s.cfg.fs c k)
      ∧ (isOn s.regs Reg.reverbEnable = true → ∀ (c : Chan) (j : Fin 2), ((t.reverb.get c).allpass[j]).idx
          = (((s.reverb.get c).allpass[j]).idx + n.toNat) % Config.allpassLen s.cfg.fs c j)
      ∧ (isOn s.regs Reg.reverbEnable = false → t.reverb = s.reverb)

/-- A disabled stage passes every frame unchanged, bit for bit, and keeps its state; a disabled auto-gain sets its
multiplier to 1.0, a disabled delay still writes its input and advances, and with the compressor disabled the
gain-reduction readout is exactly +0.0 (42_render.md R177, R164, R171). -/
def Obligations.DisabledStagesAreFrozen : Prop :=
  (∀ (s t : State) (n : Word), s.Accepts n → exec (.render n) s = .next t →
      (isOn s.regs Reg.autogainEnable = false → t.ag = F32.one)
        ∧ (isOn s.regs Reg.compEnable = false → t.ce = s.ce ∧ t.grDb = F32.zero)
        ∧ (isOn s.regs Reg.dcEnable = false → t.dc = s.dc)
        ∧ (isOn s.regs Reg.ringEnable = false → t.ringPh = s.ringPh)
        ∧ (isOn s.regs Reg.filterEnable = false → t.filter = s.filter)
        ∧ (isOn s.regs Reg.flangerEnable = false → t.flanger = s.flanger)
        ∧ (isOn s.regs Reg.reverbEnable = false → t.reverb = s.reverb))
    ∧ ∀ (P : ParamFile) (fs : Nat) (x : Stereo F32),
      (isOn P Reg.compEnable = false → ∀ st, compressor P fs st x = (st, x))
        ∧ (isOn P Reg.dcEnable = false → ∀ st, dcBlock P st x = (st, x))
        ∧ (isOn P Reg.softclipEnable = false → softClip P x = x)
        ∧ (isOn P Reg.ringEnable = false → ∀ st, ringMod P fs st x = (st, x))
        ∧ (isOn P Reg.filterEnable = false → ∀ st, filter P fs st x = (st, x))
        ∧ (isOn P Reg.flangerEnable = false → ∀ st, flanger P fs st x = (st, x))
        ∧ (isOn P Reg.reverbEnable = false → ∀ st, reverb P fs st x = (st, x))
        ∧ (isOn P Reg.delayEnable = false → ∀ st : DelayState, (delay P fs st x).2 = x
            ∧ (delay P fs st x).1.w = (st.w + 1) % Config.dbuf fs
            ∧ ∀ c, (delay P fs st x).1.dly.get c = Memory.write (st.dly.get c) st.w (x.get c).bits)

/-- One frame through the mastering stage and the ring modulator, as RENDER 1 leaves it, each stage enabled or not: the
frame is scaled by master gain, auto-gain, pan and width; the enabled compressor moves its followers and scales by the
gain they give and the makeup; the enabled DC blocker keeps its input and output; the enabled soft clipper bends what
is above its threshold; the hard clamp; the enabled ring modulator multiplies by its carrier and advances its phase.
With the later stages disabled the result is what OUTBUF holds (42_render.md R165 to R174, 43_effects.md R201, R202). -/
def Obligations.MasteringAndRingOneFrame : Prop :=
  ∀ (s t : State) (x : Stereo F32), 1 ≤ s.cfg.maxb →
    (accumulate s.regs s.cfg.fs 1 s.voices s.draws).frames = [x] → exec (.render 1) s = .next t →
    let P := s.regs
    let FSf := F32.ofNat s.cfg.fs
    let fromDb := fun db : F32 => fPow ⟨0x41200000#32⟩ (F32.div db ⟨0x41A00000#32⟩)
    let angle := F32.mul (F32.add (par P Reg.masterPan) F32.one) ⟨0x3F490FDB#32⟩
    let coef := fun ms : F32 =>
      fExp (F32.div (F32.sub F32.zero F32.one) (F32.mul (F32.mul ms ⟨0x3A83126F#32⟩) FSf))
    let thr := fromDb (par P Reg.compThreshold)
    let gain := fun ce : F32 =>
      if F32.lt thr ce then fPow (F32.div ce thr) (F32.sub (F32.div F32.one (par P Reg.compRatio)) F32.one) else F32.one
    let T := fromDb (par P Reg.softclipThreshold)
    let bent := fun a : F32 =>
      let e := F32.div (F32.sub a T) (F32.sub F32.one T)
      F32.add T (F32.mul (F32.sub F32.one T) (F32.div e (F32.add F32.one e)))
    let car := fSin (F32.mul ⟨0x40C90FDB#32⟩ s.ringPh)
    let mix := par P Reg.ringMix
    ∃ (panned : Stereo F32) (wide comp dc clip lim ring : Chan → F32),
      panned = ⟨F32.mul (F32.mul (F32.mul x.l (par P Reg.masterGain)) t.ag) (fCos angle),
          F32.mul (F32.mul (F32.mul x.r (par P Reg.masterGain)) t.ag) (fSin angle)⟩
        ∧ (let mid := F32.mul (F32.add panned.l panned.r) F32.half
          let side := F32.mul (F32.mul (F32.sub panned.l panned.r) F32.half) (par P Reg.masterWidth)
          wide .L = F32.add mid side ∧ wide .R = F32.sub mid side)
        ∧ (isOn P Reg.compEnable = true → ∀ c,
          let k := if F32.lt (s.ce.get c) (F32.abs (wide c)) then coef ⟨0x41200000#32⟩ else coef ⟨0x42C80000#32⟩
          t.ce.get c = F32.add (F32.mul k (s.ce.get c)) (F32.mul (F32.sub F32.one k) (F32.abs (wide c)))
            ∧ comp c = F32.mul (F32.mul (wide c) (gain (t.ce.get c))) (fromDb (par P Reg.compMakeup)))
        ∧ (isOn P Reg.compEnable = true → t.grDb = F32.sub F32.zero (F32.mul ⟨0x41A00000#32⟩
          (fLog10 (F32.minf (F32.minf F32.one (gain t.ce.l)) (gain t.ce.r)))))
        ∧ (isOn P Reg.compEnable = false → comp = wide)
        ∧ (isOn P Reg.dcEnable = true → ∀ c,
          dc c = F32.add (F32.sub (comp c) (s.dc.get c).x1) (F32.mul ⟨0x3F7EB852#32⟩ (s.dc.get c).y1)
            ∧ t.dc.get c = ⟨comp c, dc c⟩)
        ∧ (isOn P Reg.dcEnable = false → dc = comp)
        ∧ (isOn P Reg.softclipEnable = true → ∀ c, clip c =
          if F32.lt T F32.one && F32.lt T (F32.abs (dc c)) then
            F32.copysign (if F32.abs (dc c) = ⟨0x7F800000#32⟩ then F32.one else bent (F32.abs (dc c))) (dc c)
          else dc c)
        ∧ (isOn P Reg.softclipEnable = false → clip = dc)
        ∧ (∀ c, lim c = if (clip c).isNaN then F32.zero else F32.clampf (clip c) F32.negOne F32.one)
        ∧ (isOn P Reg.ringEnable = true →
          t.ringPh = F32.frac (F32.add s.ringPh (F32.div (par P Reg.ringFreq) FSf))
            ∧ ∀ c, ring c = F32.add (F32.mul (lim c) (F32.sub F32.one mix)) (F32.mul (F32.mul (lim c) car) mix))
        ∧ (isOn P Reg.ringEnable = false → ring = lim)
        ∧ (Memory.wf s.outbuf = true → isOn P Reg.filterEnable = false → isOn P Reg.flangerEnable = false →
          isOn P Reg.delayEnable = false → isOn P Reg.reverbEnable = false →
          readOut t 0 = (finalClamp (ring .L)).bits ∧ readOut t 1 = (finalClamp (ring .R)).bits)

/-- Splitting a block: with auto-gain disabled, RENDER m then RENDER n leaves the state that RENDER m+n leaves, but for
the three readouts that describe the last block and for OUTBUF, and the two blocks' frames are those of the one block,
in order (70_reset_and_hazards.md R285, R286, 42_render.md R160). -/
def Obligations.RenderSplitsAtAnyFrame : Prop :=
  ∀ (s : State) (m n : Word), 1 ≤ m.toNat → 1 ≤ n.toNat → m.toNat + n.toNat ≤ s.cfg.maxb →
    m.toNat + n.toNat < 2 ^ 32 → Memory.wf s.outbuf = true → isOn s.regs Reg.autogainEnable = false →
    ∃ t u w, exec (.render m) s = .next t ∧ exec (.render n) t = .next u ∧ exec (.render (m + n)) s = .next w
      ∧ u = { w with outbuf := u.outbuf, peakDb := u.peakDb, rmsDb := u.rmsDb, grDb := u.grDb }
      ∧ (∀ a, a < 2 * m.toNat → readOut w a = readOut t a)
      ∧ ∀ a, a < 2 * n.toNat → readOut w (2 * m.toNat + a) = readOut u a

/-- Running each stage of the output pass over the whole block before the next stage gives the same state and the same
frames as running the chain frame by frame, bit for bit (42_render.md R160). -/
def Obligations.StagewiseEqualsFramewise : Prop :=
  ∀ (P : ParamFile) (fs : Nat) (ag : F32) (xs : List (Stereo F32)) (c : Chain),
    let m := runStage (master P fs ag) (c.comp, c.dc) xs
    let g := runStage (ringMod P fs) c.ringPh m.2
    let f := runStage (filter P fs) (c.filter, c.fltReset) g.2
    let l := runStage (flanger P fs) c.flanger f.2
    let d := runStage (delay P fs) c.delay l.2
    let v := runStage (reverb P fs) c.reverb d.2
    outputPass P fs ag xs c
      = ({ comp := m.1.1, dc := m.1.2, ringPh := g.1, filter := f.1.1, fltReset := f.1.2, flanger := l.1
           delay := d.1, reverb := v.1 }, v.2.map (fun y => ⟨finalClamp y.l, finalClamp y.r⟩))

/-! ### RENDER: voices -/

/-- One frame of the envelope, as RENDER 1 leaves it: the time advanced by DT, then the segment's level, or its end and
the next segment at time 0 in the same call (41_voice.md R137 to R142, R144). -/
def Obligations.EnvelopeAdvancesOneFrame : Prop :=
  ∀ (s : State) (v : Nat) (x : Voice), 1 ≤ s.cfg.maxb → s.voices[v]? = some x →
    ∃ t y, exec (.render 1) s = .next t ∧ t.voices[v]? = some y
      ∧ (let A := par s.regs Reg.envAttack
         let D := par s.regs Reg.envDecay
         let S := par s.regs Reg.envSustain
         let R := par s.regs Reg.envRelease
         let τ := F32.add x.time (F32.div F32.one (F32.ofNat s.cfg.fs))
         let decayed := fun now : F32 =>
           if F32.le D Consts.tSnap || F32.le D now then y.phase = .sustain ∧ y.time = F32.zero ∧ y.level = S
           else y.phase = .decay ∧ y.time = now
             ∧ y.level = F32.add F32.one (F32.mul (F32.sub S F32.one) (F32.div now D))
         match x.phase with
         | .idle => y = x
         | .attack =>
           if F32.le A Consts.tSnap || F32.le A τ then decayed F32.zero
           else y.phase = .attack ∧ y.time = τ ∧ y.level = F32.div τ A
         | .decay => decayed τ
         | .sustain => y.phase = .sustain ∧ y.level = S
         | .release =>
           if F32.le R Consts.tSnap || F32.le R τ then y.phase = .idle ∧ y.time = F32.zero ∧ y.level = F32.zero
           else y.phase = .release ∧ y.time = τ
             ∧ y.level = F32.mul x.relStart (F32.sub F32.one (F32.div τ R)))

/-- The phases a command can move a voice through: GATEON to Attack, GATEOFF of a sounding voice to Release, RENDER
forward through Attack, Decay, Sustain or from Release to Idle; nothing else changes a voice, and only GATEON wakes an
Idle one (41_voice.md R136). -/
def Obligations.EnvelopePhasesMoveForward : Prop :=
  ∀ (i : Instr) (s t : State) (v : Nat) (x y : Voice), exec i s = .next t → s.voices[v]? = some x →
    t.voices[v]? = some y →
    match i with
    | .gateon v' _ _ => if v'.toNat = v then y = x ∨ y.phase = .attack else y = x
    | .gateoff v' => if v'.toNat = v then (x.phase = .idle ∧ y = x) ∨ (x.phase ≠ .idle ∧ y.phase = .release) else y = x
    | .render _ => y.phase ∈ phasesAfter x.phase ∧ (x.phase = .idle → y = x)
    | .nop => y = x
    | .setp _ _ => y = x
    | .clrst _ => y = x

/-- A duration of at most T_SNAP ends its segment in the first frame: after any RENDER a voice has left a degenerate
Attack, is in Sustain at level S from a degenerate Decay, also when it entered that from a degenerate Attack, and is
Idle at level 0.0 from a degenerate Release (41_voice.md R143). -/
def Obligations.DegenerateDurationsSnap : Prop :=
  ∀ (s t : State) (n : Word) (v : Nat) (x y : Voice), s.Accepts n → exec (.render n) s = .next t →
    s.voices[v]? = some x → t.voices[v]? = some y →
    (F32.le (par s.regs Reg.envAttack) Consts.tSnap = true → x.phase = .attack → y.phase ≠ .attack)
      ∧ (F32.le (par s.regs Reg.envDecay) Consts.tSnap = true → x.phase = .decay →
          y.phase = .sustain ∧ y.level = par s.regs Reg.envSustain)
      ∧ (F32.le (par s.regs Reg.envAttack) Consts.tSnap = true → F32.le (par s.regs Reg.envDecay) Consts.tSnap = true →
          x.phase = .attack → y.phase = .sustain ∧ y.level = par s.regs Reg.envSustain)
      ∧ (F32.le (par s.regs Reg.envRelease) Consts.tSnap = true → x.phase = .release →
          y.phase = .idle ∧ y.level = F32.zero)

/-- An Idle voice is inert: RENDER leaves it as it is, and what it holds changes nothing else of what RENDER does, draws
and output included (41_voice.md R150, 42_render.md R162). -/
def Obligations.IdleVoiceIsInert : Prop :=
  ∀ (s t : State) (n : Word) (v : Nat) (x x' : Voice), s.voices[v]? = some x → x.phase = .idle → x'.phase = .idle →
    exec (.render n) s = .next t →
    t.voices[v]? = some x
      ∧ exec (.render n) { s with voices := s.voices.set v x' } = .next { t with voices := t.voices.set v x' }

/-- An accumulator of a unison voice that the slot does not use is neither read nor written by RENDER: it keeps its
value, and another value in its place changes nothing else (10_state.md R42). -/
def Obligations.UnusedUnisonVoicesAreInert : Prop :=
  ∀ (s t : State) (n : Word) (v : Nat) (x : Voice) (slot : Fin 4) (k : Fin 8) (z : F32), s.voices[v]? = some x →
    parNat s.regs (Reg.oscUnison slot) ≤ k.val → exec (.render n) s = .next t →
    ∃ y, t.voices[v]? = some y ∧ y.acc[slot][k] = x.acc[slot][k]
      ∧ exec (.render n) { s with voices := s.voices.set v (x.withAcc slot k z) }
        = .next { t with voices := t.voices.set v (y.withAcc slot k z) }

/-- The unison offsets UD[U][k] are the exact fractions of the table, each rounded once (41_voice.md R125). -/
def Obligations.UnisonOffsetsAreTheTable : Prop :=
  [1, 2, 3, 4, 5, 6, 7, 8].map (fun U => (List.range U).map (fun k => (unisonOffset U k).bits))
    = [[0], [0xBF800000#32, 0x3F800000#32], [0xBF800000#32, 0, 0x3F800000#32],
       [0xBF800000#32, 0xBEAAAAAB#32, 0x3EAAAAAB#32, 0x3F800000#32],
       [0xBF800000#32, 0xBF000000#32, 0, 0x3F000000#32, 0x3F800000#32],
       [0xBF800000#32, 0xBF19999A#32, 0xBE4CCCCD#32, 0x3E4CCCCD#32, 0x3F19999A#32, 0x3F800000#32],
       [0xBF800000#32, 0xBF2AAAAB#32, 0xBEAAAAAB#32, 0, 0x3EAAAAAB#32, 0x3F2AAAAB#32, 0x3F800000#32],
       [0xBF800000#32, 0xBF36DB6E#32, 0xBEDB6DB7#32, 0xBE124925#32, 0x3E124925#32, 0x3EDB6DB7#32, 0x3F36DB6E#32,
        0x3F800000#32]]

/-- The waveforms over the phases [0, 1): Saw is at least −1 and never reaches 1, Square is +1 below the pulse width and
−1 from it on, Triangle stays in [−1, 1], with the values R131 to R133 name; every waveform's value is in [−1, 1]
(41_voice.md R130 to R134). -/
def Obligations.WaveformShapes : Prop :=
  (∀ q : F32, inPhase q = true →
      (F32.le F32.negOne (waveSaw q) = true ∧ F32.lt (waveSaw q) F32.one = true)
        ∧ waveSquare q F32.zero = F32.negOne ∧ waveSquare q F32.one = F32.one
        ∧ ∀ (code draws : Nat) (pw : F32), F32.inUnit (wave code q pw draws).1 = true)
    ∧ (∀ q pw : F32, (F32.lt q pw = true → waveSquare q pw = F32.one)
        ∧ (F32.le pw q = true → waveSquare q pw = F32.negOne))
    ∧ [F32.zero, ⟨0x3E800000#32⟩, F32.half].map waveSaw = [F32.negOne, ⟨0xBF000000#32⟩, F32.zero]
    ∧ [F32.zero, ⟨0x3E800000#32⟩, F32.half, ⟨0x3F400000#32⟩].map waveTriangle
        = [F32.one, F32.zero, F32.negOne, F32.zero]
    ∧ waveSine F32.zero = F32.zero

/-- The slot's output is the mean of its unison samples, so it lies in [−1, 1] whatever the waveform, the draws and the
configuration fields, while the accumulators it reads lie in [0, 1) (41_voice.md R135). -/
def Obligations.OscillatorOutputInUnit : Prop :=
  ∀ (P : ParamFile) (fs : Nat) (slot : Fin 4) (note : F32) (acc : Vector F32 8) (draws : Nat),
    1 ≤ parNat P (Reg.oscUnison slot) → parNat P (Reg.oscUnison slot) ≤ 8 →
    (∀ k : Fin 8, k.val < parNat P (Reg.oscUnison slot) → inPhase acc[k] = true) →
    F32.inUnit (oscProcess P fs slot note acc draws).1 = true

/-! ### Stages -/

/-- HardClamp: a NaN gives +0.0, a number outside [−1, 1] the bound it passes, a number inside is unchanged, so the
result is always a number in [−1, 1]; it ends the mastering stage on every frame, and FinalClamp is the same function
(42_render.md R174, R175). -/
def Obligations.HardClampLimits : Prop :=
  (∀ (P : ParamFile) (fs : Nat) (ag : F32) (st : CompLoop × Stereo DcHist) (x : Stereo F32),
      F32.inUnit (master P fs ag st x).2.l = true ∧ F32.inUnit (master P fs ag st x).2.r = true)
    ∧ ∀ x : F32,
    (x.isNaN = true → hardClamp x = F32.zero)
      ∧ (F32.lt x F32.negOne = true → hardClamp x = F32.negOne)
      ∧ (F32.lt F32.one x = true → hardClamp x = F32.one)
      ∧ (F32.le F32.negOne x = true → F32.le x F32.one = true → hardClamp x = x)
      ∧ (F32.le F32.negOne (hardClamp x) = true ∧ F32.le (hardClamp x) F32.one = true)
      ∧ finalClamp x = hardClamp x

/-- Auto-gain: when enabled, the multiplier moves by a step of at most AG_STEP, then is bounded to [AG_MIN, AG_MAX]; a
silent block holds it; when disabled it is exactly 1.0 (42_render.md R164, R166). -/
def Obligations.AutoGainIsRateLimited : Prop :=
  ∀ (P : ParamFile) (lv : Levels) (ag : F32), F32.le Consts.agMin ag = true → F32.le ag Consts.agMax = true →
    (isOn P Reg.autogainEnable = false → autoGainUpdate P lv ag = F32.one)
      ∧ (isOn P Reg.autogainEnable = true → F32.lt Consts.agFloor lv.rms = false → F32.eq (autoGainUpdate P lv ag) ag = true)
      ∧ (isOn P Reg.autogainEnable = true → State.RegsLegal { State.reset with regs := P } →
          ∃ delta, F32.le (F32.negate Consts.agStep) delta = true ∧ F32.le delta Consts.agStep = true
            ∧ autoGainUpdate P lv ag = F32.clampf (F32.add ag delta) Consts.agMin Consts.agMax
            ∧ F32.le Consts.agMin (autoGainUpdate P lv ag) = true
            ∧ F32.le (autoGainUpdate P lv ag) Consts.agMax = true)

/-- The filter's guard: after every frame both channels' outputs and output histories are finite; a channel that went
non-finite has its whole history zeroed and outputs +0.0, the other channel and the smoothed values are as they are
without the guard, and the block's FLT_RESET condition is set exactly then (43_effects.md R213). -/
def Obligations.FilterGuardKeepsFinite : Prop :=
  ∀ (P : ParamFile) (fs : Nat) (st : FilterState × Bool) (x : Stereo F32), isOn P Reg.filterEnable = true →
    let f := filterSmooth P st.1
    let run := fun (b : Biquad) (x : F32) =>
      biquadSteps (filterCoefs P fs f) (preSaturate f.smDrive x) (filterOsf P) b F32.zero
    let out := fun (c : Chan) => F32.div (run (st.1.bq.get c) (x.get c)).2 (F32.ofNat (filterOsf P))
    let bad := fun (c : Chan) => !(out c).isFinite || !(run (st.1.bq.get c) (x.get c)).1.y1.isFinite
      || !(run (st.1.bq.get c) (x.get c)).1.y2.isFinite
    let o := filter P fs st x
    (∀ c, (o.2.get c).isFinite = true ∧ ((o.1.1.bq.get c).y1).isFinite = true
        ∧ ((o.1.1.bq.get c).y2).isFinite = true)
      ∧ (∀ c, bad c = true → o.1.1.bq.get c = ⟨F32.zero, F32.zero, F32.zero, F32.zero⟩ ∧ o.2.get c = F32.zero)
      ∧ (∀ c, bad c = false → o.1.1.bq.get c = (run (st.1.bq.get c) (x.get c)).1 ∧ o.2.get c = out c)
      ∧ o.1.2 = (st.2 || bad .L || bad .R)
      ∧ o.1.1 = { f with bq := o.1.1.bq }

/-- Parameter smoothing never overshoots: the smoothed value moves toward its target and stays between the two
(43_effects.md R203). -/
def Obligations.SmoothingNeverOvershoots : Prop :=
  ∀ v target : F32, v.isFinite = true → target.isFinite = true → (F32.sub target v).isFinite = true →
    (F32.le v target = true → F32.le v (smoothTo v target) = true ∧ F32.le (smoothTo v target) target = true)
      ∧ (F32.le target v = true → F32.le target (smoothTo v target) = true ∧ F32.le (smoothTo v target) v = true)

/-- The delay stage reads, then writes slot dW, then advances: Standard writes the input plus the fed-back tap,
Multi-tap and disabled write the dry input; only slot dW changes; the output is the dry/wet mix, or the input when
disabled (43_effects.md R217). -/
def Obligations.DelayReadsThenWrites : Prop :=
  ∀ (P : ParamFile) (fs : Nat) (st : DelayState) (x : Stereo F32) (c : Chan),
    Memory.wf (st.dly.get c) = true →
    let o := delay P fs st x
    let new := Memory.readF (o.1.dly.get c) st.w
    let tap := Memory.readF (st.dly.get c) (ringBack st.w (standardLen P fs) (Config.dbuf fs))
    let mix := par P Reg.delayMix
    let on := isOn P Reg.delayEnable
    let standard := F32.eq (par P Reg.delayMode) F32.zero
    (on = true → standard = true →
        new = F32.add (x.get c) (F32.mul (par P Reg.delayFeedback) tap)
          ∧ o.2.get c = F32.add (F32.mul (x.get c) (F32.sub F32.one mix)) (F32.mul tap mix))
      ∧ (on = true → standard = false →
          new = x.get c
            ∧ o.2.get c = F32.add (F32.mul (x.get c) (F32.sub F32.one mix))
                (F32.mul (multiTapWet P fs st.w (st.dly.get c)) mix))
      ∧ (on = false → new = x.get c ∧ o.2.get c = x.get c)
      ∧ (∀ a, a ≠ st.w → Memory.read (o.1.dly.get c) a = Memory.read (st.dly.get c) a)
      ∧ o.1.w = (st.w + 1) % Config.dbuf fs

/-- Every delay read uses a distance in [1, DBUF − 1] from dW, so it never reads the slot being written, and it is that
of the sample written so many frames earlier (43_effects.md R218, R220, R221). -/
def Obligations.DelayDistancesStayInside : Prop :=
  ∀ (P : ParamFile) (fs w : Nat), 1 ≤ fs → w < Config.dbuf fs →
    (1 ≤ standardLen P fs ∧ standardLen P fs ≤ Config.dbuf fs - 1)
      ∧ (∀ t, 1 ≤ tapLen P fs t ∧ tapLen P fs t ≤ Config.dbuf fs - 1)
      ∧ ∀ d : Nat, 1 ≤ d → d ≤ Config.dbuf fs - 1 →
          ringBack w d (Config.dbuf fs) < Config.dbuf fs ∧ ringBack w d (Config.dbuf fs) ≠ w
            ∧ (ringBack w d (Config.dbuf fs) + d) % Config.dbuf fs = w

/-- The flanger never reads the slot it writes: with legal registers and an admissible FS its delay has a whole part Di
with 8 ≤ Di and Di + 1 ≤ LF − 1, whatever F_sin is, so both slots it reads, Di and Di + 1 behind the write index, are
slots of the buffer other than that of the write index (43_effects.md R214, R215). -/
def Obligations.FlangerDistancesStayInside : Prop :=
  ∀ (s : State) (ph : F32), s.RegsLegal → s.cfg.Admissible → ph.isFinite = true → inPhase ph = true →
    let Di := F32.floorI (flangerDelay s.regs s.cfg.fs ph)
    let LF := Config.lf s.cfg.fs
    8 ≤ Di ∧ Di + 1 ≤ (LF : Int) - 1
      ∧ ∀ w : Nat, w < LF → ringBack w Di LF < LF ∧ ringBack w Di LF ≠ w
          ∧ ringBack w (Di + 1) LF < LF ∧ ringBack w (Di + 1) LF ≠ w

/-- Each comb and allpass filter delays by its full length: what a frame stores is what the filter reads `len` frames
later, whatever the frames between (43_effects.md R222, R223). -/
def Obligations.CombAndAllpassDelayByLength : Prop :=
  (∀ (gc x : F32) (len : Nat) (xs : List F32) (c : Line), Memory.wf c.buf = true → c.idx < len →
      xs.length + 1 = len →
      (combStep gc (F32.mk 0) len (combRun gc len (x :: xs) c)).1
        = F32.add x (F32.mul gc (Memory.readF c.buf c.idx)))
    ∧ ∀ (u : F32) (len : Nat) (us : List F32) (a : Line), Memory.wf a.buf = true → a.idx < len →
      us.length + 1 = len →
      Memory.readF (allpassRun len (u :: us) a).buf (allpassRun len (u :: us) a).idx
        = F32.add u (F32.mul Consts.revApG (Memory.readF a.buf a.idx))

/-! ### Whole blocks -/

/-- A RENDER straight after reset writes n frames of zeros, changes no voice and no register, sets no flag and advances
the delay index to n modulo DBUF. Every word is +0.0 unless F_cos or F_sin has the sign bit set at the angle of the
reset pan, QPI32, which R10 does not exclude; a negative pan gain makes −0.0 of +0.0 (70_reset_and_hazards.md R284). -/
def Obligations.SilentBlockAfterReset : Prop :=
  ∀ (c : Cfg) (nv : Nat) (n : Word), 1 ≤ n.toNat → n.toNat ≤ c.maxb →
    ∃ t, exec (.render n) (State.resetWith c nv) = .next t
      ∧ (∀ a, (F32.mk (readOut t a)).isZero = true)
      ∧ ((fCos ⟨0x3F490FDB#32⟩).neg = true ∨ (fSin ⟨0x3F490FDB#32⟩).neg = true ∨ ∀ a, readOut t a = 0)
      ∧ t.delay.w = n.toNat % Config.dbuf c.fs
      ∧ t.voices = (State.resetWith c nv).voices ∧ t.regs = (State.resetWith c nv).regs ∧ t.status = 0
      ∧ t.frames = BitVec.ofNat 64 n.toNat

/-- A block with no active voice meters as silence: both meters read 20·F_log10(METER_FLOOR), no voice changes and no
draw is taken (42_render.md R161 to R163, 41_voice.md R150). -/
def Obligations.SilentBlockMeters : Prop :=
  ∀ (s t : State) (n : Word), s.Accepts n → (∀ x ∈ s.voices, x.phase = .idle) → exec (.render n) s = .next t →
    t.peakDb = F32.mul ⟨0x41A00000#32⟩ (fLog10 ⟨0x358637BD#32⟩) ∧ t.rmsDb = t.peakDb
      ∧ t.voices = s.voices ∧ t.draws = s.draws

/-! ### Numbers -/

/-- The configuration fields have the named properties of 00_scope.md R10. The readings are the model's: a normal exact
power is one from 2^-126 to the greatest finite number (log entry 6), F_log10(1.0) is +0.0 (log entry 7, the model's
choice of the sign), and what R10 states at 0 is read at both zeros: F_sin and F_tanh are +0.0 at +0.0, and F_cos, F_exp2
and F_pow with a zero exponent are 1.0 at either zero (log entry 8). -/
def Obligations.ConfigurationFieldProperties : Prop :=
  (fSin F32.zero = F32.zero ∧ ∀ x : F32, x.isFinite = true → F32.inUnit (fSin x) = true)
    ∧ ((∀ x : F32, x.isZero = true → fCos x = F32.one) ∧ ∀ x : F32, x.isFinite = true → F32.inUnit (fCos x) = true)
    ∧ (fTanh F32.zero = F32.zero ∧ ∀ x : F32, F32.inUnit (fTanh x) = true)
    ∧ (∀ x : F32, x.isFinite = true → F32.lt x F32.zero = true →
        F32.lt F32.zero (fExp x) = true ∧ F32.lt (fExp x) F32.one = true)
    ∧ (∀ k : Int, -126 ≤ k → k ≤ 127 → fExp2 (F32.ofInt k) = ⟨BitVec.ofNat 32 ((k + 127).toNat * 2 ^ 23)⟩)
    ∧ (∀ x : F32, x.isZero = true → fExp2 x = F32.one)
    ∧ (∀ x : F32, x.isFinite = true → F32.le (F32.abs x) ⟨0x41000000#32⟩ = true → posFinite (fExp2 x) = true)
    ∧ (∀ x y : F32, posFinite x = true → y.isZero = true → fPow x y = F32.one)
    ∧ (∀ x y : F32, posFinite x = true → y.isFinite = true → powNormal x y → posFinite (fPow x y) = true)
    ∧ fLog10 F32.one = F32.zero
    ∧ (∀ x : F32, posFinite x = true → (fLog10 x).isFinite = true)
    ∧ ∀ x y : F32, F32.lt F32.zero x = true → F32.le x y = true → F32.le (fLog10 x) (fLog10 y) = true

/-- A noise draw is a number in [−1, 1], and every such value is admitted: the n-th draw is the free value itself unless
that lies outside [−1, 1] (00_scope.md R15, 41_voice.md R134). That draws are numbered by a counter, that the n-th one
comes from rawNoise n, and that a Noise sample advances the counter by 1 are the model's choice (log entry 10). -/
def Obligations.NoiseDrawIsFreeInUnit : Prop :=
  (∀ n : Nat, F32.inUnit (noiseDraw n) = true)
    ∧ (∀ n : Nat, noiseDraw n = Config.rawNoise n ∨ F32.inUnit (Config.rawNoise n) = false)
    ∧ ∀ (q pw : F32) (n : Nat), wave 4 q pw n = (noiseDraw n, n + 1)

/-- Addition, subtraction, multiplication and division of finite numbers, the divisor not zero, give the exact result
rounded once, to nearest, ties to even: finite whenever its magnitude lies below the midpoint that follows the greatest
finite number, an infinity of its sign from there on, never a NaN. The square root of a finite number that is not
negative is finite and rounded so too. `fix` is the exact value in units of 2^-149, in which the product of A and B is
A·B/2^149, the quotient A·2^149/B and the root of N is √(N·2^149) (00_scope.md R9, 60_exceptions.md R273). -/
def Obligations.ArithmeticRoundsToNearestEven : Prop :=
  ∀ a b : F32, a.isFinite = true → b.isFinite = true →
    RoundsTo (a.fix + b.fix) 1 (F32.add a b)
      ∧ RoundsTo (a.fix - b.fix) 1 (F32.sub a b)
      ∧ RoundsTo (a.fix * b.fix) (2 ^ 149) (F32.mul a b)
      ∧ (b.isZero = false → RoundsTo (a.fix * 2 ^ 149 * b.fix.sign) |b.fix| (F32.div a b))
      ∧ (F32.le F32.zero a = true → (F32.sqrt a).isFinite = true ∧ ∀ y : F32, y.isFinite = true →
          let r := √((a.fix : ℝ) * 2 ^ 149)
          |((F32.sqrt a).fix : ℝ) - r| ≤ |(y.fix : ℝ) - r|
            ∧ (|((F32.sqrt a).fix : ℝ) - r| = |(y.fix : ℝ) - r| →
                y.fix = (F32.sqrt a).fix ∨ (F32.sqrt a).mag % 2 = 0))

/-- frac of a finite p ≥ 0 is exact and lies in [0, 1); so an accumulator in [0, 1) advanced by a finite increment
f/FSf ≥ 0 lies in [0, 1) again, being the fraction of the rounded sum, and a sum of exactly 1.0 wraps to 0.0
(00_scope.md R14, 41_voice.md R127). -/
def Obligations.FracWrapsIntoUnit : Prop :=
  (∀ p : F32, p.isFinite = true → F32.le F32.zero p = true →
      (F32.frac p).fix = p.fix % 2 ^ 149 ∧ inPhase (F32.frac p) = true)
    ∧ F32.frac F32.one = F32.zero
    ∧ ∀ (fs : Nat) (acc f : F32), inPhase acc = true → (F32.div f (F32.ofNat fs)).isFinite = true →
        F32.le F32.zero (F32.div f (F32.ofNat fs)) = true →
        inPhase (advancePhase fs acc f) = true
          ∧ (advancePhase fs acc f).fix = (F32.add acc (F32.div f (F32.ofNat fs))).fix % 2 ^ 149
end

