-- ==== Sys2Proof/Laws/Float.lean ====
section
/-! SUPPORT. What the binary32 operations do, said once: the fields of a packed value, that rounding is exact on
representable values and monotone, that finite operands never give a NaN, the order laws of the comparisons and clamps,
and where in the numeric order the result of each operation stands, with the monotonicity that follows. -/

namespace Sys2Proof.F32

/-! ### Packing -/

theorem pack_toNat (s : Bool) {m : Nat} (h : m < 2147483648) :
    (pack s m).bits.toNat = if s then 2147483648 + m else m := by
  cases s <;> simp [pack] <;> omega

@[simp] theorem neg_pack (s : Bool) {m : Nat} (h : m < 2147483648) : (pack s m).neg = s := by
  cases s <;> simp [neg, pack_toNat _ h]; omega

@[simp] theorem mag_pack (s : Bool) {m : Nat} (h : m < 2147483648) : (pack s m).mag = m := by
  cases s <;> simp [mag, pack_toNat _ h] <;> omega

theorem mag_lt (x : F32) : x.mag < 2147483648 := Nat.mod_lt _ (by decide)

/-- A value is its sign and its magnitude pattern. -/
theorem pack_eta (x : F32) : pack x.neg x.mag = x := by
  obtain ⟨b⟩ := x
  have hb := b.isLt
  simp only [pack, neg, mag, F32.mk.injEq]
  apply BitVec.eq_of_toNat_eq
  by_cases h : 2147483648 ≤ b.toNat <;> simp [h] <;> omega

theorem ext_neg_mag {x y : F32} (hs : x.neg = y.neg) (hm : x.mag = y.mag) : x = y := by
  rw [← pack_eta x, ← pack_eta y, hs, hm]

/-! ### Rounding -/

theorem roundMag_le (n d : Nat) : roundMag n d ≤ infMag := Nat.min_le_right _ _

theorem roundMag_lt (n d : Nat) : roundMag n d < 2147483648 := lt_of_le_of_lt (roundMag_le n d) (by decide)

@[simp] theorem roundMag_zero (d : Nat) : roundMag 0 d = 0 := by
  simp [roundMag]

/-- A packed rounding result is never a NaN. -/
@[simp] theorem isNaN_pack_roundMag (s : Bool) (n d : Nat) : (pack s (roundMag n d)).isNaN = false := by
  simp [isNaN, mag_pack s (roundMag_lt n d), roundMag_le n d]

/-- Rounding is exact on a representable value: the pattern of a finite magnitude's exact value is that pattern. -/
theorem roundMag_fixMag {m : Nat} (h : m < infMag) : roundMag (fixMag m) 1 = m := by
  unfold fixMag
  split
  · rename_i hm
    have hk : Nat.log2 m - 23 = 0 := by
      have : Nat.log2 m < 23 ∨ m = 0 := by
        by_cases h0 : m = 0
        · exact .inr h0
        · exact .inl ((Nat.log2_lt h0).2 (by simpa using hm))
      rcases this with h1 | h1
      · omega
      · simp [h1]
    simp [roundMag, hk, Nat.mod_one]
    omega
  · rename_i hm
    have hE : 1 ≤ m / 8388608 := by omega
    have hlog : Nat.log2 ((8388608 + m % 8388608) * 2 ^ (m / 8388608 - 1)) - 23 = m / 8388608 - 1 := by
      have hpos : (8388608 + m % 8388608) * 2 ^ (m / 8388608 - 1) ≠ 0 := by positivity
      have h1 : Nat.log2 ((8388608 + m % 8388608) * 2 ^ (m / 8388608 - 1)) = 23 + (m / 8388608 - 1) := by
        rw [Nat.log2_eq_iff hpos]
        constructor
        · rw [pow_add]; exact Nat.mul_le_mul_right _ (by omega)
        · rw [show 23 + (m / 8388608 - 1) + 1 = 24 + (m / 8388608 - 1) by omega, pow_add]
          exact Nat.mul_lt_mul_of_pos_right (by omega) (by positivity)
      omega
    have hp : 0 < 2 ^ (m / 8388608 - 1) := by positivity
    simp only [roundMag, Nat.div_one, one_mul, hlog, Nat.mul_div_cancel _ hp, Nat.mul_mod_left]
    simp only [Nat.mul_zero, hp, if_true]
    have : (m / 8388608 - 1) * 8388608 + (8388608 + m % 8388608) = m := by
      have := Nat.div_add_mod m 8388608
      generalize m / 8388608 = e at *
      generalize m % 8388608 = f at *
      omega
    rw [this]
    exact Nat.min_eq_left h.le

/-- Round half to even of n/u: the inner step of `roundMag`. -/
theorem roundEven_mono {n₁ u₁ n₂ u₂ : Nat} (h₁ : 0 < u₁) (h₂ : 0 < u₂) (h : n₁ * u₂ ≤ n₂ * u₁) :
    (if 2 * (n₁ % u₁) < u₁ then n₁ / u₁ else if u₁ < 2 * (n₁ % u₁) then n₁ / u₁ + 1 else n₁ / u₁ + n₁ / u₁ % 2)
      ≤ (if 2 * (n₂ % u₂) < u₂ then n₂ / u₂ else if u₂ < 2 * (n₂ % u₂) then n₂ / u₂ + 1
          else n₂ / u₂ + n₂ / u₂ % 2) := by
  have hq : n₁ / u₁ ≤ n₂ / u₂ := by
    rw [Nat.le_div_iff_mul_le h₂]
    by_contra hc
    push Not at hc
    have a1 : n₁ / u₁ * u₁ ≤ n₁ := Nat.div_mul_le_self _ _
    have a2 : n₂ * u₁ < n₁ / u₁ * u₂ * u₁ := Nat.mul_lt_mul_of_pos_right hc h₁
    have a3 : n₁ / u₁ * u₁ * u₂ ≤ n₁ * u₂ := Nat.mul_le_mul_right _ a1
    nlinarith
  rcases Nat.lt_or_ge (n₁ / u₁) (n₂ / u₂) with hlt | hge
  · have := Nat.mod_lt (n₁ / u₁) (show 0 < 2 by decide)
    split_ifs <;> omega
  · have he : n₁ / u₁ = n₂ / u₂ := le_antisymm hq hge
    have e1 := Nat.div_add_mod n₁ u₁
    have e2 := Nat.div_add_mod n₂ u₂
    have hr : (n₁ % u₁) * u₂ ≤ (n₂ % u₂) * u₁ := by
      have b1 : (u₁ * (n₁ / u₁) + n₁ % u₁) * u₂ ≤ (u₂ * (n₂ / u₂) + n₂ % u₂) * u₁ := by rw [e1, e2]; exact h
      rw [he] at b1
      nlinarith
    rw [he]
    split_ifs with c1 c2 c3 c4 c5 c6
    all_goals first
      | omega
      | (exfalso; nlinarith)

/-- Rounding is monotone: a smaller non-negative rational never rounds to a larger pattern. -/
theorem roundMag_mono {n₁ d₁ n₂ d₂ : Nat} (h₁ : 0 < d₁) (h₂ : 0 < d₂) (h : n₁ * d₂ ≤ n₂ * d₁) :
    roundMag n₁ d₁ ≤ roundMag n₂ d₂ := by
  have hq : n₁ / d₁ ≤ n₂ / d₂ := by
    rw [Nat.le_div_iff_mul_le h₂]
    by_contra hc
    push Not at hc
    have a1 : n₁ / d₁ * d₁ ≤ n₁ := Nat.div_mul_le_self _ _
    have a2 : n₂ * d₁ < n₁ / d₁ * d₂ * d₁ := Nat.mul_lt_mul_of_pos_right hc h₁
    have a3 : n₁ / d₁ * d₁ * d₂ ≤ n₁ * d₂ := Nat.mul_le_mul_right _ a1
    nlinarith
  have hk : Nat.log2 (n₁ / d₁) - 23 ≤ Nat.log2 (n₂ / d₂) - 23 := by
    by_cases h0 : n₁ / d₁ = 0
    · simp [h0]
    · have : Nat.log2 (n₁ / d₁) ≤ Nat.log2 (n₂ / d₂) := by
        rw [Nat.log2_eq_log_two, Nat.log2_eq_log_two]
        exact Nat.log_mono_right hq
      omega
  unfold roundMag
  apply min_le_min_right
  generalize hk1 : Nat.log2 (n₁ / d₁) - 23 = k₁ at *
  generalize hk2 : Nat.log2 (n₂ / d₂) - 23 = k₂ at *
  have hu1 : 0 < d₁ * 2 ^ k₁ := by positivity
  have hu2 : 0 < d₂ * 2 ^ k₂ := by positivity
  rcases Nat.lt_or_ge k₁ k₂ with hlt | hge
  · -- the larger value is in a higher binade
    have m1 : n₁ / (d₁ * 2 ^ k₁) < 16777216 := by
      rw [← Nat.div_div_eq_div_mul, Nat.div_lt_iff_lt_mul (by positivity)]
      have : n₁ / d₁ < 2 ^ (Nat.log2 (n₁ / d₁) + 1) := Nat.lt_log2_self
      calc n₁ / d₁ < 2 ^ (Nat.log2 (n₁ / d₁) + 1) := this
        _ ≤ 2 ^ (24 + k₁) := Nat.pow_le_pow_right (by decide) (by omega)
        _ = 16777216 * 2 ^ k₁ := by rw [pow_add]; norm_num
    have m2 : 8388608 ≤ n₂ / (d₂ * 2 ^ k₂) := by
      rw [← Nat.div_div_eq_div_mul, Nat.le_div_iff_mul_le (by positivity)]
      have hne : n₂ / d₂ ≠ 0 := by
        intro h0; simp [h0] at hk2; omega
      calc 8388608 * 2 ^ k₂ = 2 ^ (23 + k₂) := by rw [pow_add]; norm_num
        _ ≤ 2 ^ (Nat.log2 (n₂ / d₂)) := Nat.pow_le_pow_right (by decide) (by omega)
        _ ≤ n₂ / d₂ := Nat.log2_self_le hne
    have := Nat.mod_lt (n₁ / (d₁ * 2 ^ k₁)) (show 0 < 2 by decide)
    split_ifs <;> omega
  · obtain rfl : k₁ = k₂ := le_antisymm hk hge
    have := roundEven_mono hu1 hu2 (n₁ := n₁) (n₂ := n₂) (by
      calc n₁ * (d₂ * 2 ^ k₁) = n₁ * d₂ * 2 ^ k₁ := by ring
        _ ≤ n₂ * d₁ * 2 ^ k₁ := Nat.mul_le_mul_right _ h
        _ = n₂ * (d₁ * 2 ^ k₁) := by ring)
    omega

/-- A value that is at most a representable one rounds to at most it. -/
theorem roundMag_le_of_le {n d m : Nat} (hd : 0 < d) (hm : m < infMag) (h : n ≤ fixMag m * d) : roundMag n d ≤ m := by
  have := roundMag_mono (n₁ := n) (d₁ := d) (n₂ := fixMag m) (d₂ := 1) hd (by decide) (by simpa using h)
  rwa [roundMag_fixMag hm] at this

/-- A value that is at least a representable one rounds to at least it. -/
theorem le_roundMag_of_le {n d m : Nat} (hd : 0 < d) (hm : m < infMag) (h : fixMag m * d ≤ n) : m ≤ roundMag n d := by
  have := roundMag_mono (n₁ := fixMag m) (d₁ := 1) (n₂ := n) (d₂ := d) (by decide) hd (by simpa using h)
  rwa [roundMag_fixMag hm] at this

/-! ### Finite operands -/

/-- The exact value of a larger magnitude pattern is larger. -/
theorem fixMag_lt {a b : Nat} (h : a < b) : fixMag a < fixMag b := by
  have ha := Nat.div_add_mod a 8388608
  have hb := Nat.div_add_mod b 8388608
  have ha2 := Nat.mod_lt a (show 0 < 8388608 by decide)
  have hb2 := Nat.mod_lt b (show 0 < 8388608 by decide)
  unfold fixMag
  split_ifs with h1 h2 h2
  · exact h
  · calc a < 8388608 + b % 8388608 := by omega
      _ ≤ (8388608 + b % 8388608) * 2 ^ (b / 8388608 - 1) := Nat.le_mul_of_pos_right _ (by positivity)
  · omega
  · rcases Nat.lt_or_ge (a / 8388608) (b / 8388608) with hl | hg
    · calc (8388608 + a % 8388608) * 2 ^ (a / 8388608 - 1)
          < 16777216 * 2 ^ (a / 8388608 - 1) := Nat.mul_lt_mul_of_pos_right (by omega) (by positivity)
        _ = 8388608 * 2 ^ (a / 8388608 - 1 + 1) := by rw [pow_succ]; ring
        _ ≤ 8388608 * 2 ^ (b / 8388608 - 1) :=
          Nat.mul_le_mul_left _ (Nat.pow_le_pow_right (by decide) (by omega))
        _ ≤ (8388608 + b % 8388608) * 2 ^ (b / 8388608 - 1) := Nat.mul_le_mul_right _ (by omega)
    · have he : a / 8388608 = b / 8388608 := by omega
      rw [he]
      exact Nat.mul_lt_mul_of_pos_right (by omega) (by positivity)

theorem fixMag_le_iff {a b : Nat} : fixMag a ≤ fixMag b ↔ a ≤ b := by
  constructor
  · intro h
    by_contra hc
    have := fixMag_lt (Nat.lt_of_not_le hc)
    omega
  · intro h
    rcases Nat.lt_or_eq_of_le h with h | rfl
    · exact (fixMag_lt h).le
    · exact le_rfl

@[simp] theorem fixMag_zero : fixMag 0 = 0 := by simp [fixMag]

theorem fixMag_eq_zero {m : Nat} : fixMag m = 0 ↔ m = 0 := by
  have := fixMag_le_iff (a := m) (b := 0)
  simp at this
  exact this

/-- The numeric order of two values is the order of their exact values. -/
theorem key_le_iff {a b : F32} : a.key ≤ b.key ↔ a.fix ≤ b.fix := by
  have h1 := fixMag_le_iff (a := a.mag) (b := b.mag)
  have h2 := fixMag_le_iff (a := b.mag) (b := a.mag)
  have h3 := fixMag_eq_zero (m := a.mag)
  have h4 := fixMag_eq_zero (m := b.mag)
  unfold key fix
  cases a.neg <;> cases b.neg <;> simp <;> omega

theorem not_isNaN_of_isFinite {x : F32} (h : x.isFinite = true) : x.isNaN = false := by
  simp only [isFinite, decide_eq_true_eq] at h
  simp only [isNaN, decide_eq_false_iff_not]
  omega

theorem isInf_eq_false {x : F32} (h : x.isFinite = true) : x.isInf = false := by
  simp only [isFinite, decide_eq_true_eq] at h
  simp only [isInf, decide_eq_false_iff_not]
  omega

@[simp] theorem isNaN_pack_zero (s : Bool) : (pack s 0).isNaN = false := by cases s <;> rfl

@[simp] theorem mag_negate (x : F32) : (negate x).mag = x.mag := by
  obtain ⟨b⟩ := x
  have hm : ∀ c : BitVec 32, c.toNat % 2147483648 = (c.extractLsb' 0 31).toNat := by
    intro c; simp [BitVec.extractLsb'_toNat]
  simp only [mag, negate, hm]
  congr 1
  ext i hi
  simp [BitVec.getElem_extractLsb']
  have : i < 31 := hi
  interval_cases i <;> simp

/-- A sum of finite numbers is no NaN. -/
theorem isNaN_add {a b : F32} (ha : a.isFinite = true) (hb : b.isFinite = true) : (add a b).isNaN = false := by
  simp only [add, not_isNaN_of_isFinite ha, not_isNaN_of_isFinite hb, isInf_eq_false ha, isInf_eq_false hb,
    Bool.or_self, Bool.false_eq_true, if_false]
  split <;> simp

/-- A product of finite numbers is no NaN. -/
theorem isNaN_mul {a b : F32} (ha : a.isFinite = true) (hb : b.isFinite = true) : (mul a b).isNaN = false := by
  simp [mul, not_isNaN_of_isFinite ha, not_isNaN_of_isFinite hb, isInf_eq_false ha, isInf_eq_false hb]

/-- A difference of finite numbers is the sum with the negated operand. -/
theorem sub_eq_add {a b : F32} (ha : a.isFinite = true) (hb : b.isFinite = true) : sub a b = add a (negate b) := by
  simp [sub, not_isNaN_of_isFinite ha, not_isNaN_of_isFinite hb, isInf_eq_false ha]

/-- A difference of finite numbers is no NaN. -/
theorem isNaN_sub {a b : F32} (ha : a.isFinite = true) (hb : b.isFinite = true) : (sub a b).isNaN = false := by
  have hb' : (negate b).isFinite = true := by simpa [isFinite] using hb
  rw [sub_eq_add ha hb]
  exact isNaN_add ha hb'

/-- With the exponent and quiet bits set, a pattern is above that of ∞. -/
theorem quiet_bits (c : BitVec 32) :
    2139095040 < ((c &&& 0x803FFFFF#32) ||| 0x7FC00000#32).toNat % 2147483648 := by
  have h : (((c &&& 0x803FFFFF#32) ||| 0x7FC00000#32).extractLsb' 22 9).toNat = 511 := by
    have : ((c &&& 0x803FFFFF#32) ||| 0x7FC00000#32).extractLsb' 22 9 = 0x1FF#9 := by
      ext i hi
      simp [BitVec.getElem_extractLsb']
      interval_cases i <;> simp
    rw [this]; rfl
  have h2 := ((c &&& 0x803FFFFF#32) ||| 0x7FC00000#32).isLt
  simp only [BitVec.extractLsb'_toNat, Nat.shiftRight_eq_div_pow] at h
  omega

/-- The quiet NaN an invalid operation gives is a NaN, whatever its free payload. -/
@[simp] theorem isNaN_quietNaN (op : Nat) (a b : F32) : (quietNaN op a b).isNaN = true := by
  simpa [isNaN, mag, quietNaN] using quiet_bits (Config.rawNaN op a b).bits

/-! ### The order -/

theorem lt_iff {a b : F32} : lt a b = true ↔ a.isNaN = false ∧ b.isNaN = false ∧ a.key < b.key := by
  simp [lt, and_assoc]

theorem le_iff {a b : F32} : le a b = true ↔ a.isNaN = false ∧ b.isNaN = false ∧ a.key ≤ b.key := by
  simp [le, and_assoc]

theorem le_of_not_lt {a b : F32} (ha : a.isNaN = false) (hb : b.isNaN = false) (h : lt a b = false) : le b a = true := by
  rw [le_iff]
  refine ⟨hb, ha, ?_⟩
  by_contra hc
  have : lt a b = true := lt_iff.2 ⟨ha, hb, by omega⟩
  simp [h] at this

theorem le_refl_of {a : F32} (ha : a.isNaN = false) : le a a = true := le_iff.2 ⟨ha, ha, Int.le_refl _⟩

theorem le_trans_of {a b c : F32} (h₁ : le a b = true) (h₂ : le b c = true) : le a c = true := by
  rw [le_iff] at *
  exact ⟨h₁.1, h₂.2.1, h₁.2.2.trans h₂.2.2⟩

/-- clampf of a number lies between the bounds. -/
theorem clampf_bounds {v lo hi : F32} (hv : v.isNaN = false) (h : le lo hi = true) :
    le lo (clampf v lo hi) = true ∧ le (clampf v lo hi) hi = true := by
  obtain ⟨hlo, hhi, _⟩ := le_iff.1 h
  unfold clampf
  split
  · exact ⟨le_refl_of hlo, h⟩
  · rename_i h1
    have h1 := le_of_not_lt hv hlo (by simpa using h1)
    split
    · exact ⟨h, le_refl_of hhi⟩
    · rename_i h2
      exact ⟨h1, le_of_not_lt hhi hv (by simpa using h2)⟩

/-- A value inside the bounds is left bit for bit. -/
theorem clampf_eq_self {v lo hi : F32} (h₁ : le lo v = true) (h₂ : le v hi = true) : clampf v lo hi = v := by
  have a : lt v lo = false := by
    cases h : lt v lo
    · rfl
    · rw [lt_iff] at h; rw [le_iff] at h₁; omega
  have b : lt hi v = false := by
    cases h : lt hi v
    · rfl
    · rw [lt_iff] at h; rw [le_iff] at h₂; omega
  simp [clampf, a, b]

/-! ### The position of a result -/

/-- The position in the numeric order of the signed rational z/d, in units of 2^-149, rounded to nearest, ties to
even. -/
def roundKey (z : Int) (d : Nat) : Int := if z < 0 then -(roundMag z.natAbs d : Int) else (roundMag z.natAbs d : Int)

theorem key_pack (s : Bool) {m : Nat} (h : m < 2147483648) :
    (pack s m).key = if s then -(m : Int) else (m : Int) := by
  simp [key, h]

/-- A rounded magnitude with the sign of z stands where z rounds to. -/
theorem key_pack_roundMag {s : Bool} {z : Int} (hs : if s then z ≤ 0 else 0 ≤ z) (d : Nat) :
    (pack s (roundMag z.natAbs d)).key = roundKey z d := by
  rw [key_pack _ (roundMag_lt _ _), roundKey]
  rcases lt_trichotomy z 0 with h | rfl | h
  · cases s
    · simp at hs; omega
    · simp [h]
  · simp
  · cases s
    · simp [Int.not_lt.2 h.le]
    · simp at hs; omega

/-- Rounding a signed rational is monotone. -/
theorem roundKey_mono {z₁ z₂ : Int} {d₁ d₂ : Nat} (h₁ : 0 < d₁) (h₂ : 0 < d₂) (h : z₁ * d₂ ≤ z₂ * d₁) :
    roundKey z₁ d₁ ≤ roundKey z₂ d₂ := by
  unfold roundKey
  have i₁ : (0 : Int) < d₁ := by exact_mod_cast h₁
  have i₂ : (0 : Int) < d₂ := by exact_mod_cast h₂
  split_ifs with a b b
  · have : roundMag z₂.natAbs d₂ ≤ roundMag z₁.natAbs d₁ := roundMag_mono h₂ h₁ (by
      zify
      rw [abs_of_neg a, abs_of_neg b]
      nlinarith)
    omega
  · omega
  · exfalso; nlinarith
  · have : roundMag z₁.natAbs d₁ ≤ roundMag z₂.natAbs d₂ := roundMag_mono h₁ h₂ (by
      zify
      rwa [abs_of_nonneg (by omega), abs_of_nonneg (by omega)])
    omega

theorem natAbs_fix (x : F32) : x.fix.natAbs = fixMag x.mag := by
  unfold fix; cases x.neg <;> simp

/-- Rounding is exact on a finite binary32. -/
theorem roundKey_fix {x : F32} (h : x.isFinite = true) : roundKey x.fix 1 = x.key := by
  have hm : x.mag < infMag := by simpa [isFinite] using h
  have h0 := fixMag_eq_zero (m := x.mag)
  unfold roundKey
  rw [natAbs_fix, roundMag_fixMag hm]
  unfold fix key
  cases x.neg <;> simp; omega

theorem neg_eq_msb (x : F32) : x.neg = x.bits.msb := by simp [neg, BitVec.msb_eq_decide]

@[simp] theorem neg_negate (x : F32) : (negate x).neg = !x.neg := by
  have : (2147483648#32).msb = true := by decide
  simp [neg_eq_msb, negate, this]

@[simp] theorem key_negate (x : F32) : (negate x).key = -x.key := by
  simp only [key, mag_negate, neg_negate]
  cases x.neg <;> simp

@[simp] theorem fix_negate (x : F32) : (negate x).fix = -x.fix := by
  simp only [fix, mag_negate, neg_negate]
  cases x.neg <;> simp

theorem isFinite_negate {x : F32} (h : x.isFinite = true) : (negate x).isFinite = true := by
  simpa [isFinite] using h

/-- A sum of finite numbers stands where its exact value rounds to. -/
theorem key_add {a b : F32} (ha : a.isFinite = true) (hb : b.isFinite = true) :
    (add a b).key = roundKey (a.fix + b.fix) 1 := by
  simp only [add, not_isNaN_of_isFinite ha, not_isNaN_of_isFinite hb, isInf_eq_false ha, isInf_eq_false hb,
    Bool.or_self, Bool.false_eq_true, if_false]
  split
  · rename_i h
    rw [h, key_pack _ (by decide)]
    simp [roundKey]
  · exact key_pack_roundMag (by split <;> rename_i h <;> simp at h <;> omega) _

/-- A difference of finite numbers stands where its exact value rounds to. -/
theorem key_sub {a b : F32} (ha : a.isFinite = true) (hb : b.isFinite = true) :
    (sub a b).key = roundKey (a.fix - b.fix) 1 := by
  rw [sub_eq_add ha hb, key_add ha (isFinite_negate hb), fix_negate, sub_eq_add_neg]

/-- The sign bit of a finite number is the sign of its exact value. -/
theorem fix_sign (x : F32) : if x.neg then x.fix ≤ 0 else 0 ≤ x.fix := by
  unfold fix; cases x.neg <;> simp

/-- A product of finite numbers stands where its exact value rounds to. -/
theorem key_mul {a b : F32} (ha : a.isFinite = true) (hb : b.isFinite = true) :
    (mul a b).key = roundKey (a.fix * b.fix) (2 ^ 149) := by
  simp only [mul, not_isNaN_of_isFinite ha, not_isNaN_of_isFinite hb, isInf_eq_false ha, isInf_eq_false hb,
    Bool.or_self, Bool.false_eq_true, if_false]
  rw [← natAbs_fix, ← natAbs_fix, ← Int.natAbs_mul]
  apply key_pack_roundMag
  have sa := fix_sign a
  have sb := fix_sign b
  cases hna : a.neg <;> cases hnb : b.neg <;> simp only [hna, hnb] at sa sb <;> simp at sa sb ⊢ <;> nlinarith

/-- A number with a positive exact value is no zero. -/
theorem isZero_of_pos {x : F32} (h : 0 < x.fix) : x.isZero = false := by
  simp only [isZero, decide_eq_false_iff_not]
  intro h0
  simp [fix, h0] at h

/-- A quotient of a finite number by a finite positive one stands where its exact value rounds to. -/
theorem key_div {a b : F32} (ha : a.isFinite = true) (hb : b.isFinite = true) (hp : 0 < b.fix) :
    (div a b).key = roundKey (a.fix * 2 ^ 149) b.fix.toNat := by
  have hz := isZero_of_pos hp
  have hn : b.neg = false := by
    have := fix_sign b
    cases h : b.neg
    · rfl
    · simp [h] at this; omega
  simp only [div, not_isNaN_of_isFinite ha, not_isNaN_of_isFinite hb, isInf_eq_false ha, isInf_eq_false hb, hz,
    Bool.or_self, Bool.false_eq_true, if_false]
  have h1 : fixMag a.mag * 2 ^ 149 = (a.fix * 2 ^ 149).natAbs := by rw [Int.natAbs_mul, natAbs_fix]; rfl
  have h2 : fixMag b.mag = b.fix.toNat := by rw [← natAbs_fix]; omega
  rw [h1, h2]
  apply key_pack_roundMag
  have sa := fix_sign a
  cases hna : a.neg <;> simp only [hna] at sa <;> simp [hn] at sa ⊢ <;> omega

/-- 0 ≤ x as numbers, for an x that is no NaN. -/
theorem fix_nonneg_of_le {x : F32} (h : le zero x = true) : 0 ≤ x.fix := by
  have := (le_iff.1 h).2.2
  rw [key_le_iff] at this
  exact this

/-- Bounds on two finite operands bound their sum, rounded. -/
theorem add_mono {a b a' b' : F32} (ha : a.isFinite = true) (hb : b.isFinite = true) (ha' : a'.isFinite = true)
    (hb' : b'.isFinite = true) (h₁ : le a a' = true) (h₂ : le b b' = true) : le (add a b) (add a' b') = true := by
  have k₁ := key_le_iff.1 (le_iff.1 h₁).2.2
  have k₂ := key_le_iff.1 (le_iff.1 h₂).2.2
  rw [le_iff, key_add ha hb, key_add ha' hb']
  exact ⟨isNaN_add ha hb, isNaN_add ha' hb', roundKey_mono (by decide) (by decide) (by push_cast; omega)⟩

/-- Bounds on two finite operands bound their difference, rounded. -/
theorem sub_mono {a b a' b' : F32} (ha : a.isFinite = true) (hb : b.isFinite = true) (ha' : a'.isFinite = true)
    (hb' : b'.isFinite = true) (h₁ : le a a' = true) (h₂ : le b' b = true) : le (sub a b) (sub a' b') = true := by
  have k₁ := key_le_iff.1 (le_iff.1 h₁).2.2
  have k₂ := key_le_iff.1 (le_iff.1 h₂).2.2
  rw [le_iff, key_sub ha hb, key_sub ha' hb']
  exact ⟨isNaN_sub ha hb, isNaN_sub ha' hb', roundKey_mono (by decide) (by decide) (by push_cast; omega)⟩

/-- Bounds on a finite operand bound its product with a finite number that is at least 0, rounded. -/
theorem mul_mono_left {a a' b : F32} (ha : a.isFinite = true) (ha' : a'.isFinite = true) (hb : b.isFinite = true)
    (h : le a a' = true) (h0 : le zero b = true) : le (mul a b) (mul a' b) = true := by
  have k := key_le_iff.1 (le_iff.1 h).2.2
  have k0 := fix_nonneg_of_le h0
  rw [le_iff, key_mul ha hb, key_mul ha' hb]
  exact ⟨isNaN_mul ha hb, isNaN_mul ha' hb, roundKey_mono (by positivity) (by positivity)
    (Int.mul_le_mul_of_nonneg_right (Int.mul_le_mul_of_nonneg_right k k0) (by positivity))⟩

/-- A quotient of finite numbers by a positive one is no NaN. -/
theorem isNaN_div {a b : F32} (ha : a.isFinite = true) (hb : b.isFinite = true) (hp : 0 < b.fix) :
    (div a b).isNaN = false := by
  have hz := isZero_of_pos hp
  simp [div, not_isNaN_of_isFinite ha, not_isNaN_of_isFinite hb, isInf_eq_false ha, isInf_eq_false hb, hz]

/-- Bounds on a finite dividend bound its quotient by a finite positive number, rounded. -/
theorem div_mono_left {a a' b : F32} (ha : a.isFinite = true) (ha' : a'.isFinite = true) (hb : b.isFinite = true)
    (h : le a a' = true) (hp : 0 < b.fix) : le (div a b) (div a' b) = true := by
  have k := key_le_iff.1 (le_iff.1 h).2.2
  rw [le_iff, key_div ha hb hp, key_div ha' hb hp]
  exact ⟨isNaN_div ha hb hp, isNaN_div ha' hb hp, roundKey_mono (by omega) (by omega)
    (Int.mul_le_mul_of_nonneg_right (Int.mul_le_mul_of_nonneg_right k (by positivity)) (by positivity))⟩

/-- A value between finite bounds is finite. -/
theorem isFinite_of_between {lo hi x : F32} (hl : lo.isFinite = true) (hh : hi.isFinite = true) (h₁ : le lo x = true)
    (h₂ : le x hi = true) : x.isFinite = true := by
  have k₁ := (le_iff.1 h₁).2.2
  have k₂ := (le_iff.1 h₂).2.2
  simp only [isFinite, decide_eq_true_eq] at *
  unfold key at k₁ k₂
  split_ifs at k₁ k₂ <;> omega

/-- The hard clamp gives a number in [−1, 1] whatever it is given (42_render.md R174). -/
theorem inUnit_hardClamp (x : F32) : inUnit (Machine.hardClamp x) = true := by
  unfold Machine.hardClamp
  cases h : x.isNaN
  · have := clampf_bounds (lo := negOne) (hi := one) h (by decide)
    simp [inUnit, this.1, this.2]
  · rfl

end Sys2Proof.F32
end

