-- ==== Sys2Proof/Laws/Memory.lean ====
section
/-! SUPPORT. The laws of the sparse memories: read after write, and that a write keeps the canonical form and stays
inside the memory's size. -/

namespace Sys2Proof.Machine

@[simp] theorem Memory.read_nil (a : Nat) : Memory.read [] a = 0 := rfl

/-- A write leaves every other element alone, whatever the memory. -/
theorem Memory.read_write_ne (m : Mem) {a b : Nat} (v : Word) (h : b ≠ a) :
    Memory.read (Memory.write m a v) b = Memory.read m b := by
  have h' : a ≠ b := fun e => h e.symm
  induction m with
  | nil => simp only [Memory.write]; split <;> simp [Memory.read, h']
  | cons e t ih =>
    obtain ⟨k, w⟩ := e
    simp only [Memory.write]
    split
    · simp only [Memory.read, ih]
    · split
      · rename_i hk; subst hk
        split <;> simp [Memory.read, h']
      · split <;> simp [Memory.read, h']

/-- The tail of a canonical memory is canonical. -/
theorem Memory.wf_tail {e : Nat × Word} {t : Mem} (h : Memory.wf (e :: t) = true) : Memory.wf t = true := by
  obtain ⟨k, w⟩ := e
  cases t with
  | nil => rfl
  | cons e2 t2 =>
    obtain ⟨k2, w2⟩ := e2
    simp only [Memory.wf, Bool.and_eq_true] at h
    exact h.2

/-- An element below the first listed one reads as zero in a canonical memory. -/
theorem Memory.read_below {m : Mem} (h : Memory.wf m = true) {a : Nat} (hb : ∀ e ∈ m.head?, a < e.1) :
    Memory.read m a = 0 := by
  induction m with
  | nil => rfl
  | cons e t ih =>
    obtain ⟨k, w⟩ := e
    have hk : a < k := hb (k, w) (by simp)
    have hne : k ≠ a := by omega
    simp only [Memory.read, hne, if_false]
    apply ih (Memory.wf_tail h)
    intro e he
    cases t with
    | nil => simp at he
    | cons e2 t2 =>
      obtain ⟨k2, w2⟩ := e2
      simp only [List.head?_cons, Option.mem_some_iff] at he
      subst he
      simp only [Memory.wf, Bool.and_eq_true, decide_eq_true_eq] at h
      exact hk.trans h.1.2

/-- A canonical memory reads back what was written. -/
theorem Memory.read_write_same {m : Mem} (h : Memory.wf m = true) (a : Nat) (v : Word) :
    Memory.read (Memory.write m a v) a = v := by
  induction m with
  | nil => simp only [Memory.write]; split <;> simp_all [Memory.read]
  | cons e t ih =>
    obtain ⟨k, w⟩ := e
    simp only [Memory.write]
    split
    · rename_i hk
      have : k ≠ a := by omega
      simp only [Memory.read, this, if_false]
      exact ih (Memory.wf_tail h)
    · split
      · rename_i hk; subst hk
        split
        · rename_i hv
          rw [hv]
          apply Memory.read_below (Memory.wf_tail h)
          intro e he
          cases t with
          | nil => simp at he
          | cons e2 t2 =>
            obtain ⟨k2, w2⟩ := e2
            simp only [List.head?_cons, Option.mem_some_iff] at he
            subst he
            simp only [Memory.wf, Bool.and_eq_true, decide_eq_true_eq] at h
            exact h.1.2
        · simp [Memory.read]
      · rename_i h1 h2
        split
        · rename_i hv
          rw [hv]
          apply Memory.read_below h
          simp only [List.head?_cons, Option.mem_some_iff]
          rintro e rfl
          show a < k
          omega
        · simp [Memory.read]

/-- Putting a larger-indexed memory behind a nonzero element is canonical. -/
theorem Memory.wf_cons {k : Nat} {w : Word} {t : Mem} (hw : w ≠ 0) (ht : Memory.wf t = true)
    (hk : ∀ e ∈ t.head?, k < e.1) : Memory.wf ((k, w) :: t) = true := by
  cases t with
  | nil => simpa [Memory.wf] using hw
  | cons e t2 =>
    obtain ⟨k2, w2⟩ := e
    have := hk (k2, w2) (by simp)
    simp only [Memory.wf, Bool.and_eq_true, decide_eq_true_eq]
    exact ⟨⟨hw, this⟩, ht⟩

theorem Memory.wf_head {k : Nat} {w : Word} {t : Mem} (h : Memory.wf ((k, w) :: t) = true) :
    w ≠ 0 ∧ ∀ e ∈ t.head?, k < e.1 := by
  cases t with
  | nil => simpa [Memory.wf] using h
  | cons e t2 =>
    obtain ⟨k2, w2⟩ := e
    simp only [Memory.wf, Bool.and_eq_true, decide_eq_true_eq] at h
    refine ⟨h.1.1, ?_⟩
    simp only [List.head?_cons, Option.mem_some_iff]
    rintro e rfl
    exact h.1.2

/-- The first index after a write is the old first index or the written one. -/
theorem Memory.head_write {m : Mem} {a b : Nat} {v : Word} (hb : ∀ e ∈ m.head?, b < e.1)
    (hw : Memory.wf m = true) (hab : b < a) : ∀ e ∈ (Memory.write m a v).head?, b < e.1 := by
  cases m with
  | nil => simp only [Memory.write]; split <;> simp [hab]
  | cons e t =>
    obtain ⟨k, w⟩ := e
    have hk : b < k := hb (k, w) (by simp)
    simp only [Memory.write]
    split
    · simp [hk]
    · split
      · split
        · intro e he
          exact hk.trans ((Memory.wf_head hw).2 e he)
        · simp [hab]
      · split <;> simp [hk, hab]

/-- A write keeps the canonical form. -/
theorem Memory.wf_write {m : Mem} (h : Memory.wf m = true) (a : Nat) (v : Word) :
    Memory.wf (Memory.write m a v) = true := by
  induction m with
  | nil =>
    simp only [Memory.write]
    split
    · rfl
    · rename_i hv; simpa [Memory.wf] using hv
  | cons e t ih =>
    obtain ⟨k, w⟩ := e
    have hh := Memory.wf_head h
    have ht := Memory.wf_tail h
    simp only [Memory.write]
    split
    · rename_i hk
      exact Memory.wf_cons hh.1 (ih ht) (Memory.head_write hh.2 ht hk)
    · split
      · rename_i hk; subst hk
        split
        · exact ht
        · rename_i hv; exact Memory.wf_cons hv ht hh.2
      · split
        · exact h
        · rename_i h1 h2 hv
          refine Memory.wf_cons hv h ?_
          simp only [List.head?_cons, Option.mem_some_iff]
          rintro e rfl
          show a < k
          omega

/-- What a write lists was listed before or is the written element. -/
theorem Memory.mem_write {m : Mem} {a : Nat} {v : Word} {e : Nat × Word} (h : e ∈ Memory.write m a v) :
    e = (a, v) ∨ e ∈ m := by
  induction m with
  | nil => simp only [Memory.write] at h; split at h <;> simp_all
  | cons x t ih =>
    obtain ⟨k, w⟩ := x
    simp only [Memory.write] at h
    split at h
    · rcases List.mem_cons.1 h with h | h
      · simp [h]
      · rcases ih h with h | h <;> simp [h]
    · split at h
      · split at h
        · simp [h]
        · rcases List.mem_cons.1 h with h | h <;> simp [h]
      · split at h
        · exact .inr h
        · rcases List.mem_cons.1 h with h | h
          · simp [h]
          · exact .inr h

/-- A write inside the size keeps a memory canonical and inside its size. -/
theorem Memory.within_write {size : Nat} {m : Mem} (h : Memory.within size m = true) {a : Nat} (ha : a < size)
    (v : Word) : Memory.within size (Memory.write m a v) = true := by
  simp only [Memory.within, Bool.and_eq_true, List.all_eq_true, decide_eq_true_eq] at *
  refine ⟨Memory.wf_write h.1 a v, ?_⟩
  intro e he
  rcases Memory.mem_write he with rfl | he
  · exact ha
  · exact h.2 e he

@[simp] theorem Memory.within_nil (size : Nat) : Memory.within size [] = true := rfl

/-- A circular index stays inside its buffer. -/
theorem ringNext_lt {size : Nat} (h : 0 < size) (i : Nat) : ringNext i size < size := Nat.mod_lt _ h

/-- A circular read stays inside its buffer, whatever the distance. -/
theorem ringBack_lt {size : Nat} (h : 0 < size) (i : Nat) (d : Int) : ringBack i d size < size := by
  have h1 := Int.emod_nonneg ((i : Int) - d) (b := (size : Int)) (by omega)
  have h2 := Int.emod_lt_of_pos ((i : Int) - d) (b := (size : Int)) (by omega)
  unfold ringBack
  omega

/-- Reset memory is canonical. -/
theorem reset_memories_wf : Memory.wf State.reset.outbuf = true ∧ State.reset.delay.dly = ⟨[], []⟩
    ∧ State.reset.flanger.flb = ⟨[], []⟩ := ⟨rfl, rfl, rfl⟩

end Sys2Proof.Machine
end

