-- ==== Sys2Proof/Laws/PerInstr.lean ====
section
/-! SUPPORT. The fields of a packed word, and the family EncodeLegal: every command's word has an assigned opcode and
its reserved fields zero (30_encoding.md R89). -/

namespace Sys2Proof

@[simp] theorem opc_packWord (o v : BitVec 8) (i : BitVec 16) (d : Word) : opc (packWord o v i d) = o := by
  apply BitVec.eq_of_getLsbD_eq
  intro k hk
  simp only [opc, packWord, BitVec.getLsbD_extractLsb', BitVec.getLsbD_append]
  simp [hk, show ¬ 56 + k < 32 by omega, show ¬ 56 + k - 32 < 16 by omega,
    show ¬ 56 + k - 32 - 16 < 8 by omega, show 56 + k - 32 - 16 - 8 = k by omega]

@[simp] theorem fieldV_packWord (o v : BitVec 8) (i : BitVec 16) (d : Word) : fieldV (packWord o v i d) = v := by
  apply BitVec.eq_of_getLsbD_eq
  intro k hk
  simp only [fieldV, packWord, BitVec.getLsbD_extractLsb', BitVec.getLsbD_append]
  simp [hk, show ¬ 48 + k < 32 by omega, show ¬ 48 + k - 32 < 16 by omega, show 48 + k - 32 - 16 = k by omega]

@[simp] theorem fieldImm_packWord (o v : BitVec 8) (i : BitVec 16) (d : Word) :
    fieldImm (packWord o v i d) = i := by
  apply BitVec.eq_of_getLsbD_eq
  intro k hk
  simp only [fieldImm, packWord, BitVec.getLsbD_extractLsb', BitVec.getLsbD_append]
  simp [hk]

@[simp] theorem fieldData_packWord (o v : BitVec 8) (i : BitVec 16) (d : Word) :
    fieldData (packWord o v i d) = d := by
  apply BitVec.eq_of_getLsbD_eq
  intro k hk
  simp only [fieldData, packWord, BitVec.getLsbD_extractLsb', BitVec.getLsbD_append]
  simp [hk]

/-- A word is its four fields. -/
theorem packWord_fields (w : Cmd) : packWord (opc w) (fieldV w) (fieldImm w) (fieldData w) = w := by
  apply BitVec.eq_of_getLsbD_eq
  intro k hk
  simp only [opc, fieldV, fieldImm, fieldData, packWord, BitVec.getLsbD_append, BitVec.getLsbD_extractLsb']
  by_cases h1 : k < 32
  · simp [h1]
  by_cases h2 : k < 48
  · simp [h1, show k - 32 < 16 by omega, show 32 + (k - 32) = k by omega]
  by_cases h3 : k < 56
  · simp [h1, show ¬ k - 32 < 16 by omega, show k - 32 - 16 < 8 by omega,
      show 48 + (k - 32 - 16) = k by omega]
  · simp [h1, show ¬ k - 32 < 16 by omega, show ¬ k - 32 - 16 < 8 by omega,
      show k - 32 - 16 - 8 < 8 by omega, show 56 + (k - 32 - 16 - 8) = k by omega]

namespace Laws.EncodeLegal

/-- The word of the command is a command with legal fields. -/
def Statement (i : Instr) : Prop := wordLegal (encode i) = true

theorem nop : Statement .nop := by
  simp [Statement, encode, wordLegal, opcodeAssigned, reservedZero]
theorem setp (id : RegId) (value : Word) : Statement (.setp id value) := by
  simp [Statement, encode, wordLegal, opcodeAssigned, reservedZero]
theorem gateon (v : BitVec 8) (vel : BitVec 16) (note : Word) : Statement (.gateon v vel note) := by
  simp [Statement, encode, wordLegal, opcodeAssigned, reservedZero]
theorem gateoff (v : BitVec 8) : Statement (.gateoff v) := by
  simp [Statement, encode, wordLegal, opcodeAssigned, reservedZero]
theorem render (n : Word) : Statement (.render n) := by
  simp [Statement, encode, wordLegal, opcodeAssigned, reservedZero]
theorem clrst (mask : Word) : Statement (.clrst mask) := by
  simp [Statement, encode, wordLegal, opcodeAssigned, reservedZero]

end Laws.EncodeLegal
end Sys2Proof
end

