-- ==== Sys2Proof/Laws/State.lean ====
section
/-! SUPPORT. One lemma per field per update of State, true by rfl: what each update writes and that it leaves every
other field. -/

namespace Sys2Proof.Machine

variable (s : State)

/-! Setting a flag changes STATUS only. -/

@[simp] theorem State.raise_cfg (f : Flag) : (s.raise f).cfg = s.cfg := rfl
@[simp] theorem State.raise_port (f : Flag) : (s.raise f).port = s.port := rfl
@[simp] theorem State.raise_cmdidx (f : Flag) : (s.raise f).cmdidx = s.cmdidx := rfl
@[simp] theorem State.raise_regs (f : Flag) : (s.raise f).regs = s.regs := rfl
@[simp] theorem State.raise_status (f : Flag) : (s.raise f).status = setFlag s.status f := rfl
@[simp] theorem State.raise_peakDb (f : Flag) : (s.raise f).peakDb = s.peakDb := rfl
@[simp] theorem State.raise_rmsDb (f : Flag) : (s.raise f).rmsDb = s.rmsDb := rfl
@[simp] theorem State.raise_grDb (f : Flag) : (s.raise f).grDb = s.grDb := rfl
@[simp] theorem State.raise_frames (f : Flag) : (s.raise f).frames = s.frames := rfl
@[simp] theorem State.raise_voices (f : Flag) : (s.raise f).voices = s.voices := rfl
@[simp] theorem State.raise_ag (f : Flag) : (s.raise f).ag = s.ag := rfl
@[simp] theorem State.raise_ce (f : Flag) : (s.raise f).ce = s.ce := rfl
@[simp] theorem State.raise_dc (f : Flag) : (s.raise f).dc = s.dc := rfl
@[simp] theorem State.raise_ringPh (f : Flag) : (s.raise f).ringPh = s.ringPh := rfl
@[simp] theorem State.raise_filter (f : Flag) : (s.raise f).filter = s.filter := rfl
@[simp] theorem State.raise_flanger (f : Flag) : (s.raise f).flanger = s.flanger := rfl
@[simp] theorem State.raise_delay (f : Flag) : (s.raise f).delay = s.delay := rfl
@[simp] theorem State.raise_reverb (f : Flag) : (s.raise f).reverb = s.reverb := rfl
@[simp] theorem State.raise_outbuf (f : Flag) : (s.raise f).outbuf = s.outbuf := rfl
@[simp] theorem State.raise_draws (f : Flag) : (s.raise f).draws = s.draws := rfl
@[simp] theorem State.raise_nv (f : Flag) : (s.raise f).nv = s.nv := rfl

/-! Clearing flags changes STATUS only. -/

@[simp] theorem State.clearStatus_cfg (m : Word) : (s.clearStatus m).cfg = s.cfg := rfl
@[simp] theorem State.clearStatus_port (m : Word) : (s.clearStatus m).port = s.port := rfl
@[simp] theorem State.clearStatus_cmdidx (m : Word) : (s.clearStatus m).cmdidx = s.cmdidx := rfl
@[simp] theorem State.clearStatus_regs (m : Word) : (s.clearStatus m).regs = s.regs := rfl
@[simp] theorem State.clearStatus_status (m : Word) : (s.clearStatus m).status = clearFlags s.status m := rfl
@[simp] theorem State.clearStatus_peakDb (m : Word) : (s.clearStatus m).peakDb = s.peakDb := rfl
@[simp] theorem State.clearStatus_rmsDb (m : Word) : (s.clearStatus m).rmsDb = s.rmsDb := rfl
@[simp] theorem State.clearStatus_grDb (m : Word) : (s.clearStatus m).grDb = s.grDb := rfl
@[simp] theorem State.clearStatus_frames (m : Word) : (s.clearStatus m).frames = s.frames := rfl
@[simp] theorem State.clearStatus_voices (m : Word) : (s.clearStatus m).voices = s.voices := rfl
@[simp] theorem State.clearStatus_ag (m : Word) : (s.clearStatus m).ag = s.ag := rfl
@[simp] theorem State.clearStatus_ce (m : Word) : (s.clearStatus m).ce = s.ce := rfl
@[simp] theorem State.clearStatus_dc (m : Word) : (s.clearStatus m).dc = s.dc := rfl
@[simp] theorem State.clearStatus_ringPh (m : Word) : (s.clearStatus m).ringPh = s.ringPh := rfl
@[simp] theorem State.clearStatus_filter (m : Word) : (s.clearStatus m).filter = s.filter := rfl
@[simp] theorem State.clearStatus_flanger (m : Word) : (s.clearStatus m).flanger = s.flanger := rfl
@[simp] theorem State.clearStatus_delay (m : Word) : (s.clearStatus m).delay = s.delay := rfl
@[simp] theorem State.clearStatus_reverb (m : Word) : (s.clearStatus m).reverb = s.reverb := rfl
@[simp] theorem State.clearStatus_outbuf (m : Word) : (s.clearStatus m).outbuf = s.outbuf := rfl
@[simp] theorem State.clearStatus_draws (m : Word) : (s.clearStatus m).draws = s.draws := rfl
@[simp] theorem State.clearStatus_nv (m : Word) : (s.clearStatus m).nv = s.nv := rfl

/-! Writing a parameter register changes the register file only. -/

@[simp] theorem State.writeParam_cfg (id : Nat) (v : F32) : (s.writeParam id v).cfg = s.cfg := rfl
@[simp] theorem State.writeParam_port (id : Nat) (v : F32) : (s.writeParam id v).port = s.port := rfl
@[simp] theorem State.writeParam_cmdidx (id : Nat) (v : F32) : (s.writeParam id v).cmdidx = s.cmdidx := rfl
@[simp] theorem State.writeParam_regs (id : Nat) (v : F32) : (s.writeParam id v).regs = setPar s.regs id v := rfl
@[simp] theorem State.writeParam_status (id : Nat) (v : F32) : (s.writeParam id v).status = s.status := rfl
@[simp] theorem State.writeParam_peakDb (id : Nat) (v : F32) : (s.writeParam id v).peakDb = s.peakDb := rfl
@[simp] theorem State.writeParam_rmsDb (id : Nat) (v : F32) : (s.writeParam id v).rmsDb = s.rmsDb := rfl
@[simp] theorem State.writeParam_grDb (id : Nat) (v : F32) : (s.writeParam id v).grDb = s.grDb := rfl
@[simp] theorem State.writeParam_frames (id : Nat) (v : F32) : (s.writeParam id v).frames = s.frames := rfl
@[simp] theorem State.writeParam_voices (id : Nat) (v : F32) : (s.writeParam id v).voices = s.voices := rfl
@[simp] theorem State.writeParam_ag (id : Nat) (v : F32) : (s.writeParam id v).ag = s.ag := rfl
@[simp] theorem State.writeParam_ce (id : Nat) (v : F32) : (s.writeParam id v).ce = s.ce := rfl
@[simp] theorem State.writeParam_dc (id : Nat) (v : F32) : (s.writeParam id v).dc = s.dc := rfl
@[simp] theorem State.writeParam_ringPh (id : Nat) (v : F32) : (s.writeParam id v).ringPh = s.ringPh := rfl
@[simp] theorem State.writeParam_filter (id : Nat) (v : F32) : (s.writeParam id v).filter = s.filter := rfl
@[simp] theorem State.writeParam_flanger (id : Nat) (v : F32) : (s.writeParam id v).flanger = s.flanger := rfl
@[simp] theorem State.writeParam_delay (id : Nat) (v : F32) : (s.writeParam id v).delay = s.delay := rfl
@[simp] theorem State.writeParam_reverb (id : Nat) (v : F32) : (s.writeParam id v).reverb = s.reverb := rfl
@[simp] theorem State.writeParam_outbuf (id : Nat) (v : F32) : (s.writeParam id v).outbuf = s.outbuf := rfl
@[simp] theorem State.writeParam_draws (id : Nat) (v : F32) : (s.writeParam id v).draws = s.draws := rfl
@[simp] theorem State.writeParam_nv (id : Nat) (v : F32) : (s.writeParam id v).nv = s.nv := rfl

/-! Replacing a voice slot changes the voices only. -/

@[simp] theorem State.setVoice_cfg (v : Nat) (x : Voice) : (s.setVoice v x).cfg = s.cfg := rfl
@[simp] theorem State.setVoice_port (v : Nat) (x : Voice) : (s.setVoice v x).port = s.port := rfl
@[simp] theorem State.setVoice_cmdidx (v : Nat) (x : Voice) : (s.setVoice v x).cmdidx = s.cmdidx := rfl
@[simp] theorem State.setVoice_regs (v : Nat) (x : Voice) : (s.setVoice v x).regs = s.regs := rfl
@[simp] theorem State.setVoice_status (v : Nat) (x : Voice) : (s.setVoice v x).status = s.status := rfl
@[simp] theorem State.setVoice_peakDb (v : Nat) (x : Voice) : (s.setVoice v x).peakDb = s.peakDb := rfl
@[simp] theorem State.setVoice_rmsDb (v : Nat) (x : Voice) : (s.setVoice v x).rmsDb = s.rmsDb := rfl
@[simp] theorem State.setVoice_grDb (v : Nat) (x : Voice) : (s.setVoice v x).grDb = s.grDb := rfl
@[simp] theorem State.setVoice_frames (v : Nat) (x : Voice) : (s.setVoice v x).frames = s.frames := rfl
@[simp] theorem State.setVoice_voices (v : Nat) (x : Voice) : (s.setVoice v x).voices = s.voices.set v x := rfl
@[simp] theorem State.setVoice_ag (v : Nat) (x : Voice) : (s.setVoice v x).ag = s.ag := rfl
@[simp] theorem State.setVoice_ce (v : Nat) (x : Voice) : (s.setVoice v x).ce = s.ce := rfl
@[simp] theorem State.setVoice_dc (v : Nat) (x : Voice) : (s.setVoice v x).dc = s.dc := rfl
@[simp] theorem State.setVoice_ringPh (v : Nat) (x : Voice) : (s.setVoice v x).ringPh = s.ringPh := rfl
@[simp] theorem State.setVoice_filter (v : Nat) (x : Voice) : (s.setVoice v x).filter = s.filter := rfl
@[simp] theorem State.setVoice_flanger (v : Nat) (x : Voice) : (s.setVoice v x).flanger = s.flanger := rfl
@[simp] theorem State.setVoice_delay (v : Nat) (x : Voice) : (s.setVoice v x).delay = s.delay := rfl
@[simp] theorem State.setVoice_reverb (v : Nat) (x : Voice) : (s.setVoice v x).reverb = s.reverb := rfl
@[simp] theorem State.setVoice_outbuf (v : Nat) (x : Voice) : (s.setVoice v x).outbuf = s.outbuf := rfl
@[simp] theorem State.setVoice_draws (v : Nat) (x : Voice) : (s.setVoice v x).draws = s.draws := rfl

/-! Replacing the command port changes nothing else. -/

@[simp] theorem State.setPort_cfg (ws : List Cmd) : (s.setPort ws).cfg = s.cfg := rfl
@[simp] theorem State.setPort_port (ws : List Cmd) : (s.setPort ws).port = ws := rfl
@[simp] theorem State.setPort_cmdidx (ws : List Cmd) : (s.setPort ws).cmdidx = s.cmdidx := rfl
@[simp] theorem State.setPort_regs (ws : List Cmd) : (s.setPort ws).regs = s.regs := rfl
@[simp] theorem State.setPort_status (ws : List Cmd) : (s.setPort ws).status = s.status := rfl
@[simp] theorem State.setPort_peakDb (ws : List Cmd) : (s.setPort ws).peakDb = s.peakDb := rfl
@[simp] theorem State.setPort_rmsDb (ws : List Cmd) : (s.setPort ws).rmsDb = s.rmsDb := rfl
@[simp] theorem State.setPort_grDb (ws : List Cmd) : (s.setPort ws).grDb = s.grDb := rfl
@[simp] theorem State.setPort_frames (ws : List Cmd) : (s.setPort ws).frames = s.frames := rfl
@[simp] theorem State.setPort_voices (ws : List Cmd) : (s.setPort ws).voices = s.voices := rfl
@[simp] theorem State.setPort_ag (ws : List Cmd) : (s.setPort ws).ag = s.ag := rfl
@[simp] theorem State.setPort_ce (ws : List Cmd) : (s.setPort ws).ce = s.ce := rfl
@[simp] theorem State.setPort_dc (ws : List Cmd) : (s.setPort ws).dc = s.dc := rfl
@[simp] theorem State.setPort_ringPh (ws : List Cmd) : (s.setPort ws).ringPh = s.ringPh := rfl
@[simp] theorem State.setPort_filter (ws : List Cmd) : (s.setPort ws).filter = s.filter := rfl
@[simp] theorem State.setPort_flanger (ws : List Cmd) : (s.setPort ws).flanger = s.flanger := rfl
@[simp] theorem State.setPort_delay (ws : List Cmd) : (s.setPort ws).delay = s.delay := rfl
@[simp] theorem State.setPort_reverb (ws : List Cmd) : (s.setPort ws).reverb = s.reverb := rfl
@[simp] theorem State.setPort_outbuf (ws : List Cmd) : (s.setPort ws).outbuf = s.outbuf := rfl
@[simp] theorem State.setPort_draws (ws : List Cmd) : (s.setPort ws).draws = s.draws := rfl
@[simp] theorem State.setPort_nv (ws : List Cmd) : (s.setPort ws).nv = s.nv := rfl

/-! Counting a command changes cmdidx only. -/

@[simp] theorem State.retire_cfg : (s.retire).cfg = s.cfg := rfl
@[simp] theorem State.retire_port : (s.retire).port = s.port := rfl
@[simp] theorem State.retire_cmdidx : (s.retire).cmdidx = s.cmdidx + 1 := rfl
@[simp] theorem State.retire_regs : (s.retire).regs = s.regs := rfl
@[simp] theorem State.retire_status : (s.retire).status = s.status := rfl
@[simp] theorem State.retire_peakDb : (s.retire).peakDb = s.peakDb := rfl
@[simp] theorem State.retire_rmsDb : (s.retire).rmsDb = s.rmsDb := rfl
@[simp] theorem State.retire_grDb : (s.retire).grDb = s.grDb := rfl
@[simp] theorem State.retire_frames : (s.retire).frames = s.frames := rfl
@[simp] theorem State.retire_voices : (s.retire).voices = s.voices := rfl
@[simp] theorem State.retire_ag : (s.retire).ag = s.ag := rfl
@[simp] theorem State.retire_ce : (s.retire).ce = s.ce := rfl
@[simp] theorem State.retire_dc : (s.retire).dc = s.dc := rfl
@[simp] theorem State.retire_ringPh : (s.retire).ringPh = s.ringPh := rfl
@[simp] theorem State.retire_filter : (s.retire).filter = s.filter := rfl
@[simp] theorem State.retire_flanger : (s.retire).flanger = s.flanger := rfl
@[simp] theorem State.retire_delay : (s.retire).delay = s.delay := rfl
@[simp] theorem State.retire_reverb : (s.retire).reverb = s.reverb := rfl
@[simp] theorem State.retire_outbuf : (s.retire).outbuf = s.outbuf := rfl
@[simp] theorem State.retire_draws : (s.retire).draws = s.draws := rfl
@[simp] theorem State.retire_nv : (s.retire).nv = s.nv := rfl

/-! The first two phases of RENDER: voices, draws, meters and auto-gain. -/

@[simp] theorem State.afterMeter_cfg (a : AccPass) (p r g : F32) : (s.afterMeter a p r g).cfg = s.cfg := rfl
@[simp] theorem State.afterMeter_port (a : AccPass) (p r g : F32) : (s.afterMeter a p r g).port = s.port := rfl
@[simp] theorem State.afterMeter_cmdidx (a : AccPass) (p r g : F32) : (s.afterMeter a p r g).cmdidx = s.cmdidx := rfl
@[simp] theorem State.afterMeter_regs (a : AccPass) (p r g : F32) : (s.afterMeter a p r g).regs = s.regs := rfl
@[simp] theorem State.afterMeter_status (a : AccPass) (p r g : F32) : (s.afterMeter a p r g).status = s.status := rfl
@[simp] theorem State.afterMeter_peakDb (a : AccPass) (p r g : F32) : (s.afterMeter a p r g).peakDb = p := rfl
@[simp] theorem State.afterMeter_rmsDb (a : AccPass) (p r g : F32) : (s.afterMeter a p r g).rmsDb = r := rfl
@[simp] theorem State.afterMeter_grDb (a : AccPass) (p r g : F32) : (s.afterMeter a p r g).grDb = s.grDb := rfl
@[simp] theorem State.afterMeter_frames (a : AccPass) (p r g : F32) : (s.afterMeter a p r g).frames = s.frames := rfl
@[simp] theorem State.afterMeter_voices (a : AccPass) (p r g : F32) : (s.afterMeter a p r g).voices = a.voices := rfl
@[simp] theorem State.afterMeter_ag (a : AccPass) (p r g : F32) : (s.afterMeter a p r g).ag = g := rfl
@[simp] theorem State.afterMeter_ce (a : AccPass) (p r g : F32) : (s.afterMeter a p r g).ce = s.ce := rfl
@[simp] theorem State.afterMeter_dc (a : AccPass) (p r g : F32) : (s.afterMeter a p r g).dc = s.dc := rfl
@[simp] theorem State.afterMeter_ringPh (a : AccPass) (p r g : F32) : (s.afterMeter a p r g).ringPh = s.ringPh := rfl
@[simp] theorem State.afterMeter_filter (a : AccPass) (p r g : F32) : (s.afterMeter a p r g).filter = s.filter := rfl
@[simp] theorem State.afterMeter_flanger (a : AccPass) (p r g : F32) :
    (s.afterMeter a p r g).flanger = s.flanger := rfl
@[simp] theorem State.afterMeter_delay (a : AccPass) (p r g : F32) : (s.afterMeter a p r g).delay = s.delay := rfl
@[simp] theorem State.afterMeter_reverb (a : AccPass) (p r g : F32) : (s.afterMeter a p r g).reverb = s.reverb := rfl
@[simp] theorem State.afterMeter_outbuf (a : AccPass) (p r g : F32) : (s.afterMeter a p r g).outbuf = s.outbuf := rfl
@[simp] theorem State.afterMeter_draws (a : AccPass) (p r g : F32) : (s.afterMeter a p r g).draws = a.draws := rfl

/-! The output pass of RENDER: the stages, OUTBUF, the guard's flag, the readout and the frame counter. -/

@[simp] theorem State.finishRender_cfg (c : Chain) (out : List (Stereo F32)) :
    (s.finishRender c out).cfg = s.cfg := rfl
@[simp] theorem State.finishRender_port (c : Chain) (out : List (Stereo F32)) :
    (s.finishRender c out).port = s.port := rfl
@[simp] theorem State.finishRender_cmdidx (c : Chain) (out : List (Stereo F32)) :
    (s.finishRender c out).cmdidx = s.cmdidx := rfl
@[simp] theorem State.finishRender_regs (c : Chain) (out : List (Stereo F32)) :
    (s.finishRender c out).regs = s.regs := rfl
@[simp] theorem State.finishRender_status (c : Chain) (out : List (Stereo F32)) :
    (s.finishRender c out).status = if c.fltReset then setFlag s.status .fltReset else s.status := rfl
@[simp] theorem State.finishRender_peakDb (c : Chain) (out : List (Stereo F32)) :
    (s.finishRender c out).peakDb = s.peakDb := rfl
@[simp] theorem State.finishRender_rmsDb (c : Chain) (out : List (Stereo F32)) :
    (s.finishRender c out).rmsDb = s.rmsDb := rfl
@[simp] theorem State.finishRender_grDb (c : Chain) (out : List (Stereo F32)) :
    (s.finishRender c out).grDb = gainReductionDb c.comp.grMin := rfl
@[simp] theorem State.finishRender_frames (c : Chain) (out : List (Stereo F32)) :
    (s.finishRender c out).frames = s.frames + BitVec.ofNat 64 out.length := rfl
@[simp] theorem State.finishRender_voices (c : Chain) (out : List (Stereo F32)) :
    (s.finishRender c out).voices = s.voices := rfl
@[simp] theorem State.finishRender_ag (c : Chain) (out : List (Stereo F32)) : (s.finishRender c out).ag = s.ag := rfl
@[simp] theorem State.finishRender_ce (c : Chain) (out : List (Stereo F32)) :
    (s.finishRender c out).ce = c.comp.ce := rfl
@[simp] theorem State.finishRender_dc (c : Chain) (out : List (Stereo F32)) : (s.finishRender c out).dc = c.dc := rfl
@[simp] theorem State.finishRender_ringPh (c : Chain) (out : List (Stereo F32)) :
    (s.finishRender c out).ringPh = c.ringPh := rfl
@[simp] theorem State.finishRender_filter (c : Chain) (out : List (Stereo F32)) :
    (s.finishRender c out).filter = c.filter := rfl
@[simp] theorem State.finishRender_flanger (c : Chain) (out : List (Stereo F32)) :
    (s.finishRender c out).flanger = c.flanger := rfl
@[simp] theorem State.finishRender_delay (c : Chain) (out : List (Stereo F32)) :
    (s.finishRender c out).delay = c.delay := rfl
@[simp] theorem State.finishRender_reverb (c : Chain) (out : List (Stereo F32)) :
    (s.finishRender c out).reverb = c.reverb := rfl
@[simp] theorem State.finishRender_outbuf (c : Chain) (out : List (Stereo F32)) :
    (s.finishRender c out).outbuf = writeFrames s.outbuf 0 out := rfl
@[simp] theorem State.finishRender_draws (c : Chain) (out : List (Stereo F32)) :
    (s.finishRender c out).draws = s.draws := rfl
@[simp] theorem State.finishRender_nv (c : Chain) (out : List (Stereo F32)) : (s.finishRender c out).nv = s.nv := rfl

@[simp] theorem State.setVoice_nv (v : Nat) (x : Voice) : (s.setVoice v x).nv = s.nv := by
  simp [State.nv, State.setVoice]

end Sys2Proof.Machine
end

