-- ==== Sys2Proof/Laws/Render.lean ====
section
/-! SUPPORT. What RENDER's passes do, said once: their lengths, the range of their frames, the words they write, and
that every stage keeps its buffers inside their sizes. -/

namespace Sys2Proof.Machine
open F32

/-! ### Accumulation pass -/

@[simp] theorem accFrame_length (P : ParamFile) (fs : Nat) (vs : List Voice) (sum : Stereo F32) (d : Nat) :
    (accFrame P fs vs sum d).voices.length = vs.length := by
  induction vs generalizing sum d with
  | nil => rfl
  | cons v vs ih => simp only [accFrame]; split <;> simp [ih]

@[simp] theorem accumulate_voices_length (P : ParamFile) (fs n : Nat) (vs : List Voice) (d : Nat) :
    (accumulate P fs n vs d).voices.length = vs.length := by
  induction n generalizing vs d with
  | zero => rfl
  | succ n ih => simp [accumulate, ih]

@[simp] theorem accumulate_frames_length (P : ParamFile) (fs n : Nat) (vs : List Voice) (d : Nat) :
    (accumulate P fs n vs d).frames.length = n := by
  induction n generalizing vs d with
  | zero => rfl
  | succ n ih => simp [accumulate, ih]

/-- A frame leaves an Idle slot as it was. -/
theorem accFrame_idle (P : ParamFile) (fs : Nat) {vs : List Voice} (sum : Stereo F32) (d k : Nat) {v : Voice}
    (hv : vs[k]? = some v) (hi : v.phase = .idle) : (accFrame P fs vs sum d).voices[k]? = some v := by
  induction vs generalizing sum d k with
  | nil => simp at hv
  | cons x xs ih =>
    cases k with
    | zero =>
      simp only [List.getElem?_cons_zero, Option.some.injEq] at hv
      subst hv
      simp [accFrame, hi]
    | succ k =>
      simp only [List.getElem?_cons_succ] at hv
      simp only [accFrame]
      split <;> simpa using ih _ _ k hv

/-- The accumulation pass leaves an Idle slot as it was. -/
theorem accumulate_idle (P : ParamFile) (fs n : Nat) {vs : List Voice} (d k : Nat) {v : Voice}
    (hv : vs[k]? = some v) (hi : v.phase = .idle) : (accumulate P fs n vs d).voices[k]? = some v := by
  induction n generalizing vs d with
  | zero => simpa [accumulate] using hv
  | succ n ih => simpa [accumulate] using ih _ (accFrame_idle P fs _ d k hv hi)

/-! ### Output pass -/

@[simp] theorem outputPass_length (P : ParamFile) (fs : Nat) (ag : F32) (xs : List (Stereo F32)) (c : Chain) :
    (outputPass P fs ag xs c).2.length = xs.length := by
  induction xs generalizing c with
  | nil => rfl
  | cons x xs ih => simp [outputPass, ih]

/-- The chain after two runs of frames is the chain after the second from the chain after the first. -/
theorem outputPass_append (P : ParamFile) (fs : Nat) (ag : F32) (xs ys : List (Stereo F32)) (c : Chain) :
    outputPass P fs ag (xs ++ ys) c
      = ((outputPass P fs ag ys (outputPass P fs ag xs c).1).1,
         (outputPass P fs ag xs c).2 ++ (outputPass P fs ag ys (outputPass P fs ag xs c).1).2) := by
  induction xs generalizing c with
  | nil => simp [outputPass]
  | cons x xs ih => simp [outputPass, ih]

/-- A frame's output samples are numbers in [−1, 1], by the final clamp. -/
theorem outputFrame_inUnit (P : ParamFile) (fs : Nat) (ag : F32) (c : Chain) (x : Stereo F32) :
    inUnit (outputFrame P fs ag c x).2.l = true ∧ inUnit (outputFrame P fs ag c x).2.r = true := by
  simp only [outputFrame, finalClamp, inUnit_hardClamp, and_self]

/-- Every output sample is a number in [−1, 1] (42_render.md R175). -/
theorem outputPass_inUnit (P : ParamFile) (fs : Nat) (ag : F32) (xs : List (Stereo F32)) (c : Chain) :
    ∀ y ∈ (outputPass P fs ag xs c).2, inUnit y.l = true ∧ inUnit y.r = true := by
  induction xs generalizing c with
  | nil => simp [outputPass]
  | cons x xs ih =>
    intro y hy
    simp only [outputPass, List.mem_cons] at hy
    rcases hy with rfl | hy
    · exact outputFrame_inUnit P fs ag c x
    · exact ih _ y hy

/-! ### Writing OUTBUF -/

/-- The words below and above the written frames are left alone. -/
theorem read_writeFrames_outside (m : Mem) (i : Nat) (xs : List (Stereo F32)) (a : Nat)
    (h : a < 2 * i ∨ 2 * (i + xs.length) ≤ a) : Memory.read (writeFrames m i xs) a = Memory.read m a := by
  induction xs generalizing m i with
  | nil => rfl
  | cons x xs ih =>
    simp only [List.length_cons] at h
    simp only [writeFrames, Memory.writeF]
    rw [ih _ _ (by omega), Memory.read_write_ne _ _ (by omega), Memory.read_write_ne _ _ (by omega)]

/-- Writing frames keeps OUTBUF canonical and inside its size. -/
theorem within_writeFrames {size : Nat} {m : Mem} (h : Memory.within size m = true) (i : Nat)
    (xs : List (Stereo F32)) (hs : 2 * (i + xs.length) ≤ size) : Memory.within size (writeFrames m i xs) = true := by
  induction xs generalizing m i with
  | nil => exact h
  | cons x xs ih =>
    simp only [List.length_cons] at hs
    exact ih (Memory.within_write (Memory.within_write h (by omega) _) (by omega) _) _ (by omega)

/-! ### Stages keep their buffers -/

theorem delay_within {P : ParamFile} {fs : Nat} {st : DelayState} (x : Stereo F32)
    (hm : ∀ c, Memory.within (Config.dbuf fs) (st.dly.get c) = true) (hw : st.w < Config.dbuf fs) :
    (∀ c, Memory.within (Config.dbuf fs) ((delay P fs st x).1.dly.get c) = true)
      ∧ (delay P fs st x).1.w < Config.dbuf fs := by
  have hone : ∀ (buf : Mem) (y : F32), Memory.within (Config.dbuf fs) buf = true →
      Memory.within (Config.dbuf fs) (delayChan P fs st.w buf y).1 = true := by
    intro buf y hb
    unfold delayChan
    split
    · exact Memory.within_write hb hw _
    · split <;> exact Memory.within_write hb hw _
  refine ⟨?_, ringNext_lt (by omega) _⟩
  intro c
  cases c
  · exact hone _ _ (hm .L)
  · exact hone _ _ (hm .R)

theorem flanger_within {P : ParamFile} {fs : Nat} {st : FlangerState} (x : Stereo F32)
    (hm : ∀ c, Memory.within (Config.lf fs) (st.flb.get c) = true) (hw : st.w < Config.lf fs) :
    (∀ c, Memory.within (Config.lf fs) ((flanger P fs st x).1.flb.get c) = true)
      ∧ (flanger P fs st x).1.w < Config.lf fs := by
  unfold flanger
  split
  · refine ⟨?_, ringNext_lt (by omega) _⟩
    intro c
    cases c
    · exact Memory.within_write (hm .L) hw _
    · exact Memory.within_write (hm .R) hw _
  · exact ⟨hm, hw⟩

theorem combStep_ok {len : Nat} {c : Line} (gc x : F32) (h : Line.ok len c = true) :
    Line.ok len (combStep gc x len c).2 = true := by
  simp only [Line.ok, Bool.and_eq_true, decide_eq_true_eq] at *
  exact ⟨Memory.within_write h.1 h.2 _, ringNext_lt (by omega) _⟩

theorem allpassStep_ok {len : Nat} {a : Line} (u : F32) (h : Line.ok len a = true) :
    Line.ok len (allpassStep u len a).2 = true := by
  simp only [Line.ok, Bool.and_eq_true, decide_eq_true_eq] at *
  exact ⟨Memory.within_write h.1 h.2 _, ringNext_lt (by omega) _⟩

/-! ### What a RENDER leaves in each field -/

@[simp] theorem State.render_cfg (s : State) (n : Nat) : (s.render n).cfg = s.cfg := by
  simp only [State.render, State.finishRender, State.afterMeter]
@[simp] theorem State.render_port (s : State) (n : Nat) : (s.render n).port = s.port := by
  simp only [State.render, State.finishRender, State.afterMeter]
@[simp] theorem State.render_cmdidx (s : State) (n : Nat) : (s.render n).cmdidx = s.cmdidx := by
  simp only [State.render, State.finishRender, State.afterMeter]
@[simp] theorem State.render_regs (s : State) (n : Nat) : (s.render n).regs = s.regs := by
  simp only [State.render, State.finishRender, State.afterMeter]
@[simp] theorem State.render_voices (s : State) (n : Nat) :
    (s.render n).voices = (accumulate s.regs s.cfg.fs n s.voices s.draws).voices := rfl
@[simp] theorem State.render_draws (s : State) (n : Nat) :
    (s.render n).draws = (accumulate s.regs s.cfg.fs n s.voices s.draws).draws := rfl
@[simp] theorem State.render_nv (s : State) (n : Nat) : (s.render n).nv = s.nv := by simp [State.nv]
theorem State.render_ag (s : State) (n : Nat) : (s.render n).ag
    = autoGainUpdate s.regs (meter (accumulate s.regs s.cfg.fs n s.voices s.draws).frames) s.ag := rfl

/-- The output pass of a RENDER of n frames. -/
abbrev State.outputOf (s : State) (n : Nat) : Chain × List (Stereo F32) :=
  outputPass s.regs s.cfg.fs (s.render n).ag (accumulate s.regs s.cfg.fs n s.voices s.draws).frames s.chain

theorem State.render_ce (s : State) (n : Nat) : (s.render n).ce = (s.outputOf n).1.comp.ce := rfl
theorem State.render_dc (s : State) (n : Nat) : (s.render n).dc = (s.outputOf n).1.dc := rfl
theorem State.render_ringPh (s : State) (n : Nat) : (s.render n).ringPh = (s.outputOf n).1.ringPh := rfl
theorem State.render_filter (s : State) (n : Nat) : (s.render n).filter = (s.outputOf n).1.filter := rfl
theorem State.render_flanger (s : State) (n : Nat) : (s.render n).flanger = (s.outputOf n).1.flanger := rfl
theorem State.render_delay (s : State) (n : Nat) : (s.render n).delay = (s.outputOf n).1.delay := rfl
theorem State.render_reverb (s : State) (n : Nat) : (s.render n).reverb = (s.outputOf n).1.reverb := rfl
theorem State.render_outbuf (s : State) (n : Nat) :
    (s.render n).outbuf = writeFrames s.outbuf 0 (s.outputOf n).2 := rfl
theorem State.render_status (s : State) (n : Nat) : (s.render n).status
    = if (s.outputOf n).1.fltReset then setFlag s.status .fltReset else s.status := rfl
theorem State.render_grDb (s : State) (n : Nat) :
    (s.render n).grDb = gainReductionDb (s.outputOf n).1.comp.grMin := rfl
theorem State.render_frames (s : State) (n : Nat) : (s.render n).frames = s.frames + BitVec.ofNat 64 n := by
  show s.frames + BitVec.ofNat 64 (s.outputOf n).2.length = _
  simp [State.outputOf]

/-! ### Blocks in sequence -/

/-- The accumulation pass over m + n frames is the pass over m frames and then over n (R162). -/
theorem accumulate_add (P : ParamFile) (fs m n : Nat) (vs : List Voice) (d : Nat) :
    accumulate P fs (m + n) vs d
      = ⟨(accumulate P fs n (accumulate P fs m vs d).voices (accumulate P fs m vs d).draws).voices,
         (accumulate P fs m vs d).frames
          ++ (accumulate P fs n (accumulate P fs m vs d).voices (accumulate P fs m vs d).draws).frames,
         (accumulate P fs n (accumulate P fs m vs d).voices (accumulate P fs m vs d).draws).draws⟩ := by
  induction m generalizing vs d with
  | zero => simp [accumulate]
  | succ m ih => rw [Nat.succ_add]; simp [accumulate, ih]

/-- The words written for the j-th frame are its samples (R176, 20_memory.md R61). -/
theorem read_writeFrames {m : Mem} (hm : Memory.wf m = true) (i : Nat) (xs : List (Stereo F32)) (j : Nat)
    {y : Stereo F32} (h : xs[j]? = some y) : Memory.read (writeFrames m i xs) (2 * (i + j)) = y.l.bits
      ∧ Memory.read (writeFrames m i xs) (2 * (i + j) + 1) = y.r.bits := by
  induction xs generalizing m i j with
  | nil => simp at h
  | cons x xs ih =>
    have w1 : Memory.wf (Memory.writeF m (2 * i) x.l) = true := Memory.wf_write hm _ _
    have w2 : Memory.wf (Memory.writeF (Memory.writeF m (2 * i) x.l) (2 * i + 1) x.r) = true :=
      Memory.wf_write w1 _ _
    simp only [writeFrames]
    cases j with
    | zero =>
      simp only [List.getElem?_cons_zero, Option.some.injEq] at h
      subst h
      rw [read_writeFrames_outside _ _ _ _ (by left; omega), read_writeFrames_outside _ _ _ _ (by left; omega)]
      refine ⟨?_, Memory.read_write_same w1 _ _⟩
      simp only [Memory.writeF]
      rw [Memory.read_write_ne _ _ (by omega)]
      exact Memory.read_write_same hm _ _
    | succ j =>
      have := ih w2 (i + 1) j (by simpa using h)
      rwa [show i + (j + 1) = i + 1 + j by omega]

end Sys2Proof.Machine
end

