-- ==== Sys2Proof/Laws/Step.lean ====
section
/-! SUPPORT. What each command and each shared operation can do, said once: the cases of its answer. Later proofs cite
these and do not unfold the meanings. -/

namespace Sys2Proof.Machine

@[simp] theorem fetch_nil {s : State} (h : s.port = []) : fetch s = none := by simp [fetch, h]

@[simp] theorem fetch_cons {s : State} {w : Cmd} {ws : List Cmd} (h : s.port = w :: ws) :
    fetch s = some (w, s.setPort ws) := by simp [fetch, h]

@[simp] theorem finish_next (s : State) : finish (.next s) = .next s.retire := rfl

/-- The shared read of a register: a parameter register gives its value, any other id +0.0. -/
theorem par_of_index {id : Nat} {i : Fin nParams} (h : paramIndex? id = some i) (r : ParamFile) : par r id = r[i] := by
  simp [par, h]

/-- The id of a row found by its id is that id. -/
theorem paramRow_id {id : Nat} {i : Fin nParams} (h : paramIndex? id = some i) : (paramRow i).id = id := by
  unfold paramIndex? at h
  simp only at h
  split at h
  · rename_i hlt
    obtain rfl := Option.some.inj h
    have hl : paramTable.findIdx (fun r => r.id == id) < paramTable.length := by rw [paramTable_length]; exact hlt
    have := List.findIdx_getElem (w := hl)
    simpa [paramRow] using this
  · simp at h

/-- The register file after a write, at the written id: the value, where the id is a parameter register. -/
theorem par_setPar_same {id : Nat} {i : Fin nParams} (h : paramIndex? id = some i) (r : ParamFile) (v : F32) :
    par (setPar r id v) id = v := by
  simp [par, setPar, h]

/-- The register file after a write, at another id: as before. -/
theorem par_setPar_ne {id id' : Nat} (h : id' ≠ id) (r : ParamFile) (v : F32) :
    par (setPar r id v) id' = par r id' := by
  unfold par setPar
  cases h1 : paramIndex? id with
  | none => rfl
  | some i =>
    cases h2 : paramIndex? id' with
    | none => rfl
    | some j =>
      have hij : i.val ≠ j.val := by
        intro he
        have : i = j := Fin.ext he
        subst this
        exact h ((paramRow_id h2).symm.trans (paramRow_id h1))
      simp [hij]

/-- NOP answers the same state. -/
@[simp] theorem execNop_eq (s : State) : execNop s = .next s := rfl

/-- CLRST answers the state with STATUS masked. -/
@[simp] theorem execClrst_eq (m : Word) (s : State) : execClrst m s = .next (s.clearStatus m) := rfl

/-- What SETP can do: be ignored, be dropped for a NaN, or store the converted value. -/
theorem execSetp_cases (id : RegId) (v : Word) (s : State) :
    (paramIndex? id.toNat = none ∧ execSetp id v s = .next s)
      ∨ ∃ i, paramIndex? id.toNat = some i
        ∧ (((F32.mk v).isNaN = true ∧ execSetp id v s = .next (s.raise .errNan))
          ∨ ((F32.mk v).isNaN = false
            ∧ execSetp id v s = .next (s.writeParam id.toNat (convert (paramRow i).kind ⟨v⟩)))) := by
  unfold execSetp
  cases h : paramIndex? id.toNat with
  | none => exact .inl ⟨rfl, rfl⟩
  | some i =>
    refine .inr ⟨i, rfl, ?_⟩
    cases hn : (F32.mk v).isNaN
    · exact .inr ⟨rfl, by simp⟩
    · exact .inl ⟨rfl, by simp [drop]⟩

/-- What GATEON can do: be dropped for the voice, be dropped for the note, or restart the slot. -/
theorem execGateon_cases (v : BitVec 8) (vel : BitVec 16) (note : Word) (s : State) :
    (s.nv ≤ v.toNat ∧ execGateon v vel note s = .next (s.raise .errVoice))
      ∨ (v.toNat < s.nv ∧ (F32.mk note).isNaN = true ∧ execGateon v vel note s = .next (s.raise .errNan))
      ∨ (v.toNat < s.nv ∧ (F32.mk note).isNaN = false
        ∧ execGateon v vel note s = .next (s.setVoice v.toNat (gatedOn (velOf vel) (noteOf ⟨note⟩)))) := by
  unfold execGateon
  by_cases h : s.nv ≤ v.toNat
  · exact .inl ⟨h, by simp [h, drop]⟩
  · refine .inr ?_
    cases hn : (F32.mk note).isNaN
    · exact .inr ⟨by omega, rfl, by simp [h]⟩
    · exact .inl ⟨by omega, rfl, by simp [h, drop]⟩

/-- What GATEOFF can do: be dropped for the voice, or take the slot through `gatedOff`. -/
theorem execGateoff_cases (v : BitVec 8) (s : State) :
    (s.voices[v.toNat]? = none ∧ execGateoff v s = .next (s.raise .errVoice))
      ∨ ∃ x, s.voices[v.toNat]? = some x ∧ execGateoff v s = .next (s.setVoice v.toNat (gatedOff x)) := by
  unfold execGateoff
  cases h : s.voices[v.toNat]? with
  | none => exact .inl ⟨rfl, rfl⟩
  | some x => exact .inr ⟨x, rfl, rfl⟩

/-- What RENDER can do: be dropped for its length, or render. -/
theorem execRender_cases (n : Word) (s : State) :
    ((n.toNat = 0 ∨ s.cfg.maxb < n.toNat) ∧ execRender n s = .next (s.raise .errLen))
      ∨ (1 ≤ n.toNat ∧ n.toNat ≤ s.cfg.maxb ∧ execRender n s = .next (s.render n.toNat)) := by
  unfold execRender
  by_cases h : n.toNat = 0 ∨ s.cfg.maxb < n.toNat
  · exact .inl ⟨h, by simp [h, drop]⟩
  · refine .inr ⟨by omega, by omega, by simp [h]⟩

/-- A command always answers a next state. -/
theorem exec_next (i : Instr) (s : State) : ∃ t, exec i s = .next t := by
  cases i with
  | nop => exact ⟨_, rfl⟩
  | setp id v =>
    rcases execSetp_cases id v s with ⟨_, h⟩ | ⟨_, _, ⟨_, h⟩ | ⟨_, h⟩⟩ <;> exact ⟨_, h⟩
  | gateon v vel note =>
    rcases execGateon_cases v vel note s with ⟨_, h⟩ | ⟨_, _, h⟩ | ⟨_, _, h⟩ <;> exact ⟨_, h⟩
  | gateoff v => rcases execGateoff_cases v s with ⟨_, h⟩ | ⟨_, _, h⟩ <;> exact ⟨_, h⟩
  | render n => rcases execRender_cases n s with ⟨_, h⟩ | ⟨_, _, h⟩ <;> exact ⟨_, h⟩
  | clrst m => exact ⟨_, rfl⟩

/-- What a step can do: nothing with an empty port; with a word, run the command it decodes to or drop it with its
flag, and count it. -/
theorem step_cases (s : State) :
    (s.port = [] ∧ step s = .next s)
      ∨ ∃ w ws, s.port = w :: ws
        ∧ ((∃ i t, decodeWord w = .ok i ∧ exec i (s.setPort ws) = .next t ∧ step s = .next t.retire)
          ∨ ∃ e, decodeWord w = .error e ∧ step s = .next ((s.setPort ws).raise (rejectFlag e)).retire) := by
  cases hp : s.port with
  | nil => exact .inl ⟨rfl, by simp [step, hp]⟩
  | cons w ws =>
    refine .inr ⟨w, ws, rfl, ?_⟩
    cases hd : decodeWord w with
    | ok i =>
      obtain ⟨t, ht⟩ := exec_next i (s.setPort ws)
      exact .inl ⟨i, t, rfl, ht, by simp [step, fetch_cons hp, runWord, hd, ht]⟩
    | error e => exact .inr ⟨e, rfl, by simp [step, fetch_cons hp, runWord, hd, drop]⟩

end Sys2Proof.Machine
end

