-- ==== Sys2Proof/Laws/Trans.lean ====
section
/-! SUPPORT. What the power function answers, said once, and that a level in dB that a register can hold has a positive
finite gain. -/

namespace Sys2Proof
open F32

/-- Where the exact power is a normal binary32, F_pow is finite and greater than 0 (00_scope.md R10 P_POWPOS). -/
theorem posFinite_fPow {x y : F32} (hx : posFinite x = true) (hy : y.isFinite = true) (h : powNormal x y) :
    posFinite (fPow x y) = true := by
  unfold fPow
  split
  · decide
  · exact Config.rawPow.pos x y hx hy h

/-- A power of ten with an exponent between −37 and 37 is a normal binary32. -/
theorem powNormal_ten {y : F32} (hl : -37 * 2 ^ 149 ≤ y.fix) (hh : y.fix ≤ 37 * 2 ^ 149) :
    powNormal ⟨0x41200000#32⟩ y := by
  have hx : (((F32.mk 0x41200000#32).fix : Int) : ℝ) / 2 ^ 149 = 10 := by
    have : (F32.mk 0x41200000#32).fix = 10 * 2 ^ 149 := by decide +kernel
    rw [this]; norm_num
  have hl' : (-37 : ℝ) ≤ (y.fix : ℝ) / 2 ^ 149 := by
    rw [le_div_iff₀ (by positivity)]; exact_mod_cast hl
  have hh' : (y.fix : ℝ) / 2 ^ 149 ≤ 37 := by
    rw [div_le_iff₀ (by positivity)]; exact_mod_cast hh
  unfold powNormal
  rw [hx]
  constructor
  · calc (2 : ℝ) ^ (-126 : ℤ) ≤ (10 : ℝ) ^ (-37 : ℝ) := by
          rw [show (-37 : ℝ) = ((-37 : ℤ) : ℝ) by norm_num, Real.rpow_intCast]; norm_num
      _ ≤ _ := Real.rpow_le_rpow_of_exponent_le (by norm_num) hl'
  · calc _ ≤ (10 : ℝ) ^ (37 : ℝ) := Real.rpow_le_rpow_of_exponent_le (by norm_num) hh'
      _ ≤ _ := by rw [show (37 : ℝ) = ((37 : ℕ) : ℝ) by norm_num, Real.rpow_natCast]; norm_num

/-- Every level between −740 dB and 740 dB has a positive finite gain; the dB registers lie far inside. -/
theorem posFinite_dbToGain {x : F32} (hl : le ⟨0xC4390000#32⟩ x = true) (hh : le x ⟨0x44390000#32⟩ = true) :
    posFinite (Machine.dbToGain x) = true := by
  have hf : x.isFinite = true := isFinite_of_between (by decide) (by decide) hl hh
  have h20 : Consts.dec 20 1 = ⟨0x41A00000#32⟩ := by decide +kernel
  have h10 : Consts.dec 10 1 = ⟨0x41200000#32⟩ := by decide +kernel
  have hp : 0 < (F32.mk 0x41A00000#32).fix := by decide +kernel
  have l := div_mono_left (b := ⟨0x41A00000#32⟩) (by decide) hf (by decide) hl hp
  have u := div_mono_left (b := ⟨0x41A00000#32⟩) hf (by decide) (by decide) hh hp
  have el : div ⟨0xC4390000#32⟩ ⟨0x41A00000#32⟩ = ⟨0xC2140000#32⟩ := by decide +kernel
  have eu : div ⟨0x44390000#32⟩ ⟨0x41A00000#32⟩ = ⟨0x42140000#32⟩ := by decide +kernel
  rw [el] at l
  rw [eu] at u
  have kl := key_le_iff.1 (le_iff.1 l).2.2
  have ku := key_le_iff.1 (le_iff.1 u).2.2
  have vl : (F32.mk 0xC2140000#32).fix = -37 * 2 ^ 149 := by decide +kernel
  have vu : (F32.mk 0x42140000#32).fix = 37 * 2 ^ 149 := by decide +kernel
  simp only [Machine.dbToGain, h10, h20]
  exact posFinite_fPow (by decide) (isFinite_of_between (by decide) (by decide) l u)
    (powNormal_ten (by omega) (by omega))

end Sys2Proof
end

