-- ==== Sys2Proof/Machine/Assembler.lean ====
section
/-! DEFINITION. The pseudo-instructions as the commands each expands to (30_encoding.md R96). The text of R95 is not
parsed: it "has no other standing" (00_scope.md R8; log entry 20). -/

namespace Sys2Proof.Machine
open F32

/-- `SETP <reg>, <value>` with a binary32 value. -/
def asmSetp (id : Nat) (x : F32) : Instr := .setp (BitVec.ofNat 16 id) x.bits

/-- A decimal velocity a/b as IMM16 = min(65535, max(0, roundInt(r·65535))) (R95). -/
def asmVel (a : Int) (b : Nat) : BitVec 16 :=
  BitVec.ofNat 16 (min 65535 ((2 * (a * 65535) + (b : Int)) / (2 * (b : Int))).toNat)

/-- `ENABLE <unit>`, the unit named by the id of its enable register (R96). -/
def asmEnable (id : Nat) : List Instr := [asmSetp id one]

/-- `DISABLE <unit>` (R96). -/
def asmDisable (id : Nat) : List Instr := [asmSetp id F32.zero]

/-- `SETTAP <t>, <beats>, <level>`; tap t counts from 0 here (R96). -/
def asmSettap (t : Nat) (beats level : F32) : List Instr :=
  [asmSetp (Reg.tapEnable t) one, asmSetp (Reg.tapBeats t) beats, asmSetp (Reg.tapLevel t) level]

/-- `PANIC`: GATEOFF of every voice slot in order (R96). -/
def asmPanic (nv : Nat) : List Instr := (List.range nv).map (fun v => .gateoff (BitVec.ofNat 8 v))

/-- `NOTE v<N>, <note>, <vel>, <frames>` (R96). -/
def asmNote (v : BitVec 8) (note : F32) (vel : BitVec 16) (frames : Word) : List Instr :=
  [.gateon v vel note.bits, .render frames, .gateoff v]

end Sys2Proof.Machine
end

