-- ==== Sys2Proof/Tests/Slice0.lean ====
section
/-! SUPPORT. The model's own tests. Every expected value is the spec's: the worked encodings of 30_encoding.md R97, the
vectors of 95_test_vectors.md (each comment names its section) and the examples in the rules. The witnesses at the end
show for every statement with hypotheses a concrete input that meets them all. -/

namespace Sys2Proof.Tests
open Sys2Proof.Machine

set_option Elab.async false

/-- The state an outcome gives. -/
def stateOf (o : Host.Outcome State Fault Refusal) : State :=
  match o with
  | .next s => s
  | .fault _ => State.reset
  | .refused _ => State.reset

/-- A block with one voice slot and at most four frames a RENDER, at FS = 48000. -/
def small : State := State.resetWith ⟨48000, 4⟩ 1

/-- `small` with a parameter register written. -/
def withPar (s : State) (id : Nat) (v : Word) : State := s.writeParam id ⟨v⟩

/-- `small` with every oscillator pan and the master pan at −1, where the pan gains are exactly 1 and 0 (95 §4.4). -/
def panned : State :=
  [0x0104, 0x0114, 0x0124, 0x0134, 0x0311].foldl (fun s id => withPar s id 0xBF800000) small

/-- `panned`, osc1.wave Saw, voice 0 gated on at note 69 and full velocity (program P1 of 95 §12). -/
def sawNote : State := stateOf (exec (.gateon 0 0xFFFF 0x428A0000) (withPar panned 0x0100 0x3F800000))

/-! ### Well-formedness: an ill-formed term for each check -/

theorem test_wf_gateon_voice : Instr.wf 16 1024 (.gateon 16 0xFFFF 0x42700000) = false := by decide +kernel
theorem test_wf_gateon_nan : Instr.wf 16 1024 (.gateon 1 0xFFFF 0x7FC00000) = false := by decide +kernel
theorem test_wf_gateoff_voice : Instr.wf 16 1024 (.gateoff 255) = false := by decide +kernel
theorem test_wf_setp_nan : Instr.wf 16 1024 (.setp 0x0101 0x7F800001) = false := by decide +kernel
theorem test_wf_render_zero : Instr.wf 16 1024 (.render 0) = false := by decide +kernel
theorem test_wf_render_long : Instr.wf 16 1024 (.render 1025) = false := by decide +kernel
theorem test_wf_accepts : Instr.wf 16 1024 (.gateon 15 0 0x42700000) = true ∧ Instr.wf 16 1024 (.render 1024) = true
    ∧ Instr.wf 16 1024 (.gateoff 0) = true ∧ Instr.wf 16 1024 (.setp 0x0101 0x41400000) = true := by decide +kernel

/-! ### Decoding (95 §2, 30_encoding.md R97): the words are written out from the spec -/

theorem test_decode_nop : decodeWord 0x0000000000000000#64 = .ok .nop := by decide +kernel
theorem test_decode_setp : decodeWord 0x0100010141400000#64 = .ok (.setp 0x0101 0x41400000) := by decide +kernel
theorem test_decode_setp_time : decodeWord 0x010007023A83126F#64 = .ok (.setp 0x0702 0x3A83126F) := by decide +kernel
theorem test_decode_gateon : decodeWord 0x0203000142700000#64 = .ok (.gateon 3 0x0001 0x42700000) := by decide +kernel
theorem test_decode_gateoff : decodeWord 0x0303000000000000#64 = .ok (.gateoff 3) := by decide +kernel
theorem test_decode_render : decodeWord 0x0400000000000400#64 = .ok (.render 1024) := by decide +kernel
theorem test_decode_clrst : decodeWord 0x050000000000003F#64 = .ok (.clrst 0x3F) := by decide +kernel
theorem test_decode_unassigned : decodeWord 0x0600000000000000#64 = .error .unassignedOpcode
    ∧ decodeWord 0xFF00000000000000#64 = .error .unassignedOpcode := by decide +kernel
theorem test_decode_reserved : decodeWord 0x0000000000000001#64 = .error .reservedField
    ∧ decodeWord 0x0101010141400000#64 = .error .reservedField
    ∧ decodeWord 0x0300000100000000#64 = .error .reservedField
    ∧ decodeWord 0x0300000000000001#64 = .error .reservedField
    ∧ decodeWord 0x0400000100000001#64 = .error .reservedField
    ∧ decodeWord 0x0501000000000010#64 = .error .reservedField := by decide +kernel
/-- RENDER 4 as bytes, least significant first, and one byte short of it (R93). -/
theorem test_decode_bytes : decodeBytes [4, 0, 0, 0, 0, 0, 0, 4, 9] = .ok (.render 4, [9])
    ∧ decodeBytes [4, 0, 0, 0, 0, 0, 0] = .error .incomplete := by decide +kernel
theorem test_table_word : decodeTableWord 64 0x0303000000000000 = some (.gateoff 3) := by decide +kernel

/-! ### Pseudo-instructions and velocities (R95, R96; 95 §2) -/

theorem test_asm_vel : asmVel 1 1 = 0xFFFF ∧ asmVel 1 2 = 0x8000 ∧ asmVel (-1) 1 = 0 := by decide +kernel
theorem test_asm_note : (asmNote 0 ⟨0x42700000#32⟩ 0x8000 96).map encode
    = [0x0200800042700000, 0x0400000000000060, 0x0300000000000000] := by decide +kernel
theorem test_asm_settap : (asmSettap 0 ⟨0x3E800000#32⟩ F32.one).map encode
    = [0x010008003F800000, 0x010008013E800000, 0x010008023F800000] := by decide +kernel

/-! ### Commands -/

theorem test_nop : exec .nop small = .next small := rfl
/-- S1 of 95 §1. -/
theorem test_setp_round_trip : readReg (stateOf (exec (.setp 0x0101 0x41400000) small)) 0x0101 = 0x41400000 := by
  decide +kernel
/-- 95 §3: a signalling NaN is dropped with ERR_NAN. -/
theorem test_setp_nan : stateOf (exec (.setp 0x0101 0x7F800001) small) = { small with status := 0x10 } := by
  decide +kernel
/-- 95 §3: int 1.5 to 2.0, enum 2.7 to 3.0, bool 0.49999997 to 0.0, cont −∞ to −24.0. -/
theorem test_convert : convert (.int F32.one ⟨0x41000000#32⟩) ⟨0x3FC00000#32⟩ = ⟨0x40000000#32⟩
    ∧ convert (.enum ⟨0x40800000#32⟩) ⟨0x402CCCCD#32⟩ = ⟨0x40400000#32⟩
    ∧ convert .bool ⟨0x3EFFFFFF#32⟩ = F32.zero
    ∧ convert (.cont ⟨0xC1C00000#32⟩ ⟨0x41C00000#32⟩) ⟨0xFF800000#32⟩ = ⟨0xC1C00000#32⟩ := by decide +kernel
/-- 95 §3: bits 31:6 of the mask name no flag. -/
theorem test_clrst : (stateOf (exec (.clrst 0x10) { small with status := 0x1F })).status = 0x0F
    ∧ (stateOf (exec (.clrst 0xFFFFFFC0) { small with status := 0x3F })).status = 0x3F := by decide +kernel
/-- 95 §4.1. -/
theorem test_velocity : velOf 0x0001 = ⟨0x37800080#32⟩ ∧ velOf 0x8000 = ⟨0x3F000080#32⟩ ∧ velOf 0xFFFF = F32.one := by
  decide +kernel
theorem test_gateon : readReg sawNote 0xF100 = 1 ∧ readReg sawNote 0xF200 = 0 ∧ readReg sawNote 0xF300 = 0x428A0000
    ∧ readReg sawNote 0xF400 = 0x3F800000 ∧ readReg sawNote 0xF001 = 1 := by decide +kernel
/-- 95 §1 S8, with NV = 1. -/
theorem test_gateon_voice : (stateOf (exec (.gateon 1 0xFFFF 0x42700000) small)).status = 0x04 := by decide +kernel
/-- 41_voice.md R122: a GATEOFF of an Idle voice changes nothing. -/
theorem test_gateoff_idle : stateOf (exec (.gateoff 0) small) = small := by
  decide +kernel
theorem test_gateoff_sounding : readReg (stateOf (exec (.gateoff 0) sawNote)) 0xF100 = 4 := by decide +kernel
/-- Program P1 of 95 §12, frame 0: the words of OUTBUF and the envelope's level. -/
theorem test_render_frame0 : (let t := stateOf (exec (.render 1) sawNote)
    (readOut t 0, readOut t 1, readReg t 0xF200, readReg t 0xF006, t.delay.w))
      = (0xBB088889, 0x00000000, 0x3B088889, 1, 1) := by decide +kernel
/-- 95 §6: RENDER 0 and a block longer than MAXB are dropped. -/
theorem test_render_length : (stateOf (exec (.render 0) small)).status = 0x08
    ∧ (stateOf (exec (.render 5) small)).status = 0x08 := by decide +kernel

/-! ### Steps (program P2 of 95 §12) -/

theorem test_step_err_opc : (stateOf (step (State.withFetchWord small 64 0x0600000000000000))).status = 0x01 := by decide +kernel
theorem test_step_err_rsvd_first :
    (stateOf (step (State.withFetchWord small 64 0x03FF000100000000))).status = 0x02 := by decide +kernel
theorem test_step_status_id_ignored : stateOf (step (State.withFetchWord small 64 0x0100F00040A00000))
    = { small with cmdidx := 1 } := by decide +kernel

/-! ### Numbers and stages -/

/-- 95 opening line. -/
theorem test_dt : Consts.dt 48000 = ⟨0x37AEC33E#32⟩ := by decide +kernel
/-- 00_scope.md R6 at FS = 48000. -/
theorem test_lengths : Config.dbuf 48000 = 96000 ∧ Config.lf 48000 = 2400
    ∧ ([0, 1, 2, 3].map (Config.combLen 48000 .L)) = [1426, 1781, 1973, 2098]
    ∧ ([0, 1, 2, 3].map (Config.combLen 48000 .R)) = [1449, 1804, 1996, 2121]
    ∧ ([0, 1].map (Config.allpassLen 48000 .L)) = [240, 82] ∧ ([0, 1].map (Config.allpassLen 48000 .R)) = [263, 105] := by
  decide +kernel
/-- 95 §4.3: note 69 gives 440.0 and the increment 0x3C162FC9; note 81 gives 880.0. -/
theorem test_freq : freq ⟨0x428A0000#32⟩ F32.zero = ⟨0x43DC0000#32⟩ ∧ freq ⟨0x42A20000#32⟩ F32.zero = ⟨0x445C0000#32⟩
    ∧ F32.div ⟨0x43DC0000#32⟩ (Consts.fsf 48000) = ⟨0x3C162FC9#32⟩ := by decide +kernel
/-- 95 §7, DC blocker: a unit step. -/
theorem test_dc : (dcStep (dcStep (dcStep ⟨F32.zero, F32.zero⟩ F32.one).1 F32.one).1 F32.one).2 = ⟨0x3F7D7247#32⟩ := by
  decide +kernel
/-- 95 §7, width 2.0. -/
theorem test_width : midSide F32.two ⟨F32.half, ⟨0x3E800000#32⟩⟩ = ⟨⟨0x3F200000#32⟩, ⟨0x3E000000#32⟩⟩ := by
  decide +kernel
/-- 95 §7, the hard clamp. -/
theorem test_hard_clamp : hardClamp ⟨0x7FC00000#32⟩ = F32.zero ∧ hardClamp ⟨0xFF800000#32⟩ = F32.negOne
    ∧ hardClamp ⟨0x80000000#32⟩ = ⟨0x80000000#32⟩ := by decide +kernel
/-- 95 §9: Q at resonance 1, and the smoothed cutoff one frame after a SETP of 2000. -/
theorem test_filter : filterQ F32.one = ⟨0x41200000#32⟩
    ∧ smoothTo ⟨0x447A0000#32⟩ ⟨0x44FA0000#32⟩ = ⟨0x447C8000#32⟩ := by decide +kernel
/-- 95 §10: depth 1 at LFO phase 0. -/
theorem test_flanger_delay : flangerDelay (setPar ParamFile.reset Reg.flangerDepth F32.one) 48000 F32.zero
    = ⟨0x43900000#32⟩ := by decide +kernel
/-- 95 §11: the reset time, tap 1 at reset, and 8 beats at 20 BPM. -/
theorem test_delay_lengths : standardLen ParamFile.reset 48000 = 12000 ∧ tapLen ParamFile.reset 48000 0 = 6000
    ∧ tapLen (setPar (setPar ParamFile.reset 0x0801 ⟨0x41000000#32⟩) 0x0705 ⟨0x41A00000#32⟩) 48000 0 = 95999 := by
  decide +kernel
/-- 95 §12 P4: a comb returns what it stored, and the first allpass gives −0.7·0.25. -/
theorem test_reverb_lines : (combStep F32.half F32.zero 10 ⟨[(3, 0x3F800000)], 3⟩) = (F32.one, ⟨[(3, 0x3F000000)], 4⟩)
    ∧ (allpassStep ⟨0x3E800000#32⟩ 10 ⟨[], 9⟩) = (⟨0xBE333333#32⟩, ⟨[(9, 0x3E800000)], 0⟩) := by decide +kernel
/-- sqrt(2) rounded to nearest, and an exact root. -/
theorem test_sqrt : F32.sqrt F32.two = ⟨0x3FB504F3#32⟩ ∧ F32.sqrt ⟨0x40800000#32⟩ = F32.two := by decide +kernel

/-! ### Witnesses: for each statement with hypotheses a concrete input that meets them all -/

/-- The voice that a RENDER leaves in a slot exists whenever the slot does. -/
theorem render_leaves_voice {s : State} {v : Nat} {x : Voice} (n : Word) (h : s.voices[v]? = some x) :
    ∃ t y, exec (.render n) s = .next t ∧ t.voices[v]? = some y := by
  rcases execRender_cases n s with ⟨_, e⟩ | ⟨_, _, e⟩
  · exact ⟨_, x, e, h⟩
  · refine ⟨_, _, e, List.getElem?_eq_getElem (?_ : v < _)⟩
    have hv := (List.getElem?_eq_some_iff.1 h).1
    simpa [State.render, State.finishRender, State.afterMeter] using hv

/-- A voice in phase p, its other fields as at reset. -/
def voiceIn (p : Phase) : Voice := { Voice.reset with phase := p }

/-- `small` with its voice in phase p. -/
def smallIn (p : Phase) : State := { small with voices := [voiceIn p] }

/-- `small` with the word alone on the port. -/
def issued (w : Cmd) : State := { small with port := [w] }

theorem witness_NarrowTransports : (0 < 8) ∧ ([] : List (BitVec 8)).length < 8 ∧ (List.replicate 7 0#8).length < 8 := by
  decide
theorem witness_StepRuns : (issued 0x0400000000000004).port = [0x0400000000000004]
    ∧ decodeWord 0x0400000000000004 = .ok (.render 4) := by decide +kernel
theorem witness_CmdidxCounts : (issued 0).port = 0 :: [] ∧ (∃ s', step (issued 0) = .next s') ∧ small.port = []
    ∧ ∃ t, exec .nop small = .next t := ⟨rfl, ⟨_, rfl⟩, rfl, ⟨_, rfl⟩⟩

/-- Clauses 1 to 8 of the checks, each at a boundary: opcode 6; a single reserved bit; V = NV; id 0x00FF; V = NV − 1;
n = 0 and n = MAXB + 1. -/
theorem witness_ChecksApplyInOrder :
    (6 ≤ ((0x0600000000000000#64).extractLsb' 56 8).toNat)
      ∧ reservedNonzero 0x0000000000000001#64 = true ∧ reservedNonzero 0x0101000000000000#64 = true
      ∧ reservedNonzero 0x0300000000000001#64 = true ∧ reservedNonzero 0x0400000100000001#64 = true
      ∧ reservedNonzero 0x0501000000000000#64 = true
      ∧ (small.nv ≤ ((0x0201000000000000#64).extractLsb' 48 8).toNat)
      ∧ (reservedNonzero 0x0301000000000000#64 = false ∧ small.nv ≤ ((0x0301000000000000#64).extractLsb' 48 8).toNat)
      ∧ (reservedNonzero 0x010000FF3F800000#64 = false ∧ isParamId ((0x010000FF3F800000#64).extractLsb' 32 16).toNat = false)
      ∧ (reservedNonzero 0x010001007F800001#64 = false ∧ isParamId ((0x010001007F800001#64).extractLsb' 32 16).toNat = true
        ∧ (F32.mk ((0x010001007F800001#64).extractLsb' 0 32)).isNaN = true)
      ∧ (((0x0200FFFF7FC00000#64).extractLsb' 48 8).toNat < small.nv
        ∧ (F32.mk ((0x0200FFFF7FC00000#64).extractLsb' 0 32)).isNaN = true)
      ∧ (reservedNonzero 0x0400000000000000#64 = false ∧ ((0x0400000000000000#64).extractLsb' 0 32).toNat = 0)
      ∧ (reservedNonzero 0x0400000000000005#64 = false ∧ small.cfg.maxb < ((0x0400000000000005#64).extractLsb' 0 32).toNat) := by
  decide +kernel
/-- The last clause: for each opcode a word that passes every check, at V = NV − 1 and at n = 1 and n = MAXB. -/
theorem witness_ChecksPass :
    reservedNonzero 0#64 = false ∧ reservedNonzero 0x050000000000003F#64 = false
      ∧ (reservedNonzero 0x0100010141400000#64 = false ∧ (F32.mk ((0x0100010141400000#64).extractLsb' 0 32)).isNaN = false)
      ∧ (reservedNonzero 0x0200FFFF428A0000#64 = false ∧ ((0x0200FFFF428A0000#64).extractLsb' 48 8).toNat < small.nv
        ∧ (F32.mk ((0x0200FFFF428A0000#64).extractLsb' 0 32)).isNaN = false)
      ∧ (reservedNonzero 0x0300000000000000#64 = false ∧ ((0x0300000000000000#64).extractLsb' 48 8).toNat < small.nv)
      ∧ (reservedNonzero 0x0400000000000001#64 = false ∧ 1 ≤ ((0x0400000000000001#64).extractLsb' 0 32).toNat)
      ∧ (reservedNonzero 0x0400000000000004#64 = false ∧ ((0x0400000000000004#64).extractLsb' 0 32).toNat ≤ small.cfg.maxb) := by
  decide +kernel
theorem witness_FlagsAreSticky : (∃ t, exec (.render 1) small = .next t) ∧ (∀ mask, Instr.nop ≠ .clrst mask)
    ∧ (issued 0x0600000000000000).port = [0x0600000000000000]
    ∧ (0x0600000000000000#64).extractLsb' 56 8 ≠ (5 : BitVec 8)
    ∧ ∃ s', step (issued 0x0600000000000000) = .next s' :=
  ⟨⟨_, rfl⟩, by intro m; simp, rfl, by decide, ⟨_, rfl⟩⟩
theorem witness_NopChangesNothing : (issued 0).port = [0] ∧ (0#64).extractLsb' 56 8 = (0 : BitVec 8)
    ∧ (issued 1).port = [1] ∧ (1#64).extractLsb' 56 8 = (0 : BitVec 8) ∧ (1#64) ≠ 0 := by decide +kernel
theorem witness_SetpStores : isParamId (0x0140#16).toNat = false ∧ isParamId (0xF000#16).toNat = false
    ∧ (paramIndex? (0x0137#16).toNat).isSome = true ∧ (F32.mk 0xFFC00000#32).isNaN = true
    ∧ (F32.mk 0xFF800000#32).isNaN = false ∧ F32.lt ⟨0xFF800000#32⟩ ⟨0xC1C00000#32⟩ = true
    ∧ F32.lt ⟨0x41C00000#32⟩ ⟨0x7F800000#32⟩ = true
    ∧ (F32.le ⟨0xC1C00000#32⟩ ⟨0x41C00000#32⟩ = true ∧ F32.le ⟨0x41C00000#32⟩ ⟨0x41C00000#32⟩ = true)
    ∧ F32.le F32.half F32.half = true ∧ F32.lt ⟨0x3EFFFFFF#32⟩ F32.half = true := by decide +kernel
/-- One register of each kind, written with the upper end of its legal set. -/
theorem witness_SetpRoundTrips :
    (∃ i, paramIndex? (0x0101#16).toNat = some i ∧ (paramRow i).kind = .cont ⟨0xC1C00000#32⟩ ⟨0x41C00000#32⟩
        ∧ F32.le ⟨0xC1C00000#32⟩ ⟨0x41C00000#32⟩ = true ∧ F32.le ⟨0x41C00000#32⟩ ⟨0x41C00000#32⟩ = true)
      ∧ (∃ i, paramIndex? (0x0106#16).toNat = some i ∧ (paramRow i).kind = .int F32.one ⟨0x41000000#32⟩
        ∧ F32.le F32.one (F32.ofNat 8) = true ∧ F32.le (F32.ofNat 8) ⟨0x41000000#32⟩ = true)
      ∧ (∃ i, paramIndex? (0x0100#16).toNat = some i ∧ (paramRow i).kind = .enum ⟨0x40800000#32⟩
        ∧ F32.le (F32.ofNat 4) ⟨0x40800000#32⟩ = true)
      ∧ ∃ i, paramIndex? (0x0900#16).toNat = some i ∧ (paramRow i).kind = .bool := by decide +kernel
theorem witness_SetpWritesOne : (∃ t, exec (.setp 0x0101 0x41400000) small = .next t)
    ∧ (0x0102#16) ≠ 0x0101 ∧ (0x0102#16) ≠ 0xF000 ∧ (F32.mk 0x41400000).isNaN = false
    ∧ isParamId (0x0208#16).toNat = false := ⟨exec_next _ _, by decide, by decide, by decide, by decide⟩
theorem witness_Gateon : small.nv ≤ (1#8).toNat ∧ (0#8).toNat < small.nv ∧ (F32.mk 0x7FC00000#32).isNaN = true
    ∧ (F32.mk 0xFF800000#32).isNaN = false ∧ F32.lt ⟨0xFF800000#32⟩ F32.zero = true
    ∧ F32.lt ⟨0x42FE0000#32⟩ ⟨0x7F800000#32⟩ = true
    ∧ (F32.le F32.zero ⟨0x42FE0000#32⟩ = true ∧ F32.le ⟨0x42FE0000#32⟩ ⟨0x42FE0000#32⟩ = true) := by decide +kernel
theorem witness_Gateoff : small.nv ≤ (1#8).toNat
    ∧ ((smallIn .idle).voices[(0#8).toNat]? = some (voiceIn .idle) ∧ (voiceIn .idle).phase = .idle)
    ∧ ((smallIn .release).voices[(0#8).toNat]? = some (voiceIn .release) ∧ (voiceIn .release).phase ≠ .idle) := by
  decide +kernel
theorem witness_Retrigger : (0#8).toNat < small.nv ∧ (F32.mk 0x42700000#32).isNaN = false
    ∧ (∃ t, exec (.gateon 0 0xFFFF 0x42700000) small = .next t) ∧ small.voices[(0#8).toNat]? = some Voice.reset :=
  ⟨by decide, by decide, exec_next _ _, by decide +kernel⟩
theorem witness_ReadPort : (paramIndex? (0x0902#16).toNat).isSome = true
    ∧ (small.voices[0]? = some Voice.reset ∧ (0xF100#16).toNat = 0xF100 + 0)
    ∧ (small.nv ≤ 255 ∧ (0xF4FF#16).toNat = 0xF400 + 255)
    ∧ (isParamId (0xEFFF#16).toNat = false ∧ (0xEFFF#16).toNat < 0xF000)
    ∧ (0xF00B ≤ (0xF00B#16).toNat ∧ (0xF0FF#16).toNat < 0xF100) ∧ 0xF500 ≤ (0xF500#16).toNat := by decide +kernel
theorem witness_OutbufReads : 7 < 2 * small.cfg.maxb ∧ 2 * small.cfg.maxb ≤ 8 ∧ 1 % 4 ≠ 0 ∧ 3 % 4 ≠ 0 := by decide
theorem witness_ResetVoices : small.hostReset.voices[0]? = some Voice.reset := by decide +kernel
theorem witness_Admissible : (Cfg.mk 8000 1).Admissible ∧ (Cfg.mk 192000 65536).Admissible := by decide

/-- A sound state: what the invariant statements assume holds of `small`. -/
theorem witness_Inv : small.Inv where
  config := by decide
  regs := by decide +kernel
  mem := ⟨rfl, by intro c; cases c <;> rfl, by decide, by intro c; cases c <;> rfl, by decide,
    by intro c; cases c <;> decide⟩
  status := by decide
  out := fun _ => rfl
  ag := by decide +kernel
  ringPh := by decide
  flPh := by decide
  voices := by
    intro v hv
    obtain rfl : v = Voice.reset := List.eq_of_mem_replicate hv
    exact ⟨by decide, by decide, by decide, by decide, by decide⟩
  acc := .inr (by
    intro v hv
    obtain rfl : v = Voice.reset := List.eq_of_mem_replicate hv
    decide +kernel)
theorem witness_Inv_steps : ∃ s', step small = .next s' := ⟨_, rfl⟩

theorem witness_RenderAccepted : small.Accepts 1 ∧ small.Accepts 4 ∧ ¬ small.Accepts 0 ∧ ¬ small.Accepts 5
    ∧ (∃ t, exec (.render 4) small = .next t) ∧ isOn small.regs Reg.filterEnable = false
    ∧ Memory.wf small.outbuf = true := ⟨by decide, by decide, by decide, by decide, exec_next _ _, by decide +kernel, rfl⟩
theorem witness_RenderMemoryFrame : small.MemoriesOk ∧ outsideRing small.delay.w 4 (Config.dbuf small.cfg.fs) 4
    ∧ outsideRing 0 4 (Config.combLen 48000 .R 3) 2120 ∧ isOn small.regs Reg.reverbEnable = false :=
  ⟨witness_Inv.mem, by unfold outsideRing; decide +kernel, by unfold outsideRing; decide +kernel, by decide +kernel⟩
theorem witness_OutOk : small.OutOk := witness_Inv.out
theorem witness_OutbufHoldsTheFrames :
    ∃ y, (outputPass small.regs small.cfg.fs (stateOf (exec (.render 4) small)).ag
      (accumulate small.regs small.cfg.fs (4#32).toNat small.voices small.draws).frames small.chain).2[3]? = some y :=
  ⟨_, List.getElem?_eq_getElem (by simp)⟩
theorem witness_StagesOnAndOff : isOn (withPar small Reg.flangerEnable 0x3F800000).regs Reg.flangerEnable = true
    ∧ isOn (withPar small Reg.reverbEnable 0x3F800000).regs Reg.reverbEnable = true
    ∧ ([Reg.autogainEnable, Reg.compEnable, Reg.dcEnable, Reg.softclipEnable, Reg.ringEnable, Reg.filterEnable,
        Reg.flangerEnable, Reg.delayEnable, Reg.reverbEnable].map (isOn small.regs)) = List.replicate 9 false := by
  decide +kernel
/-- A frame, with every mastering stage and the ring modulator off, and with all on while the later stages are off. -/
theorem witness_MasteringAndRing : 1 ≤ small.cfg.maxb
    ∧ (accumulate small.regs small.cfg.fs 1 small.voices small.draws).frames = [⟨F32.zero, F32.zero⟩]
    ∧ (∃ t, exec (.render 1) small = .next t) ∧ Memory.wf small.outbuf = true
    ∧ (let P := [Reg.compEnable, Reg.dcEnable, Reg.softclipEnable, Reg.ringEnable].foldl
          (fun s id => withPar s id 0x3F800000) small
      (accumulate P.regs P.cfg.fs 1 P.voices P.draws).frames = [⟨F32.zero, F32.zero⟩]
        ∧ [Reg.compEnable, Reg.dcEnable, Reg.softclipEnable, Reg.ringEnable].map (isOn P.regs)
          = [true, true, true, true]
        ∧ [Reg.filterEnable, Reg.flangerEnable, Reg.delayEnable, Reg.reverbEnable].map (isOn P.regs)
          = [false, false, false, false]) :=
  ⟨by decide, rfl, exec_next _ _, rfl, rfl, by decide +kernel, by decide +kernel⟩
theorem witness_RenderSplits : 1 ≤ (1#32).toNat ∧ 1 ≤ (3#32).toNat ∧ (1#32).toNat + (3#32).toNat ≤ small.cfg.maxb
    ∧ (1#32).toNat + (3#32).toNat < 2 ^ 32 ∧ Memory.wf small.outbuf = true
    ∧ isOn small.regs Reg.autogainEnable = false := by decide +kernel
theorem witness_Envelope (p : Phase) : 1 ≤ (smallIn p).cfg.maxb ∧ (smallIn p).voices[0]? = some (voiceIn p)
    ∧ (voiceIn p).phase = p := by cases p <;> decide
theorem witness_PhasesMoveForward :
    (∃ t y, exec (.render 1) (smallIn .attack) = .next t ∧ (smallIn .attack).voices[0]? = some (voiceIn .attack)
        ∧ t.voices[0]? = some y)
      ∧ (∃ t y, exec (.gateoff 0) (smallIn .attack) = .next t ∧ t.voices[0]? = some y)
      ∧ (∃ t y, exec (.gateon 0 0 0) small = .next t ∧ t.voices[0]? = some y)
      ∧ ∃ t y, exec .nop small = .next t ∧ t.voices[0]? = some y := by
  obtain ⟨t, y, h1, h2⟩ := render_leaves_voice (s := smallIn .attack) (v := 0) 1 rfl
  exact ⟨⟨t, y, h1, rfl, h2⟩, ⟨_, _, rfl, rfl⟩, ⟨_, _, rfl, rfl⟩, ⟨_, _, rfl, rfl⟩⟩
/-- Attack, decay and release at T_SNAP itself. -/
theorem witness_Degenerate :
    (let s := fun p => [0x0200, 0x0201, 0x0203].foldl (fun s id => withPar s id 0x3A83126F) (smallIn p);
      (∀ p, (s p).Accepts 1 ∧ F32.le (par (s p).regs Reg.envAttack) Consts.tSnap = true
        ∧ F32.le (par (s p).regs Reg.envDecay) Consts.tSnap = true
        ∧ F32.le (par (s p).regs Reg.envRelease) Consts.tSnap = true)
        ∧ ∀ p, ∃ t y, exec (.render 1) (s p) = .next t ∧ t.voices[0]? = some y) := by
  refine ⟨fun p => ?_, fun p => render_leaves_voice 1 rfl⟩
  cases p <;> decide +kernel
theorem witness_IdleVoice : (smallIn .idle).voices[0]? = some (voiceIn .idle)
    ∧ ({ voiceIn .idle with level := F32.one } : Voice).phase = .idle
    ∧ ∃ t, exec (.render 4) (smallIn .idle) = .next t := ⟨rfl, rfl, exec_next _ _⟩
theorem witness_UnusedUnison : (smallIn .attack).voices[0]? = some (voiceIn .attack)
    ∧ parNat (smallIn .attack).regs (Reg.oscUnison 3) ≤ (1 : Fin 8).val
    ∧ ∃ t, exec (.render 4) (smallIn .attack) = .next t := ⟨rfl, by decide +kernel, exec_next _ _⟩
/-- The phases 0.0 and the largest below 1. -/
theorem witness_Phases : inPhase F32.zero = true ∧ inPhase ⟨0x3F7FFFFF#32⟩ = true
    ∧ F32.lt F32.zero F32.half = true ∧ F32.le F32.half F32.half = true := by decide +kernel
theorem witness_Oscillator : 1 ≤ parNat (withPar small 0x0106 0x41000000).regs (Reg.oscUnison 0)
    ∧ parNat (withPar small 0x0106 0x41000000).regs (Reg.oscUnison 0) ≤ 8
    ∧ ∀ k : Fin 8, inPhase ((Vector.replicate 8 F32.zero)[k]) = true := by decide +kernel
theorem witness_HardClamp : (F32.mk 0x7F800001#32).isNaN = true ∧ F32.lt ⟨0xBF800001#32⟩ F32.negOne = true
    ∧ F32.lt F32.one ⟨0x3F800001#32⟩ = true
    ∧ (F32.le F32.negOne F32.one = true ∧ F32.le F32.one F32.one = true) := by decide
theorem witness_AutoGain : (F32.le Consts.agMin Consts.agMax = true ∧ F32.le Consts.agMax Consts.agMax = true)
    ∧ isOn small.regs Reg.autogainEnable = false
    ∧ isOn (withPar small Reg.autogainEnable 0x3F800000).regs Reg.autogainEnable = true
    ∧ F32.lt Consts.agFloor Consts.agFloor = false
    ∧ State.RegsLegal { State.reset with regs := (withPar small Reg.autogainEnable 0x3F800000).regs } := by
  decide +kernel
/-- An enabled filter whose smoothed cutoff is 0, where its coefficients are known; with y1 = +∞ the guard acts. -/
theorem witness_FilterGuard :
    (let P := (withPar (withPar small Reg.filterEnable 0x3F800000) Reg.filterCutoff 0).regs
      let f := filterSmooth P { small.filter with smCut := F32.zero }
      let run := fun b => biquadSteps (filterCoefs P 48000 f) (preSaturate f.smDrive F32.zero) (filterOsf P) b F32.zero
      isOn P Reg.filterEnable = true
        ∧ (F32.div (run ⟨F32.zero, F32.zero, F32.zero, F32.zero⟩).2 (F32.ofNat (filterOsf P))).isFinite = true
        ∧ (run ⟨F32.zero, F32.zero, F32.zero, F32.zero⟩).1.y1.isFinite = true
        ∧ (run ⟨F32.zero, F32.zero, F32.zero, F32.zero⟩).1.y2.isFinite = true
        ∧ (run ⟨F32.zero, F32.zero, ⟨0x7F800000#32⟩, F32.zero⟩).1.y1.isFinite = false) := by decide +kernel
theorem witness_Smoothing : (F32.mk 0x41A00000#32).isFinite = true ∧ (F32.mk 0x469C4000#32).isFinite = true
    ∧ (F32.sub ⟨0x469C4000#32⟩ ⟨0x41A00000#32⟩).isFinite = true
    ∧ F32.le ⟨0x41A00000#32⟩ ⟨0x469C4000#32⟩ = true
    ∧ (F32.sub ⟨0x41A00000#32⟩ ⟨0x469C4000#32⟩).isFinite = true := by decide +kernel
theorem witness_DelayReads : Memory.wf (small.delay.dly.get .L) = true
    ∧ (let P := (withPar small Reg.delayEnable 0x3F800000).regs
      isOn P Reg.delayEnable = true ∧ F32.eq (par P Reg.delayMode) F32.zero = true)
    ∧ F32.eq (par (withPar small Reg.delayMode 0x3F800000).regs Reg.delayMode) F32.zero = false
    ∧ isOn small.regs Reg.delayEnable = false := by decide +kernel
theorem witness_DelayDistances : 1 ≤ 48000 ∧ 95999 < Config.dbuf 48000 ∧ (1 ≤ 1 ∧ 95999 ≤ Config.dbuf 48000 - 1) := by
  decide
theorem witness_FlangerDistances : small.RegsLegal ∧ small.cfg.Admissible ∧ F32.zero.isFinite = true
    ∧ inPhase F32.zero = true ∧ 0 < Config.lf small.cfg.fs ∧ 2399 < Config.lf small.cfg.fs :=
  ⟨witness_Inv.regs, by decide, by decide, by decide, by decide, by decide⟩
theorem witness_CombAndAllpass : Memory.wf (Line.mk [(2, 0x3F800000)] 2).buf = true
    ∧ (Line.mk [(2, 0x3F800000)] 2).idx < 3 ∧ [F32.zero, F32.one].length + 1 = 3 := by decide
theorem witness_SilentBlock : 1 ≤ (1024#32).toNat ∧ (1024#32).toNat ≤ (Cfg.mk 48000 1024).maxb := by decide
theorem witness_SilentMeters : small.Accepts 4 ∧ (∀ x ∈ small.voices, x.phase = .idle)
    ∧ ∃ t, exec (.render 4) small = .next t := ⟨by decide, by decide, exec_next _ _⟩
theorem witness_FieldProperties : F32.negOne.isFinite = true ∧ F32.lt F32.negOne F32.zero = true
    ∧ F32.le (F32.abs ⟨0xC1000000#32⟩) ⟨0x41000000#32⟩ = true ∧ posFinite F32.two = true
    ∧ (F32.mk 0x80000000#32).isZero = true ∧ posFinite ⟨0x41200000#32⟩ = true ∧ (F32.mk 0xC0000000#32).isFinite = true
    ∧ F32.lt F32.zero F32.one = true ∧ F32.le F32.one ⟨0x7F800000#32⟩ = true := by decide +kernel
/-- 10^-2 and, with the base outside every power of two and the result 2^117, 1.5^200 are normal binary32 numbers. -/
theorem witness_PowNormal : powNormal ⟨0x41200000#32⟩ ⟨0xC0000000#32⟩ ∧ powNormal ⟨0x3FC00000#32⟩ ⟨0x43480000#32⟩ := by
  refine ⟨powNormal_ten (by decide +kernel) (by decide +kernel), ?_⟩
  have hx : (F32.mk 0x3FC00000#32).fix = 3 * 2 ^ 148 := by decide +kernel
  have hy : (F32.mk 0x43480000#32).fix = 200 * 2 ^ 149 := by decide +kernel
  unfold powNormal
  rw [hx, hy, show (((3 * 2 ^ 148 : Int) : ℝ) / 2 ^ 149) = 3 / 2 by norm_num,
    show (((200 * 2 ^ 149 : Int) : ℝ) / 2 ^ 149) = ((200 : ℕ) : ℝ) by norm_num, Real.rpow_natCast]
  constructor <;> norm_num
/-- Two finite operands, the divisor not zero; on the greatest finite number and half its last place the sum overflows. -/
theorem witness_Arithmetic : F32.one.isFinite = true ∧ (F32.mk 0x00000001#32).isFinite = true
    ∧ F32.le F32.zero F32.one = true ∧ (F32.mk 0x40400000#32).isFinite = true ∧ (F32.mk 0x40400000#32).isZero = false
    ∧ (F32.add ⟨0x7F7FFFFF#32⟩ ⟨0x73000000#32⟩).isFinite = false
    ∧ (F32.add ⟨0x7F7FFFFF#32⟩ ⟨0x72FFFFFF#32⟩).isFinite = true := by decide +kernel
theorem witness_Frac : (F32.mk 0x7F7FFFFF#32).isFinite = true ∧ F32.le F32.zero ⟨0x7F7FFFFF#32⟩ = true
    ∧ F32.le F32.zero ⟨0x80000000#32⟩ = true := by decide +kernel
/-- The largest accumulator below 1, advanced by 440/48000. -/
theorem witness_Advance : inPhase ⟨0x3F7FFFFF#32⟩ = true
    ∧ (F32.div ⟨0x43DC0000#32⟩ (F32.ofNat 48000)).isFinite = true
    ∧ F32.le F32.zero (F32.div ⟨0x43DC0000#32⟩ (F32.ofNat 48000)) = true := by decide +kernel

end Sys2Proof.Tests
end

section
/-! SUPPORT. Where rounding takes a value: the midpoints between neighbouring binary32 magnitudes decide, and from that
follow nearest, ties to even and overflow (00_scope.md R9, 60_exceptions.md R273). -/

namespace Sys2Proof.F32

/-! ### Midpoints -/

/-- Twice the midpoint between magnitude pattern m and the next one, in units of 2^-149. -/
def midMag (m : Nat) : Nat := fixMag m + fixMag (m + 1)

/-- In the binade with unit 2^k, pattern k·2^23 + q stands for q units; q = 2^24 is the start of the next binade. -/
theorem fixMag_binade {k q : Nat} (h : k = 0 ∨ 8388608 ≤ q) (hq : q ≤ 16777216) :
    fixMag (k * 8388608 + q) = q * 2 ^ k := by
  unfold fixMag
  rcases Nat.lt_or_ge (k * 8388608 + q) 8388608 with hm | hm
  · obtain rfl : k = 0 := by omega
    simp at hm; simp [hm]
  · rw [if_neg (by omega)]
    rcases Nat.lt_or_eq_of_le hq with hlt | rfl
    · rw [show (k * 8388608 + q) / 8388608 - 1 = k by omega,
        show 8388608 + (k * 8388608 + q) % 8388608 = q by omega]
    · rw [show (k * 8388608 + 16777216) / 8388608 - 1 = k + 1 by omega,
        show (k * 8388608 + 16777216) % 8388608 = 0 by omega, pow_succ]
      ring

/-- The binade unit that `roundMag` chooses: the quotient has at most 24 bits, and 24 above the subnormals. -/
theorem roundMag_quotient (n d : Nat) :
    (Nat.log2 (n / d) - 23 = 0 ∨ 8388608 ≤ n / (d * 2 ^ (Nat.log2 (n / d) - 23)))
      ∧ n / (d * 2 ^ (Nat.log2 (n / d) - 23)) < 16777216 := by
  rw [← Nat.div_div_eq_div_mul]
  generalize n / d = v
  constructor
  · rcases Nat.eq_zero_or_pos (Nat.log2 v - 23) with h | h
    · exact .inl h
    · right
      have hv : v ≠ 0 := by rintro rfl; simp at h
      rw [Nat.le_div_iff_mul_le (by positivity)]
      calc 8388608 * 2 ^ (Nat.log2 v - 23) = 2 ^ (23 + (Nat.log2 v - 23)) := by rw [pow_add]; norm_num
        _ = 2 ^ Nat.log2 v := by congr 1; omega
        _ ≤ v := Nat.log2_self_le hv
  · rw [Nat.div_lt_iff_lt_mul (by positivity)]
    calc v < 2 ^ (Nat.log2 v + 1) := Nat.lt_log2_self
      _ ≤ 2 ^ (24 + (Nat.log2 v - 23)) := Nat.pow_le_pow_right (by decide) (by omega)
      _ = 16777216 * 2 ^ (Nat.log2 v - 23) := by rw [pow_add]; norm_num

/-- A value rounds above pattern m exactly when it lies above the midpoint that follows m, or on it with m odd. -/
theorem lt_roundMag_iff {n d m : Nat} (hd : 0 < d) (hm : m < infMag) :
    m < roundMag n d ↔ midMag m * d < 2 * n ∨ (midMag m * d = 2 * n ∧ m % 2 = 1) := by
  obtain ⟨hk, hq⟩ := roundMag_quotient n d
  unfold roundMag
  generalize Nat.log2 (n / d) - 23 = k at hk hq
  have hdm := Nat.div_add_mod n (d * 2 ^ k)
  have hr := Nat.mod_lt n (show 0 < d * 2 ^ k by positivity)
  have hpar := Nat.mod_lt (n / (d * 2 ^ k)) (show 0 < 2 by decide)
  have lo := fixMag_binade hk hq.le
  have hi := fixMag_binade (k := k) (q := n / (d * 2 ^ k) + 1) (by omega) (by omega)
  simp only [lt_min_iff, hm, and_true]
  generalize n / (d * 2 ^ k) = q at *
  generalize n % (d * 2 ^ k) = r at *
  rcases lt_trichotomy m (k * 8388608 + q) with h | rfl | h
  · -- m and its midpoint lie below the value
    have h1 : midMag m < 2 * (q * 2 ^ k) := by
      have a := fixMag_lt h
      have b := fixMag_le_iff.2 (show m + 1 ≤ k * 8388608 + q by omega)
      unfold midMag; omega
    have h2 : midMag m * d < 2 * n := by
      calc midMag m * d < 2 * (q * 2 ^ k) * d := Nat.mul_lt_mul_of_pos_right h1 hd
        _ = 2 * (d * 2 ^ k * q) := by ring
        _ ≤ 2 * n := by omega
    refine iff_of_true ?_ (.inl h2)
    split_ifs <;> omega
  · -- the value lies between m and the next pattern: the remainder decides
    have h1 : midMag (k * 8388608 + q) * d = 2 * (d * 2 ^ k * q) + d * 2 ^ k := by
      unfold midMag; rw [lo, add_assoc, hi]; ring
    rw [h1]
    generalize d * 2 ^ k = u at *
    generalize u * q = x at *
    have h2 : (k * 8388608 + q) % 2 = q % 2 := by omega
    rw [h2]
    split_ifs <;> omega
  · -- the midpoint after m lies above the next pattern
    have h1 : 2 * ((q + 1) * 2 ^ k) < midMag m := by
      have a := fixMag_le_iff.2 (show k * 8388608 + (q + 1) ≤ m by omega)
      have b := fixMag_lt (show m < m + 1 by omega)
      unfold midMag; omega
    have h2 : 2 * n < midMag m * d := by
      calc 2 * n < 2 * (d * 2 ^ k * q + d * 2 ^ k) := by omega
        _ = 2 * ((q + 1) * 2 ^ k) * d := by ring
        _ ≤ midMag m * d := Nat.mul_le_mul_right _ h1.le
    refine iff_of_false ?_ (by omega)
    split_ifs <;> omega

end Sys2Proof.F32
end

section
/-! SUPPORT. A rounded quotient is nearest to the exact one, ties to even, and overflows exactly from the last midpoint on
(00_scope.md R9, 60_exceptions.md R273). -/

namespace Sys2Proof.F32
open Machine

/-! ### Nearest, ties to even -/

/-- Pattern R is where the magnitude v, a real number of units of 2^-149, rounds to: above exactly those patterns whose
following midpoint lies below v, or on v after an odd pattern. -/
def RoundsAt (v : ℝ) (R : Nat) : Prop :=
  ∀ m < infMag, m < R ↔ (midMag m : ℝ) < 2 * v ∨ ((midMag m : ℝ) = 2 * v ∧ m % 2 = 1)

theorem roundsAt_roundMag (n : Nat) {d : Nat} (hd : 0 < d) : RoundsAt ((n : ℝ) / d) (roundMag n d) := by
  intro m hm
  have hd' : (0 : ℝ) < d := by exact_mod_cast hd
  rw [lt_roundMag_iff hd hm, ← mul_div_assoc, lt_div_iff₀ hd', eq_div_iff hd'.ne']
  exact_mod_cast Iff.rfl

theorem cast_fixMag_le {a b : Nat} (h : a ≤ b) : (fixMag a : ℝ) ≤ fixMag b := by exact_mod_cast fixMag_le_iff.2 h

theorem cast_fixMag_lt {a b : Nat} (h : a < b) : (fixMag a : ℝ) < fixMag b := by exact_mod_cast fixMag_lt h

/-- No finite pattern is nearer to v than the one v rounds to, and another as near leaves that one even. -/
theorem RoundsAt.nearest {v : ℝ} {R m : Nat} (h : RoundsAt v R) (hR : R < infMag) :
    |(fixMag R : ℝ) - v| ≤ |(fixMag m : ℝ) - v|
      ∧ (|(fixMag R : ℝ) - v| = |(fixMag m : ℝ) - v| → m = R ∨ R % 2 = 0) := by
  rcases lt_trichotomy m R with hlt | rfl | hgt
  · obtain ⟨p, rfl⟩ : ∃ p, R = p + 1 := ⟨R - 1, by omega⟩
    have hmid := (h p (by omega)).1 (by omega)
    have h1 := cast_fixMag_le (show m ≤ p by omega)
    have h2 := cast_fixMag_lt hlt
    simp only [midMag, Nat.cast_add] at hmid
    have hle : (fixMag p : ℝ) + fixMag (p + 1) ≤ 2 * v := by rcases hmid with a | a <;> linarith [a]
    have hmv : |(fixMag m : ℝ) - v| = v - fixMag m := by rw [abs_of_nonpos (by linarith)]; ring
    rw [hmv]
    refine ⟨abs_le.2 ⟨by linarith, by linarith⟩, fun he => .inr ?_⟩
    rcases hmid with a | ⟨_, a⟩
    · rcases abs_cases ((fixMag (p + 1) : ℝ) - v) with ⟨b, _⟩ | ⟨b, _⟩ <;> linarith
    · omega
  · exact ⟨le_rfl, fun _ => .inl rfl⟩
  · have hmid := mt (h R hR).2 (lt_irrefl R)
    push Not at hmid
    have h1 := cast_fixMag_le (show R + 1 ≤ m by omega)
    have h2 := cast_fixMag_lt hgt
    simp only [midMag, Nat.cast_add] at hmid
    have hmv : |(fixMag m : ℝ) - v| = fixMag m - v := abs_of_nonneg (by linarith [hmid.1])
    rw [hmv]
    refine ⟨abs_le.2 ⟨by linarith, by linarith [hmid.1]⟩, fun he => .inr ?_⟩
    have : R % 2 ≠ 1 := hmid.2 (by
      rcases abs_cases ((fixMag R : ℝ) - v) with ⟨b, _⟩ | ⟨b, _⟩ <;> linarith [hmid.1])
    omega

theorem cast_fix (x : F32) : (x.fix : ℝ) = if x.neg then -(fixMag x.mag : ℝ) else (fixMag x.mag : ℝ) := by
  unfold fix; split <;> push_cast <;> rfl

theorem abs_cast_fix (x : F32) : |(x.fix : ℝ)| = fixMag x.mag := by
  rw [cast_fix]; split <;> simp

/-- Values of one magnitude on the same side have the same exact value. -/
theorem fix_eq_of_mag {x y : F32} (hs : x.neg = y.neg) (hm : x.mag = y.mag) : x.fix = y.fix := by
  rw [ext_neg_mag hs hm]

/-- A value with the sign of z is as far from z as its magnitude is from |z|. -/
theorem abs_fix_sub {x : F32} {z : ℝ} (hneg : z < 0 → x.neg = true) (hpos : 0 < z → x.neg = false) :
    |(x.fix : ℝ) - z| = |(fixMag x.mag : ℝ) - (|z|)| := by
  rw [cast_fix]
  rcases lt_trichotomy z 0 with a | rfl | a
  · simp only [hneg a, if_true, abs_of_neg a]; rw [← abs_neg]; congr 1; ring
  · split <;> simp
  · simp [hpos a, abs_of_pos a]

/-- x is nearest to the real z, in units of 2^-149: no value is nearer, and where another is as near, the last bit of x
is 0. -/
def Nearest (x : F32) (z : ℝ) : Prop :=
  ∀ y : F32, |(x.fix : ℝ) - z| ≤ |(y.fix : ℝ) - z|
    ∧ (|(x.fix : ℝ) - z| = |(y.fix : ℝ) - z| → y.fix = x.fix ∨ x.mag % 2 = 0)

/-- A finite value with the sign of z whose magnitude is where |z| rounds to is nearest to z. -/
theorem nearest_of_roundsAt {x : F32} {z : ℝ} (hx : x.isFinite = true) (h : RoundsAt |z| x.mag)
    (hneg : z < 0 → x.neg = true) (hpos : 0 < z → x.neg = false) : Nearest x z := by
  intro y
  have hR : x.mag < infMag := by simpa [isFinite] using hx
  obtain ⟨near, tie⟩ := h.nearest (m := y.mag) hR
  have hxz := abs_fix_sub hneg hpos
  have hyz : |(fixMag y.mag : ℝ) - (|z|)| ≤ |(y.fix : ℝ) - z| := by
    rw [← abs_cast_fix]; exact abs_abs_sub_abs_le _ _
  refine ⟨hxz ▸ near.trans hyz, fun he => ?_⟩
  rcases tie (le_antisymm near (hyz.trans_eq (he.symm.trans hxz))) with hm | hm
  swap
  · exact .inr hm
  by_cases hs : y.neg = x.neg
  · exact .inl (fix_eq_of_mag hs hm)
  · -- opposite signs as near as each other: the value or z is zero
    have hy : (y.fix : ℝ) = -x.fix := by
      rw [cast_fix, cast_fix, hm, Bool.eq_not_of_ne hs]; cases x.neg <;> simp
    have h0 : (fixMag x.mag : ℝ) = 0 := by
      rw [hy, abs_eq_abs] at he
      rcases he with he | he
      · rw [← abs_cast_fix, abs_eq_zero]; linarith
      · obtain rfl : z = 0 := by linarith
        have hz := (h.nearest (m := 0) hR).1
        simpa using hz
    have hm0 : x.mag = 0 := fixMag_eq_zero.1 (by exact_mod_cast h0)
    exact .inr (by rw [hm0])

/-! ### The rational operations -/

/-- Twice the overflow midpoint: halfway between the greatest finite number and 2^277. -/
theorem midMag_overflow : midMag (infMag - 1) = 2 * (2 ^ 277 - 2 ^ 252) := by decide +kernel

/-- A quotient rounds to a finite pattern exactly below the overflow midpoint. -/
theorem roundMag_lt_infMag_iff {n d : Nat} (hd : 0 < d) : roundMag n d < infMag ↔ n < (2 ^ 277 - 2 ^ 252) * d := by
  have h := lt_roundMag_iff (n := n) (m := infMag - 1) hd (by decide)
  rw [midMag_overflow, mul_assoc] at h
  have : infMag - 1 < roundMag n d ↔ ¬ roundMag n d < infMag := by
    have : infMag = 2139095040 := rfl
    omega
  rw [this] at h
  have hodd : (infMag - 1) % 2 = 1 := by decide
  omega

/-- A distance in units of 1/d, taken over the reals. -/
theorem cast_abs_sub (x n : Int) {d : Nat} (hd : 0 < d) : ((|x * d - n| : Int) : ℝ) = |(x : ℝ) - n / d| * d := by
  have hd' : (0 : ℝ) < d := by exact_mod_cast hd
  rw [← abs_of_pos hd', ← abs_mul, abs_of_pos hd', sub_mul, div_mul_cancel₀ _ hd'.ne']; push_cast; rfl

/-- A packed rounding result of a quotient is nearest to it, if finite. -/
theorem nearest_pack {n : Int} {d : Nat} (hd : 0 < d) {s : Bool} (hs : n ≠ 0 → s = decide (n < 0))
    (hx : (pack s (roundMag n.natAbs d)).isFinite = true) : Nearest (pack s (roundMag n.natAbs d)) ((n : ℝ) / d) := by
  have hd' : (0 : ℝ) < d := by exact_mod_cast hd
  have habs : |(n : ℝ) / d| = (n.natAbs : ℝ) / d := by
    rw [abs_div, abs_of_pos hd', Nat.cast_natAbs, Int.cast_abs]
  refine nearest_of_roundsAt hx ?_ (fun h => ?_) (fun h => ?_)
  · rw [mag_pack s (roundMag_lt _ _), habs]
    exact roundsAt_roundMag _ hd
  · have hn : n < 0 := by rw [div_lt_iff₀ hd', zero_mul] at h; exact_mod_cast h
    rw [neg_pack s (roundMag_lt _ _), hs hn.ne]
    exact decide_eq_true hn
  · have hn : 0 < n := by rw [lt_div_iff₀ hd', zero_mul] at h; exact_mod_cast h
    rw [neg_pack s (roundMag_lt _ _), hs hn.ne']
    exact decide_eq_false (not_lt.2 hn.le)

/-- A packed rounding result rounds its signed quotient. -/
theorem roundsTo_pack {n : Int} {d : Nat} (hd : 0 < d) {s : Bool} (hs : n ≠ 0 → s = decide (n < 0)) :
    RoundsTo n d (pack s (roundMag n.natAbs d)) := by
  have hmag := mag_pack s (roundMag_lt n.natAbs d)
  have hneg := neg_pack s (roundMag_lt n.natAbs d)
  have hd' : (0 : ℝ) < d := by exact_mod_cast hd
  refine ⟨?_, fun h => ?_, fun h => by rw [hneg, hs h], fun hx y _ => ?_,
    fun hx y _ he => (nearest_pack hd hs hx y).2 ?_⟩
  · have hc : ((2 ^ 277 - 2 ^ 252 : Nat) : Int) = 2 ^ 277 - 2 ^ 252 := by decide +kernel
    rw [isFinite, hmag, decide_eq_true_eq, roundMag_lt_infMag_iff hd, ← hc, Int.abs_eq_natAbs]
    exact_mod_cast Iff.rfl
  · have := roundMag_le n.natAbs d
    simp only [isFinite, isInf, hmag, decide_eq_false_iff_not, decide_eq_true_eq] at *
    omega
  · have h := mul_le_mul_of_nonneg_right (nearest_pack hd hs hx y).1 hd'.le
    rw [← cast_abs_sub _ _ hd, ← cast_abs_sub _ _ hd] at h
    exact_mod_cast h
  · refine mul_right_cancel₀ hd'.ne' ?_
    rw [← cast_abs_sub _ _ hd, ← cast_abs_sub _ _ hd]
    exact_mod_cast he

end Sys2Proof.F32
end

section
/-! SUPPORT. Each of the five operations is its exact result rounded once (00_scope.md R9). -/

namespace Sys2Proof.F32
open Machine

theorem neg_eq_decide {x : F32} (h : x.fix ≠ 0) : x.neg = decide (x.fix < 0) := by
  have := fix_sign x
  cases hx : x.neg <;> simp only [hx] at this <;> simp at this ⊢ <;> omega

/-- The sign of a product of non-zero numbers is negative exactly when their sign bits differ. -/
theorem bne_neg_eq_decide {a b : F32} (h : a.fix * b.fix ≠ 0) : (a.neg != b.neg) = decide (a.fix * b.fix < 0) := by
  obtain ⟨ha, hb⟩ := mul_ne_zero_iff.1 h
  rw [neg_eq_decide ha, neg_eq_decide hb, Bool.eq_iff_iff]
  simp only [bne_iff_ne, ne_eq, decide_eq_decide, decide_eq_true_eq, mul_neg_iff]
  omega

/-- A sum of finite numbers is its exact value rounded once. -/
theorem roundsTo_add {a b : F32} (ha : a.isFinite = true) (hb : b.isFinite = true) :
    RoundsTo (a.fix + b.fix) 1 (add a b) := by
  simp only [add, not_isNaN_of_isFinite ha, not_isNaN_of_isFinite hb, isInf_eq_false ha, isInf_eq_false hb,
    Bool.or_self, Bool.false_eq_true, if_false]
  split
  · rename_i h
    have := roundsTo_pack (n := a.fix + b.fix) (d := 1) (by decide) (s := a.neg && b.neg) (fun h0 => absurd h h0)
    simpa [h] using this
  · exact roundsTo_pack (d := 1) (by decide) (fun _ => rfl)

/-- A difference of finite numbers is its exact value rounded once. -/
theorem roundsTo_sub {a b : F32} (ha : a.isFinite = true) (hb : b.isFinite = true) :
    RoundsTo (a.fix - b.fix) 1 (sub a b) := by
  rw [sub_eq_add ha hb, sub_eq_add_neg, ← fix_negate]
  exact roundsTo_add ha (isFinite_negate hb)

/-- A product of finite numbers is its exact value rounded once. -/
theorem roundsTo_mul {a b : F32} (ha : a.isFinite = true) (hb : b.isFinite = true) :
    RoundsTo (a.fix * b.fix) (2 ^ 149) (mul a b) := by
  simp only [mul, not_isNaN_of_isFinite ha, not_isNaN_of_isFinite hb, isInf_eq_false ha, isInf_eq_false hb,
    Bool.or_self, Bool.false_eq_true, if_false]
  rw [← natAbs_fix, ← natAbs_fix, ← Int.natAbs_mul]
  exact_mod_cast roundsTo_pack (d := 2 ^ 149) (by positivity) bne_neg_eq_decide

theorem fix_eq_zero {x : F32} : x.fix = 0 ↔ x.mag = 0 := by
  rw [← Int.natAbs_eq_zero, natAbs_fix, fixMag_eq_zero]

/-- A quotient of finite numbers, the divisor not zero, is its exact value rounded once. -/
theorem roundsTo_div {a b : F32} (ha : a.isFinite = true) (hb : b.isFinite = true) (hz : b.isZero = false) :
    RoundsTo (a.fix * 2 ^ 149 * b.fix.sign) |b.fix| (div a b) := by
  have hb0 : b.fix ≠ 0 := by simpa [isZero, fix_eq_zero] using hz
  simp only [div, not_isNaN_of_isFinite ha, not_isNaN_of_isFinite hb, isInf_eq_false ha, isInf_eq_false hb, hz,
    Bool.or_self, Bool.false_eq_true, if_false]
  have hn : (a.fix * 2 ^ 149 * b.fix.sign).natAbs = fixMag a.mag * 2 ^ 149 := by
    rw [Int.natAbs_mul, Int.natAbs_mul, natAbs_fix, Int.natAbs_sign_of_ne_zero hb0, mul_one]; rfl
  have hs : a.fix * 2 ^ 149 * b.fix.sign ≠ 0 → (a.neg != b.neg) = decide (a.fix * 2 ^ 149 * b.fix.sign < 0) := by
    intro h
    have ha0 : a.fix ≠ 0 := by rintro h0; simp [h0] at h
    rw [bne_neg_eq_decide (mul_ne_zero ha0 hb0), decide_eq_decide]
    rw [mul_neg_iff]
    rcases lt_or_gt_of_ne hb0 with b0 | b0
    · rw [Int.sign_eq_neg_one_of_neg b0]; omega
    · rw [Int.sign_eq_one_of_pos b0]; omega
  have := roundsTo_pack (d := b.fix.natAbs) (Int.natAbs_pos.2 hb0) hs
  rwa [hn, ← Int.abs_eq_natAbs, natAbs_fix] at this

/-! ### The square root -/

/-- Each bit of the integer root is decided by comparing squares. -/
theorem isqrtFrom_bounds (n i s : Nat) (hl : s * s ≤ n) (hh : n < (s + 2 ^ i) * (s + 2 ^ i)) :
    isqrtFrom n i s * isqrtFrom n i s ≤ n ∧ n < (isqrtFrom n i s + 1) * (isqrtFrom n i s + 1) := by
  induction i generalizing s with
  | zero => exact ⟨hl, by simpa [isqrtFrom] using hh⟩
  | succ i ih =>
    simp only [isqrtFrom]
    split
    · rename_i h
      exact ih _ h (by rwa [add_assoc, ← two_mul, ← pow_succ'])
    · rename_i h
      exact ih _ hl (by omega)

theorem isqrt_eq_sqrt {n : Nat} (h : n < 2 ^ 214 * 2 ^ 214) : isqrt n = Nat.sqrt n := by
  obtain ⟨hl, hh⟩ := isqrtFrom_bounds n 214 0 (by simp) (by rwa [zero_add])
  exact Nat.eq_sqrt.2 ⟨hl, hh⟩

/-- The exact value of a pattern from the second binade on is even, so a midpoint there is a whole number of units. -/
theorem two_dvd_fixMag {m : Nat} (h : 16777216 ≤ m) : 2 ∣ fixMag m := by
  rw [fixMag, if_neg (by omega)]
  exact Dvd.dvd.mul_left (dvd_pow_self 2 (by omega)) _

theorem fixMag_lt_pow {m : Nat} (h : m < infMag) : fixMag m < 2 ^ 277 := by
  have h1 := fixMag_lt h
  have : fixMag infMag = 2 ^ 277 := by decide +kernel
  omega

/-- Twice the integer root of n, an inexact one half a unit higher: what `sqrt` rounds. -/
def rootHalves (n : Nat) : Nat := 2 * Nat.sqrt n + (if Nat.sqrt n * Nat.sqrt n = n then 0 else 1)

/-- A positive finite number's root is packed from the root of its exact value. -/
theorem sqrt_eq_pack {a : F32} (ha : a.isFinite = true) (hz : a.isZero = false) (hn : a.neg = false)
    (hbig : fixMag a.mag * 2 ^ 149 < 2 ^ 214 * 2 ^ 214) :
    sqrt a = pack false (roundMag (rootHalves (fixMag a.mag * 2 ^ 149)) 2) := by
  simp only [sqrt, rootHalves, not_isNaN_of_isFinite ha, isInf_eq_false ha, hz, hn, Bool.false_eq_true, if_false,
    isqrt_eq_sqrt hbig]

theorem roundMag_rootHalves_lt {n : Nat} (h : n < 2 ^ 214 * 2 ^ 214) : roundMag (rootHalves n) 2 < infMag := by
  have := Nat.sqrt_lt.2 h
  rw [rootHalves, roundMag_lt_infMag_iff (by decide)]
  split <;> omega

/-- The half unit that stands for an inexact root keeps every whole number on its side. -/
theorem mul_two_lt_rootHalves {n M : Nat} : M * 2 < rootHalves n ↔ (M : ℝ) < √(n : ℝ) := by
  rw [Real.lt_sqrt (by positivity), ← Nat.cast_pow, Nat.cast_lt, pow_two, rootHalves]
  have hl := Nat.sqrt_le n
  have hh := Nat.lt_succ_sqrt n
  rcases lt_trichotomy M (Nat.sqrt n) with h | rfl | h
  · have := Nat.mul_self_lt_mul_self h
    exact iff_of_true (by omega) (by omega)
  · split <;> omega
  · have := Nat.mul_self_le_mul_self (show (Nat.sqrt n).succ ≤ M from h)
    exact iff_of_false (by split <;> omega) (by omega)

/-- A whole number is the root exactly when it is the integer root and that is exact. -/
theorem mul_two_eq_rootHalves {n M : Nat} : M * 2 = rootHalves n ↔ (M : ℝ) = √(n : ℝ) := by
  rw [eq_comm (b := √(n : ℝ)), Real.sqrt_eq_iff_mul_self_eq (by positivity) (by positivity), ← Nat.cast_mul,
    Nat.cast_inj, rootHalves]
  constructor
  · intro h
    split at h
    · rename_i he
      obtain rfl : M = Nat.sqrt n := by omega
      exact he.symm
    · omega
  · rintro rfl
    simp [Nat.sqrt_eq, mul_comm]

/-- The half unit that stands for an inexact root does not move the rounding: at this size every midpoint is a whole
number. -/
theorem roundsAt_rootHalves {n : Nat} (h : 2 ^ 149 ≤ n) : RoundsAt √(n : ℝ) (roundMag (rootHalves n) 2) := by
  intro m hm
  rw [lt_roundMag_iff (by decide) hm]
  rcases Nat.lt_or_ge m 16777216 with hsmall | hbig
  · -- every midpoint of the first two binades lies far below the root
    have h1 := fixMag_le_iff.2 (show m ≤ 16777216 by omega)
    have h2 := fixMag_le_iff.2 (show m + 1 ≤ 16777216 by omega)
    have h3 : fixMag 16777216 = 16777216 := by decide
    have hs : 2 ^ 74 ≤ Nat.sqrt n :=
      Nat.le_sqrt.2 (by rw [← pow_add]; exact (Nat.pow_le_pow_right (by decide) (by decide)).trans h)
    have hmid : midMag m < 2 * Nat.sqrt n := by unfold midMag; omega
    have hreal : (midMag m : ℝ) < 2 * Nat.sqrt n := by exact_mod_cast hmid
    have hroot : (Nat.sqrt n : ℝ) ≤ √(n : ℝ) := Real.nat_sqrt_le_real_sqrt
    exact iff_of_true (.inl (by unfold rootHalves; omega)) (.inl (by linarith))
  · obtain ⟨M, hM⟩ : 2 ∣ midMag m := dvd_add (two_dvd_fixMag hbig) (two_dvd_fixMag (by omega))
    have hlt : midMag m * 2 < 2 * rootHalves n ↔ (midMag m : ℝ) < 2 * √(n : ℝ) := by
      rw [hM, Nat.cast_mul, Nat.cast_two, mul_lt_mul_iff_right₀ two_pos, ← mul_two_lt_rootHalves]
      omega
    have heq : midMag m * 2 = 2 * rootHalves n ↔ (midMag m : ℝ) = 2 * √(n : ℝ) := by
      rw [hM, Nat.cast_mul, Nat.cast_two, mul_right_inj' two_ne_zero, ← mul_two_eq_rootHalves]
      omega
    rw [hlt, heq]

/-- A number that is at least 0 is a zero or has a clear sign bit and a positive exact value. -/
theorem zero_or_pos_of_le {x : F32} (h : le zero x = true) : x.mag = 0 ∨ (x.neg = false ∧ 0 < fixMag x.mag) := by
  rcases Nat.eq_zero_or_pos (fixMag x.mag) with h0 | h0
  · exact .inl (fixMag_eq_zero.1 h0)
  · refine .inr ⟨?_, h0⟩
    have := fix_nonneg_of_le h
    cases hn : x.neg
    · rfl
    · rw [fix, hn, if_pos rfl] at this; omega

/-- The square root of a finite number that is at least 0 is finite and nearest to the exact root. -/
theorem nearest_sqrt {a : F32} (ha : a.isFinite = true) (h0 : le zero a = true) :
    (sqrt a).isFinite = true ∧ Nearest (sqrt a) √((a.fix : ℝ) * 2 ^ 149) := by
  have hm : a.mag < infMag := by simpa [isFinite] using ha
  rcases zero_or_pos_of_le h0 with hz | ⟨hn, hp⟩
  · have hs : sqrt a = a := by simp [sqrt, not_isNaN_of_isFinite ha, isZero, hz]
    rw [hs]
    refine ⟨ha, fun y => ⟨?_, fun _ => .inr (by rw [hz])⟩⟩
    simp [fix_eq_zero.2 hz]
  · have hz : a.isZero = false := by simpa [isZero] using mt fixMag_eq_zero.2 hp.ne'
    have hbig : fixMag a.mag * 2 ^ 149 < 2 ^ 214 * 2 ^ 214 := by
      have := fixMag_lt_pow hm
      omega
    have hfix : (a.fix : ℝ) * 2 ^ 149 = ((fixMag a.mag * 2 ^ 149 : Nat) : ℝ) := by
      rw [cast_fix, hn, if_neg (by decide), Nat.cast_mul, Nat.cast_pow, Nat.cast_two]
    rw [hfix, sqrt_eq_pack ha hz hn hbig]
    have hR := roundMag_rootHalves_lt hbig
    have hmag := mag_pack false (hR.trans (by decide))
    have hfin : (pack false (roundMag (rootHalves (fixMag a.mag * 2 ^ 149)) 2)).isFinite = true := by
      rw [isFinite, hmag]; exact decide_eq_true hR
    refine ⟨hfin, nearest_of_roundsAt hfin ?_ ?_ ?_⟩
    · rw [abs_of_nonneg (Real.sqrt_nonneg _), hmag]
      exact roundsAt_rootHalves (by omega)
    · exact fun h => absurd h (not_lt.2 (Real.sqrt_nonneg _))
    · exact fun _ => neg_pack _ (hR.trans (by decide))

end Sys2Proof.F32

section
open Sys2Proof Sys2Proof.Machine

/-- Settles O59: where the midpoints between neighbouring magnitudes lie decides every rounding. -/
theorem arithmeticRoundsToNearestEven : Obligations.ArithmeticRoundsToNearestEven := by
  intro a b ha hb
  refine ⟨F32.roundsTo_add ha hb, F32.roundsTo_sub ha hb, F32.roundsTo_mul ha hb, F32.roundsTo_div ha hb, ?_⟩
  intro h0
  obtain ⟨hf, hy⟩ := F32.nearest_sqrt ha h0
  exact ⟨hf, fun y _ => hy y⟩

end
end

section
/-! SUPPORT. Values and intervals: comparisons of finite numbers as inequalities of their exact values, the interval a
result lies in, and the exact values that are binary32 values, on which no operation rounds. -/

namespace Sys2Proof.F32
open Machine

/-! ### Comparisons of exact values -/

theorem natAbs_key (x : F32) : x.key.natAbs = x.mag := by
  unfold key; split <;> simp

theorem key_lt_iff {a b : F32} : a.key < b.key ↔ a.fix < b.fix := by
  have := key_le_iff (a := b) (b := a)
  omega

theorem le_iff_fix {a b : F32} (ha : a.isFinite = true) (hb : b.isFinite = true) : le a b = true ↔ a.fix ≤ b.fix := by
  simp [le_iff, not_isNaN_of_isFinite ha, not_isNaN_of_isFinite hb, key_le_iff]

theorem lt_iff_fix {a b : F32} (ha : a.isFinite = true) (hb : b.isFinite = true) : lt a b = true ↔ a.fix < b.fix := by
  simp [lt_iff, not_isNaN_of_isFinite ha, not_isNaN_of_isFinite hb, key_lt_iff]

theorem lt_imp_le {a b : F32} (h : lt a b = true) : le a b = true := by
  rw [lt_iff] at h
  exact le_iff.2 ⟨h.1, h.2.1, h.2.2.le⟩

theorem lt_trans_of {a b c : F32} (h₁ : lt a b = true) (h₂ : lt b c = true) : lt a c = true := by
  rw [lt_iff] at *
  exact ⟨h₁.1, h₂.2.1, h₁.2.2.trans h₂.2.2⟩

theorem not_isNaN_of_mag_le {x : F32} (h : x.mag ≤ infMag) : x.isNaN = false := by
  rw [isNaN, decide_eq_false_iff_not]; omega

theorem isInf_of_not_isFinite {x : F32} (hn : x.isNaN = false) (hf : ¬ x.isFinite = true) : x.isInf = true := by
  simp only [isFinite, isNaN, isInf, decide_eq_true_eq, decide_eq_false_iff_not] at *
  omega

/-- A positive number has a clear sign bit and a magnitude pattern that is not 0. -/
theorem neg_eq_false_of_pos {x : F32} (h : lt zero x = true) : x.neg = false ∧ x.mag ≠ 0 := by
  have hk : 0 < x.key := (lt_iff.1 h).2.2
  unfold key at hk
  split at hk
  · omega
  · exact ⟨by simpa using ‹¬x.neg = true›, by omega⟩

theorem isNaN_minf {a b : F32} (ha : a.isNaN = false) (hb : b.isNaN = false) : (minf a b).isNaN = false := by
  unfold minf
  split <;> assumption

/-- Between numbers, what is not at most b is above b. -/
theorem lt_of_not_le {a b : F32} (ha : a.isNaN = false) (hb : b.isNaN = false) (h : le a b = false) :
    lt b a = true := by
  refine lt_iff.2 ⟨hb, ha, ?_⟩
  by_contra hc
  have : le a b = true := le_iff.2 ⟨ha, hb, by omega⟩
  simp [h] at this

theorem within_iff {lo hi x : F32} (hl : lo.isFinite = true) (hh : hi.isFinite = true) :
    within lo hi x = true ↔ x.isFinite = true ∧ lo.fix ≤ x.fix ∧ x.fix ≤ hi.fix := by
  rw [within, Bool.and_eq_true]
  constructor
  · rintro ⟨h1, h2⟩
    have hx := isFinite_of_between hl hh h1 h2
    exact ⟨hx, (le_iff_fix hl hx).1 h1, (le_iff_fix hx hh).1 h2⟩
  · rintro ⟨hx, h1, h2⟩
    exact ⟨(le_iff_fix hl hx).2 h1, (le_iff_fix hx hh).2 h2⟩

@[simp] theorem fix_zero : zero.fix = 0 := by decide

@[simp] theorem fix_one : one.fix = 2 ^ 149 := by decide +kernel

theorem fix_negOne : negOne.fix = -2 ^ 149 := by decide +kernel

theorem within_zero_one_iff {x : F32} : within zero one x = true ↔ x.isFinite = true ∧ 0 ≤ x.fix ∧ x.fix ≤ 2 ^ 149 := by
  rw [within_iff (by decide) (by decide), fix_zero, fix_one]

theorem within_negOne_one_iff {x : F32} :
    within negOne one x = true ↔ x.isFinite = true ∧ -2 ^ 149 ≤ x.fix ∧ x.fix ≤ 2 ^ 149 := by
  rw [within_iff (by decide) (by decide), fix_negOne, fix_one]

theorem within_negOne_zero_iff {x : F32} :
    within negOne zero x = true ↔ x.isFinite = true ∧ -2 ^ 149 ≤ x.fix ∧ x.fix ≤ 0 := by
  rw [within_iff (by decide) (by decide), fix_negOne, fix_zero]

theorem inPhase_iff {x : F32} : inPhase x = true ↔ x.isFinite = true ∧ 0 ≤ x.fix ∧ x.fix < 2 ^ 149 := by
  rw [inPhase, Bool.and_eq_true]
  constructor
  · rintro ⟨h1, h2⟩
    have hx := isFinite_of_between (by decide) (by decide) h1 (lt_imp_le h2)
    exact ⟨hx, fix_nonneg_of_le h1, by simpa using (lt_iff_fix hx (by decide)).1 h2⟩
  · rintro ⟨hx, h1, h2⟩
    exact ⟨(le_iff_fix (by decide) hx).2 (by simpa using h1), (lt_iff_fix hx (by decide)).2 (by simpa using h2)⟩

/-! ### The interval of a result -/

/-- A number that stands where z/d rounds to lies between the finite bounds of z/d. -/
theorem within_of_key {lo hi x : F32} {z : Int} {d : Nat} (hd : 0 < d) (hl : lo.isFinite = true)
    (hh : hi.isFinite = true) (hx : x.isNaN = false) (hk : x.key = roundKey z d) (h₁ : lo.fix * d ≤ z)
    (h₂ : z ≤ hi.fix * d) : within lo hi x = true := by
  have k₁ := roundKey_mono (d₁ := 1) (z₁ := lo.fix) (by decide) hd (by simpa using h₁)
  have k₂ := roundKey_mono (d₂ := 1) (z₂ := hi.fix) hd (by decide) (by simpa using h₂)
  rw [roundKey_fix hl, ← hk] at k₁
  rw [roundKey_fix hh, ← hk] at k₂
  rw [within, Bool.and_eq_true]
  exact ⟨le_iff.2 ⟨not_isNaN_of_isFinite hl, hx, k₁⟩, le_iff.2 ⟨hx, not_isNaN_of_isFinite hh, k₂⟩⟩

variable {lo hi a b : F32}

theorem within_add (hl : lo.isFinite = true) (hh : hi.isFinite = true) (ha : a.isFinite = true)
    (hb : b.isFinite = true) (h₁ : lo.fix ≤ a.fix + b.fix) (h₂ : a.fix + b.fix ≤ hi.fix) :
    within lo hi (add a b) = true :=
  within_of_key (d := 1) (by decide) hl hh (isNaN_add ha hb) (key_add ha hb) (by simpa using h₁) (by simpa using h₂)

theorem within_sub (hl : lo.isFinite = true) (hh : hi.isFinite = true) (ha : a.isFinite = true)
    (hb : b.isFinite = true) (h₁ : lo.fix ≤ a.fix - b.fix) (h₂ : a.fix - b.fix ≤ hi.fix) :
    within lo hi (sub a b) = true :=
  within_of_key (d := 1) (by decide) hl hh (isNaN_sub ha hb) (key_sub ha hb) (by simpa using h₁) (by simpa using h₂)

theorem within_mul (hl : lo.isFinite = true) (hh : hi.isFinite = true) (ha : a.isFinite = true)
    (hb : b.isFinite = true) (h₁ : lo.fix * 2 ^ 149 ≤ a.fix * b.fix) (h₂ : a.fix * b.fix ≤ hi.fix * 2 ^ 149) :
    within lo hi (mul a b) = true :=
  within_of_key (d := 2 ^ 149) (by positivity) hl hh (isNaN_mul ha hb) (key_mul ha hb) (by exact_mod_cast h₁)
    (by exact_mod_cast h₂)

theorem within_div (hl : lo.isFinite = true) (hh : hi.isFinite = true) (ha : a.isFinite = true)
    (hb : b.isFinite = true) (hp : 0 < b.fix) (h₁ : lo.fix * b.fix ≤ a.fix * 2 ^ 149)
    (h₂ : a.fix * 2 ^ 149 ≤ hi.fix * b.fix) : within lo hi (div a b) = true := by
  have hc : (b.fix.toNat : Int) = b.fix := Int.toNat_of_nonneg hp.le
  exact within_of_key (by omega) hl hh (isNaN_div ha hb hp) (key_div ha hb hp) (by rwa [hc]) (by rwa [hc])

theorem within_clampf {v : F32} (hv : v.isNaN = false) (h : le lo hi = true) :
    within lo hi (clampf v lo hi) = true := by
  rw [within, Bool.and_eq_true]
  exact clampf_bounds hv h

/-- A number of [0, 1] times a number of [−1, 1] lies in [−1, 1]. -/
theorem mul_within_unit {a b : F32} (ha : within zero one a = true) (hb : within negOne one b = true) :
    within negOne one (mul a b) = true := by
  obtain ⟨fa, a0, a1⟩ := within_zero_one_iff.1 ha
  obtain ⟨fb, b0, b1⟩ := within_negOne_one_iff.1 hb
  exact within_mul (by decide) (by decide) fa fb (by rw [fix_negOne]; nlinarith) (by rw [fix_one]; nlinarith)

/-- f32 of a rational stands where it rounds to. -/
theorem key_ofRat (n : Int) (d : Nat) : (ofRat n d).key = roundKey (n * 2 ^ 149) d := by
  have h : n.natAbs * 2 ^ 149 = (n * 2 ^ 149).natAbs := by rw [Int.natAbs_mul]; rfl
  rw [ofRat, h]
  exact key_pack_roundMag (by split <;> rename_i h <;> simp at h <;> omega) _

/-- A rational of magnitude at most 1 rounds into [−1, 1]. -/
theorem ofRat_within {n : Int} {d : Nat} (hd : 0 < d) (h : n.natAbs ≤ d) : within negOne one (ofRat n d) = true :=
  within_of_key hd (by decide) (by decide) (isNaN_pack_roundMag _ _ _) (key_ofRat n d) (by rw [fix_negOne]; omega)
    (by rw [fix_one]; omega)

theorem roundKey_nonneg {z : Int} (h : 0 ≤ z) (d : Nat) : 0 ≤ roundKey z d := by
  rw [roundKey, if_neg (by omega)]
  omega

/-- A product of finite numbers that are at least 0 is at least 0. -/
theorem fix_mul_nonneg {a b : F32} (ha : a.isFinite = true) (hb : b.isFinite = true) (ha0 : 0 ≤ a.fix)
    (hb0 : 0 ≤ b.fix) : 0 ≤ (mul a b).fix := by
  have hk : zero.key ≤ (mul a b).key := by
    rw [key_mul ha hb]
    exact roundKey_nonneg (mul_nonneg ha0 hb0) _
  rwa [key_le_iff, fix_zero] at hk

/-- A number ≥ 0 plus a finite one ≥ 0 is ≥ 0; +∞ stays +∞. -/
theorem le_zero_add {t d : F32} (ht : le zero t = true) (hd : d.isFinite = true) (h0 : 0 ≤ d.fix) :
    le zero (add t d) = true := by
  by_cases hf : t.isFinite = true
  · exact add_mono (a := zero) (b := zero) (by decide) (by decide) hf hd ht
      ((le_iff_fix (by decide) hd).2 (by simpa using h0))
  · have hn := (le_iff.1 ht).2.1
    have hi := isInf_of_not_isFinite hn hf
    have : add t d = t := by simp [add, hn, hi, not_isNaN_of_isFinite hd, isInf_eq_false hd]
    rwa [this]

theorem abs_eq_pack (x : F32) : abs x = pack false x.mag := by
  have h : (x.bits &&& 0x7FFFFFFF#32).toNat = x.bits.toNat % 2 ^ 31 := by
    rw [BitVec.toNat_and]
    exact Nat.and_two_pow_sub_one_eq_mod _ 31
  simp only [F32.abs, pack, Bool.false_eq_true, if_false, F32.mk.injEq]
  apply BitVec.eq_of_toNat_eq
  rw [h, BitVec.toNat_ofNat, mag]
  omega

/-- A number between −m and m has a magnitude of at most m. -/
theorem abs_le_of_within {m x : F32} (h : within (negate m) m x = true) : le (abs x) m = true := by
  rw [within, Bool.and_eq_true, le_iff, le_iff, key_negate] at h
  obtain ⟨⟨-, hx, h1⟩, -, hm, h2⟩ := h
  have hk := natAbs_key x
  rw [abs_eq_pack, le_iff, key_pack _ (mag_lt x), isNaN, mag_pack _ (mag_lt x)]
  refine ⟨hx, hm, ?_⟩
  rw [if_neg (by decide)]
  omega

/-- A finite number divided by a positive one, ∞ included, is no NaN. -/
theorem isNaN_div_of_pos {a b : F32} (ha : a.isFinite = true) (hb : lt zero b = true) :
    (div a b).isNaN = false := by
  have hn := (lt_iff.1 hb).2.1
  by_cases hf : b.isFinite = true
  · exact isNaN_div ha hf (by simpa using (lt_iff_fix (by decide) hf).1 hb)
  · have hi : b.isInf = true := by
      simp only [isFinite, isNaN, isInf, decide_eq_true_eq, decide_eq_false_iff_not] at *
      omega
    simp [div, not_isNaN_of_isFinite ha, hn, isInf_eq_false ha, hi]

/-! ### Exact values -/

/-- z is the exact value of a finite binary32, in units of 2^-149. -/
def Exact (z : Int) : Prop := ∃ y : F32, y.isFinite = true ∧ y.fix = z

/-- A significand of at most 24 bits in a binade of the format is a finite magnitude. -/
theorem exists_fixMag_eq {q k : Nat} (hq : q < 16777216) (hk : k ≤ 253) :
    ∃ m, m < infMag ∧ fixMag m = q * 2 ^ k := by
  have hinf : infMag = 2139095040 := rfl
  induction k generalizing q with
  | zero => exact ⟨q, by omega, by simpa using fixMag_binade (k := 0) (.inl rfl) hq.le⟩
  | succ k ih =>
    rcases Nat.lt_or_ge q 8388608 with h | h
    · obtain ⟨m, hm, he⟩ := ih (q := 2 * q) (by omega) (by omega)
      exact ⟨m, hm, by rw [he, pow_succ]; ring⟩
    · exact ⟨(k + 1) * 8388608 + q, by omega, fixMag_binade (.inr h) hq.le⟩

/-- A finite magnitude is a significand of at most 24 bits in a binade of the format. -/
theorem exists_significand {m : Nat} (h : m < infMag) :
    ∃ q k, q < 16777216 ∧ k ≤ 253 ∧ fixMag m = q * 2 ^ k := by
  have hinf : infMag = 2139095040 := rfl
  unfold fixMag
  split
  · exact ⟨m, 0, by omega, by omega, by simp⟩
  · exact ⟨_, _, by omega, by omega, rfl⟩

theorem exact_of_significand {q k : Nat} (hq : q < 16777216) (hk : k ≤ 253) : Exact ((q * 2 ^ k : Nat) : Int) := by
  obtain ⟨m, hm, he⟩ := exists_fixMag_eq hq hk
  have hm' : m < 2147483648 := lt_trans hm (by decide)
  refine ⟨pack false m, by rw [isFinite, mag_pack _ hm']; exact decide_eq_true hm, ?_⟩
  rw [fix, neg_pack _ hm', mag_pack _ hm', he]
  rfl

theorem Exact.neg {z : Int} (h : Exact z) : Exact (-z) := by
  obtain ⟨y, hy, rfl⟩ := h
  exact ⟨negate y, isFinite_negate hy, fix_negate y⟩

/-- Integers of at most 24 bits are exact. -/
theorem exact_int {n : Int} (h : n.natAbs < 16777216) : Exact (n * 2 ^ 149) := by
  have := exact_of_significand h (k := 149) (by decide)
  push_cast at this
  rcases abs_choice n with h | h <;> rw [h] at this
  · exact this
  · simpa using this.neg

/-- A number that stands where an exact value rounds to has that value. -/
theorem fix_of_key_exact {x : F32} {z : Int} (hk : x.key = roundKey z 1) (h : Exact z) :
    x.isFinite = true ∧ x.fix = z := by
  obtain ⟨y, hy, rfl⟩ := h
  rw [roundKey_fix hy] at hk
  refine ⟨?_, le_antisymm (key_le_iff.1 hk.le) (key_le_iff.1 hk.ge)⟩
  rw [isFinite, ← natAbs_key, hk, natAbs_key]
  exact hy

/-- An integer whose value is exact is its own f32. -/
theorem ofInt_exact {z : Int} (h : Exact (z * 2 ^ 149)) : (ofInt z).isFinite = true ∧ (ofInt z).fix = z * 2 ^ 149 :=
  fix_of_key_exact (key_ofRat z 1) h

theorem ofNat_eq_ofInt (n : Nat) : ofNat n = ofInt n := by
  simp [ofNat, ofInt, Int.not_lt.2 (Int.natCast_nonneg n)]

theorem sub_exact (ha : a.isFinite = true) (hb : b.isFinite = true) (h : Exact (a.fix - b.fix)) :
    (sub a b).isFinite = true ∧ (sub a b).fix = a.fix - b.fix :=
  fix_of_key_exact (key_sub ha hb) h

theorem floorI_of_isFinite {x : F32} (h : x.isFinite = true) : floorI x = x.fix / 2 ^ 149 := by simp [floorI, h]

/-- f32(n) of a natural number of at most 24 bits is exact; FSf is one for every FS that R5 admits. -/
theorem ofNat_exact {n : Nat} (h : n < 16777216) : (ofNat n).isFinite = true ∧ (ofNat n).fix = n * 2 ^ 149 := by
  rw [ofNat_eq_ofInt]
  exact ofInt_exact (exact_int (by omega))

/-- Integer bounds as inequalities of the exact value. -/
theorem within_ofInt_iff {l h : Int} (hl : l.natAbs < 16777216) (hh : h.natAbs < 16777216) {x : F32} :
    within (ofInt l) (ofInt h) x = true ↔ x.isFinite = true ∧ l * 2 ^ 149 ≤ x.fix ∧ x.fix ≤ h * 2 ^ 149 := by
  obtain ⟨fl, vl⟩ := ofInt_exact (exact_int hl)
  obtain ⟨fh, vh⟩ := ofInt_exact (exact_int hh)
  rw [within_iff fl fh, vl, vh]

/-- Integer bounds of two numbers bound their sum. -/
theorem within_ofInt_add {l₁ h₁ l₂ h₂ l h : Int} (ha : within (ofInt l₁) (ofInt h₁) a = true)
    (hb : within (ofInt l₂) (ofInt h₂) b = true)
    (hl : l₁ + l₂ = l) (hh : h₁ + h₂ = h) (hs : ∀ n ∈ [l₁, h₁, l₂, h₂, l, h], n.natAbs < 16777216) :
    within (ofInt l) (ofInt h) (add a b) = true := by
  simp only [List.forall_mem_cons] at hs
  obtain ⟨s1, s2, s3, s4, s5, s6, -⟩ := hs
  obtain ⟨fa, a1, a2⟩ := (within_ofInt_iff s1 s2).1 ha
  obtain ⟨fb, b1, b2⟩ := (within_ofInt_iff s3 s4).1 hb
  obtain ⟨fl, vl⟩ := ofInt_exact (exact_int s5)
  obtain ⟨fh, vh⟩ := ofInt_exact (exact_int s6)
  exact within_add fl fh fa fb (by rw [vl, ← hl]; linarith) (by rw [vh, ← hh]; linarith)

/-! ### The fractional part -/

/-- Integer and fractional part of a finite magnitude are exact. -/
theorem exact_div_mod {m : Nat} (h : m < infMag) :
    Exact ((fixMag m / 2 ^ 149 * 2 ^ 149 : Nat) : Int) ∧ Exact ((fixMag m % 2 ^ 149 : Nat) : Int) := by
  obtain ⟨q, k, hq, hk, he⟩ := exists_significand h
  rw [he]
  rcases Nat.lt_or_ge k 149 with hlt | hge
  · have hp : 2 ^ 149 = 2 ^ (149 - k) * 2 ^ k := by rw [← pow_add]; congr 1; omega
    constructor
    · rw [show q * 2 ^ k / 2 ^ 149 = q / 2 ^ (149 - k) by rw [hp, Nat.mul_div_mul_right _ _ (by positivity)]]
      exact exact_of_significand ((Nat.div_le_self _ _).trans_lt hq) (by decide)
    · rw [hp, Nat.mul_mod_mul_right]
      exact exact_of_significand ((Nat.mod_le _ _).trans_lt hq) hk
  · have hd : 2 ^ 149 ∣ q * 2 ^ k := Dvd.dvd.mul_left (pow_dvd_pow 2 hge) q
    rw [Nat.div_mul_cancel hd, Nat.mod_eq_zero_of_dvd hd]
    exact ⟨exact_of_significand hq hk, ⟨zero, by decide, fix_zero⟩⟩

/-- frac of a finite p ≥ 0 is the exact fractional part, in [0, 1) (00_scope.md R14). -/
theorem frac_exact {p : F32} (hp : p.isFinite = true) (h0 : 0 ≤ p.fix) :
    (frac p).fix = p.fix % 2 ^ 149 ∧ inPhase (frac p) = true := by
  have hm : p.mag < infMag := by simpa [isFinite] using hp
  have hfix : p.fix = (fixMag p.mag : Int) := by rw [← natAbs_fix]; omega
  obtain ⟨hd, hr⟩ := exact_div_mod hm
  have hfl := ofInt_exact (z := floorI p) (by
    rw [floorI_of_isFinite hp, hfix]; exact_mod_cast hd)
  have hsub : p.fix - (ofInt (floorI p)).fix = p.fix % 2 ^ 149 := by
    rw [hfl.2, floorI_of_isFinite hp]; omega
  have h := sub_exact hp hfl.1 (by rw [hsub, hfix]; exact_mod_cast hr)
  rw [hsub] at h
  exact ⟨h.2, inPhase_iff.2 ⟨h.1, by rw [frac, h.2]; omega, by rw [frac, h.2]; omega⟩⟩

/-- No finite number is above the greatest one, 2^277 − 2^253 units. -/
theorem fix_le_greatest {x : F32} (hx : x.isFinite = true) : x.fix ≤ 2 ^ 277 - 2 ^ 253 := by
  have hm : x.mag < infMag := by simpa [isFinite] using hx
  have h1 := fixMag_le_iff.2 (show x.mag ≤ infMag - 1 by omega)
  have h2 : fixMag (infMag - 1) = 2 ^ 277 - 2 ^ 253 := by decide +kernel
  have h3 := natAbs_fix x
  omega

/-- A phase plus a finite increment ≥ 0 does not overflow. -/
theorem add_phase_finite {p x : F32} (hp : inPhase p = true) (hx : x.isFinite = true) (h0 : 0 ≤ x.fix) :
    (add p x).isFinite = true ∧ 0 ≤ (add p x).fix := by
  obtain ⟨hpf, h1, h2⟩ := inPhase_iff.1 hp
  have hmax := fix_le_greatest hx
  refine ⟨(roundsTo_add hpf hx).finite_iff.2 (by rw [abs_of_nonneg (by omega)]; omega), ?_⟩
  exact fix_nonneg_of_le (add_mono (a := zero) (b := zero) (by decide) (by decide) hpf hx
    ((le_iff_fix (by decide) hpf).2 h1) ((le_iff_fix (by decide) hx).2 h0))

/-- A phase advanced by a finite increment ≥ 0 is a phase again: the fraction of the rounded sum. -/
theorem frac_add_phase {p x : F32} (hp : inPhase p = true) (hx : x.isFinite = true) (h0 : 0 ≤ x.fix) :
    inPhase (frac (add p x)) = true ∧ (frac (add p x)).fix = (add p x).fix % 2 ^ 149 := by
  obtain ⟨hf, hn⟩ := add_phase_finite hp hx h0
  exact (frac_exact hf hn).symm

end Sys2Proof.F32

section
open Sys2Proof Sys2Proof.Machine

/-- Settles O60: integer part and fractional part of a binary32 are binary32 values, so frac does not round. -/
theorem fracWrapsIntoUnit : Obligations.FracWrapsIntoUnit := by
  refine ⟨fun p hp h0 => F32.frac_exact hp (F32.fix_nonneg_of_le h0), by decide +kernel, fun fs acc f ha hf h0 => ?_⟩
  exact F32.frac_add_phase ha hf (F32.fix_nonneg_of_le h0)

end
end

section
/-! SUPPORT. The named properties of the configuration fields (00_scope.md R10), one lemma for each. -/

namespace Sys2Proof
open F32

/-- A narrowed value has the property, since the fallback has it. -/
theorem narrow_ok {ok : F32 → Bool} {fallback : F32} (h : ok fallback = true) (y : F32) :
    ok (narrow ok fallback y) = true := by
  unfold narrow
  split
  · assumption
  · exact h

theorem inUnit_of_isZero {x : F32} (h : x.isZero = true) : inUnit x = true := by
  have hm : x.mag = 0 := by simpa [isZero] using h
  rw [← pack_eta x, hm]
  cases x.neg <;> decide

/-- P_SINR. -/
theorem inUnit_fSin {x : F32} (h : x.isFinite = true) : inUnit (fSin x) = true := by
  unfold fSin
  split
  · decide
  split
  · exact inUnit_of_isZero (narrow_ok (by decide) _)
  · exact narrow_ok (by decide) _

/-- P_COSR. -/
theorem inUnit_fCos {x : F32} (h : x.isFinite = true) : inUnit (fCos x) = true := by
  unfold fCos
  split
  · decide
  · exact narrow_ok (by decide) _

/-- P_TANHR. -/
theorem inUnit_fTanh (x : F32) : inUnit (fTanh x) = true := by
  unfold fTanh
  split
  · decide
  split
  · exact inUnit_of_isZero (narrow_ok (by decide) _)
  · exact narrow_ok (by decide) _

/-- P_EXPR. -/
theorem fExp_between {x : F32} (h : x.isFinite = true) (h0 : lt x F32.zero = true) :
    lt F32.zero (fExp x) = true ∧ lt (fExp x) one = true := by
  rw [fExp, if_pos (by rw [h, h0]; rfl), ← Bool.and_eq_true]
  exact narrow_ok (ok := fun y => lt F32.zero y && lt y one) (by decide) _

/-- F_exp2 of a number with the exact integer value k is 2^k. -/
theorem fExp2_of_fix {x : F32} {k : Int} (hx : x.isFinite = true) (hf : x.fix = k * 2 ^ 149) (h₁ : -126 ≤ k)
    (h₂ : k ≤ 127) : fExp2 x = pow2 k := by
  have hfl : floorI x = k := by rw [floorI_of_isFinite hx, hf]; omega
  have hr : x.fix % 2 ^ 149 = 0 := by omega
  simp only [fExp2, hx, hfl, hr, h₁, h₂, decide_true, Bool.and_self, if_true]

theorem posFinite_pow2 {k : Int} (h₁ : -126 ≤ k) (h₂ : k ≤ 127) : posFinite (pow2 k) = true := by
  have hinf : infMag = 2139095040 := rfl
  have hm : (k + 127).toNat * 8388608 < infMag := by omega
  have hlt := hm.trans (show infMag < 2147483648 by decide)
  have hf : (pow2 k).isFinite = true := by rw [pow2, isFinite, mag_pack _ hlt]; exact decide_eq_true hm
  rw [posFinite, hf, Bool.true_and, lt_iff]
  refine ⟨by decide, not_isNaN_of_isFinite hf, ?_⟩
  rw [pow2, key_pack _ hlt]
  show (0 : Int) < (((k + 127).toNat * 8388608 : Nat) : Int)
  omega

/-- P_EXP2R. -/
theorem posFinite_fExp2 {x : F32} (h : x.isFinite = true) (h8 : le (abs x) ⟨0x41000000#32⟩ = true) :
    posFinite (fExp2 x) = true := by
  unfold fExp2
  split
  · rename_i hc
    simp only [Bool.and_eq_true, decide_eq_true_eq] at hc
    exact posFinite_pow2 hc.1.2 hc.2
  · rw [if_pos (by rw [h, h8]; rfl)]
    exact narrow_ok (by decide) _

/-! ### F_log10 -/

/-- The position in the numeric order of the value at signed rank z: z itself, limited in magnitude. -/
theorem key_ofRank (z : Int) {limit : Nat} (h : limit < 2147483648) (s : Bool) :
    (ofRank z limit s).key = max (-(limit : Int)) (min z limit) := by
  rw [ofRank, key_pack _ (by omega)]
  rcases lt_trichotomy z 0 with hz | rfl | hz
  · rw [if_neg hz.ne, if_pos (by simpa using hz)]; omega
  · simp
  · rw [if_neg hz.ne', if_neg (by simpa using hz.le)]; omega

/-- A value at a rank within the numbers is no NaN, and finite if the limit is. -/
theorem mag_ofRank_le (z : Int) {limit : Nat} (h : limit < 2147483648) (s : Bool) : (ofRank z limit s).mag ≤ limit := by
  rw [ofRank, mag_pack _ (by omega)]
  exact Nat.min_le_right _ _

/-- The limit that F_log10 puts on the rank of its result. -/
def logLimit (x : F32) : Nat := if x.isFinite then infMag - 1 else infMag

theorem logLimit_lt (x : F32) : logLimit x < 2147483648 := by unfold logLimit; split <;> decide

/-- The signed rank from which F_log10 of a positive x is made. -/
def logRank (x : F32) : Int := (Config.rawLogRank x.mag : Int) - (Config.rawLogRank 1065353216 : Int)

theorem logRank_mono {x y : F32} (h : x.mag ≤ y.mag) : logRank x ≤ logRank y := by
  have := Config.rawLogRank.monotone h
  unfold logRank; omega

/-- F_log10 of a positive x is no NaN, inside its limit, and stands at its limited rank, at 1.0 too. -/
theorem fLog10_pos {x : F32} (h : lt F32.zero x = true) :
    (fLog10 x).mag ≤ logLimit x ∧ (fLog10 x).key = max (-(logLimit x : Int)) (min (logRank x) (logLimit x)) := by
  obtain ⟨-, hn, -⟩ := lt_iff.1 h
  obtain ⟨hs, hm⟩ := neg_eq_false_of_pos h
  have hz : x.isZero = false := by simpa [isZero] using hm
  unfold fLog10
  split
  · rename_i h1
    subst h1
    exact ⟨by decide, by simp [logRank, show one.mag = 1065353216 by decide]; decide⟩
  · simp only [hn, hs, hz, Bool.or_self, Bool.false_eq_true, if_false]
    exact ⟨mag_ofRank_le _ (logLimit_lt x) _, key_ofRank _ (logLimit_lt x) _⟩

/-- P_LOGFIN. -/
theorem isFinite_fLog10 {x : F32} (h : posFinite x = true) : (fLog10 x).isFinite = true := by
  rw [posFinite, Bool.and_eq_true] at h
  have := (fLog10_pos h.2).1
  rw [logLimit, if_pos h.1] at this
  exact decide_eq_true (this.trans_lt (by decide))

/-- P_LOGMON: the limit rises only at ∞, and there the rank is at least that of 1.0. -/
theorem fLog10_mono {x y : F32} (hx : lt F32.zero x = true) (hxy : le x y = true) :
    le (fLog10 x) (fLog10 y) = true := by
  obtain ⟨-, hnx, kx⟩ := lt_iff.1 hx
  obtain ⟨-, hny, kxy⟩ := le_iff.1 hxy
  have hy : lt F32.zero y = true := lt_iff.2 ⟨by decide, hny, kx.trans_le kxy⟩
  obtain ⟨mx, ex⟩ := fLog10_pos hx
  obtain ⟨my, ey⟩ := fLog10_pos hy
  have lim (z : F32) : logLimit z ≤ infMag := by unfold logLimit; split <;> omega
  refine le_iff.2 ⟨not_isNaN_of_mag_le (mx.trans (lim x)), not_isNaN_of_mag_le (my.trans (lim y)), ?_⟩
  have hk0 : F32.zero.key = 0 := by decide
  have hmag : x.mag ≤ y.mag := by rw [← natAbs_key, ← natAbs_key]; omega
  have hrank := logRank_mono hmag
  rw [ex, ey]
  have hlim : logLimit x = logLimit y ∨ (0 ≤ logRank y ∧ logLimit x ≤ logLimit y) := by
    unfold logLimit
    by_cases hf : y.isFinite = true
    · have : x.isFinite = true := decide_eq_true (hmag.trans_lt (by simpa [isFinite] using hf))
      simp [hf, this]
    · refine .inr ⟨?_, by rw [if_neg hf]; split <;> omega⟩
      have h1 : infMag ≤ y.mag := by simpa [isFinite] using hf
      have := logRank_mono (x := one) (y := y) ((show one.mag ≤ infMag by decide).trans h1)
      simpa [logRank, show one.mag = 1065353216 by decide] using this
  omega

end Sys2Proof

section
open Sys2Proof Sys2Proof.Machine

/-- Settles O57: each field is its free value narrowed to the property, or carries the property as a proof. -/
theorem configurationFieldProperties : Obligations.ConfigurationFieldProperties := by
  refine ⟨⟨rfl, fun x => inUnit_fSin⟩, ⟨fun x h => if_pos h, fun x => inUnit_fCos⟩, ⟨rfl, inUnit_fTanh⟩,
    fun x => fExp_between, fun k h₁ h₂ => ?_, fun x h => ?_, fun x => posFinite_fExp2,
    fun x y hx hy => if_pos (by rw [hx, hy]; rfl), fun x y => posFinite_fPow, rfl, fun x => isFinite_fLog10,
    fun x y => fLog10_mono⟩
  · obtain ⟨hf, hv⟩ := F32.ofInt_exact (F32.exact_int (n := k) (by omega))
    exact fExp2_of_fix hf hv h₁ h₂
  · have hm : x.mag = 0 := by simpa [F32.isZero] using h
    exact fExp2_of_fix (k := 0) (by simp [F32.isFinite, hm]) (by simpa using F32.fix_eq_zero.2 hm) (by decide)
      (by decide)

/-- Settles O58: a draw is the free value narrowed to [−1, 1]. -/
theorem noiseDrawIsFreeInUnit : Obligations.NoiseDrawIsFreeInUnit := by
  refine ⟨fun n => narrow_ok (by decide) _, fun n => ?_, fun q pw n => rfl⟩
  cases h : F32.inUnit (Config.rawNoise n)
  · exact .inr rfl
  · exact .inl (if_pos h)

end
end

section
/-! SUPPORT. The commands and the step as one relation: what a command can change, and that a step is such a change with
the word taken from the port and counted. -/

namespace Sys2Proof

/-- The decoder reads a command's word as that command. -/
theorem decodeWord_encode (i : Instr) : decodeWord (encode i) = .ok i := by
  cases i <;> simp [decodeWord, encode, opcodeAssigned, reservedZero]

/-- The opcode table's word of a command is its encoding. -/
theorem tableWord_encode (i : Instr) : tableWord 64 (encode i).toNat = encode i := by
  apply BitVec.eq_of_toNat_eq
  rw [tableWord, BitVec.toNat_ofNat, Nat.mod_mod, Nat.mod_eq_of_lt (encode i).isLt]

namespace Machine

/-- What a command can do to the state: nothing (NOP, an ignored SETP), set a flag (a drop), or the one effect of CLRST,
SETP, GATEON, GATEOFF or RENDER when it is accepted. Port and count are the step's and no part of it. -/
inductive Change (s : State) : State → Prop
  | none : Change s s
  | flag (f : Flag) : Change s (s.raise f)
  | clear (mask : Word) : Change s (s.clearStatus mask)
  | store {id : Nat} {i : Fin nParams} {v : F32} (hi : paramIndex? id = some i) (hv : v.isNaN = false) :
      Change s (s.writeParam id (convert (paramRow i).kind v))
  | gateOn {v : Nat} (vel : BitVec 16) {note : F32} (hv : v < s.nv) (hn : note.isNaN = false) :
      Change s (s.setVoice v (gatedOn (velOf vel) (noteOf note)))
  | gateOff {v : Nat} {x : Voice} (hx : s.voices[v]? = some x) : Change s (s.setVoice v (gatedOff x))
  | render {n : Nat} (h1 : 1 ≤ n) (hn : n ≤ s.cfg.maxb) : Change s (s.render n)

/-- Every command makes one of the changes. -/
theorem exec_change {i : Instr} {s t : State} (h : exec i s = .next t) : Change s t := by
  cases i with
  | nop =>
    obtain rfl : s = t := Host.Outcome.next.inj h
    exact .none
  | setp id v =>
    replace h : execSetp id v s = .next t := h
    rcases execSetp_cases id v s with ⟨_, e⟩ | ⟨i, hi, ⟨_, e⟩ | ⟨hv, e⟩⟩ <;> rw [e] at h <;> cases h
    · exact .none
    · exact .flag _
    · exact .store hi hv
  | gateon v vel note =>
    replace h : execGateon v vel note s = .next t := h
    rcases execGateon_cases v vel note s with ⟨_, e⟩ | ⟨_, _, e⟩ | ⟨hv, hn, e⟩ <;> rw [e] at h <;> cases h
    · exact .flag _
    · exact .flag _
    · exact .gateOn _ hv hn
  | gateoff v =>
    replace h : execGateoff v s = .next t := h
    rcases execGateoff_cases v s with ⟨_, e⟩ | ⟨x, hx, e⟩ <;> rw [e] at h <;> cases h
    · exact .flag _
    · exact .gateOff hx
  | render n =>
    replace h : execRender n s = .next t := h
    rcases execRender_cases n s with ⟨_, e⟩ | ⟨h1, hn, e⟩ <;> rw [e] at h <;> cases h
    · exact .flag _
    · exact .render h1 hn
  | clrst m =>
    obtain rfl : s.clearStatus m = t := Host.Outcome.next.inj h
    exact .clear m

/-- A step answers the same state, or takes a word from the port, makes one of the changes and counts the word. -/
theorem step_change {s s' : State} (h : step s = .next s') :
    s' = s ∨ ∃ ws t, Change (s.setPort ws) t ∧ s' = t.retire := by
  rcases step_cases s with ⟨_, e⟩ | ⟨_, ws, _, ⟨_, t, _, ht, e⟩ | ⟨r, _, e⟩⟩ <;> rw [e] at h <;> cases h
  · exact .inl rfl
  · exact .inr ⟨ws, t, exec_change ht, rfl⟩
  · exact .inr ⟨ws, _, .flag _, rfl⟩

/-- A property of states that looks at neither port nor count and that every change keeps is kept by every step. -/
theorem step_keeps {Q : State → Prop} (hport : ∀ s ws, Q s → Q (s.setPort ws)) (hretire : ∀ s, Q s → Q s.retire)
    (hchange : ∀ s t, Q s → Change s t → Q t) {s s' : State} (hs : Q s) (h : step s = .next s') : Q s' := by
  rcases step_change h with rfl | ⟨ws, t, ht, rfl⟩
  · exact hs
  · exact hretire t (hchange _ t (hport s ws hs) ht)

/-- The step on a decoded word, as the command's meaning on the state without the word. -/
theorem step_of_decode {s : State} {w : Cmd} {ws : List Cmd} {i : Instr} (hp : s.port = w :: ws)
    (hd : decodeWord w = .ok i) : ∃ t, exec i (s.setPort ws) = .next t ∧ step s = .next t.retire := by
  obtain ⟨t, ht⟩ := exec_next i (s.setPort ws)
  exact ⟨t, ht, by simp [step, fetch_cons hp, runWord, hd, ht]⟩

/-- No change touches FS, MAXB or NV. -/
theorem Change.config_eq {s t : State} (h : Change s t) : t.cfg = s.cfg ∧ t.nv = s.nv := by
  cases h <;> simp

end Machine
end Sys2Proof

section
open Sys2Proof Sys2Proof.Machine

/-- Settles O5: the word is fetched, decoded, run and counted. -/
theorem stepRunsTheDecodedCommand : Obligations.StepRunsTheDecodedCommand := by
  refine ⟨fun s w ws i hp hd => step_of_decode hp hd, fun s i => ?_⟩
  have hp : (s.withFetchWord 64 (encode i).toNat).port = encode i :: s.port := by
    rw [State.withFetchWord, State.setPort_port, tableWord_encode]
  exact step_of_decode hp (decodeWord_encode i)

/-- Settles O29: no change of a command touches the parameters, and a reset takes them over. -/
theorem parametersOfTheBlockAreFixed : Obligations.ParametersOfTheBlockAreFixed := by
  refine ⟨fun s s' h => ?_, fun i s t h => (exec_change h).config_eq, fun s => ⟨rfl, ?_⟩⟩
  · rcases step_change h with rfl | ⟨ws, t, ht, rfl⟩
    · exact ⟨rfl, rfl⟩
    · exact ht.config_eq
  · exact List.length_replicate

end
end

section
/-! SUPPORT. The parameter registers stay in their legal sets (10_state.md R23): what SETP stores is legal for the kind,
and what a legal register holds lies between its bounds. -/

namespace Sys2Proof.Machine
open F32

/-- Every register of the file holds a value of its legal set (R23). -/
abbrev ParamFile.Legal (P : ParamFile) : Prop := ∀ i : Fin nParams, Kind.legal (paramRow i).kind P[i] = true

/-- The bounds of an integral kind: finite integers of at most 24 bits, in order. -/
def integralBounds (lo hi : F32) : Bool :=
  lo.isFinite && hi.isFinite && le lo hi && decide (lo.fix % 2 ^ 149 = 0) && decide (hi.fix % 2 ^ 149 = 0)
    && decide (-16777216 * 2 ^ 149 < lo.fix) && decide (hi.fix < 16777216 * 2 ^ 149)

/-- The bounds of a kind are in order, and integers where the kind is integral. -/
def Kind.wellFormed : Kind → Bool
  | .cont lo hi => le lo hi
  | .int lo hi => integralBounds lo hi
  | .enum maxcode => integralBounds F32.zero maxcode
  | .bool => true

theorem paramRow_wellFormed : ∀ i : Fin nParams, Kind.wellFormed (paramRow i).kind = true := by decide +kernel

/-- Rounding to an integer stays between integer bounds and gives an integral value. -/
theorem ofInt_roundInt_legal {lo hi v : F32} (hb : integralBounds lo hi = true) (hv : within lo hi v = true) :
    Kind.legal (.int lo hi) (ofInt (roundInt v)) = true := by
  simp only [integralBounds, Bool.and_eq_true, decide_eq_true_eq] at hb
  obtain ⟨⟨⟨⟨⟨⟨hl, hh⟩, -⟩, ml⟩, mh⟩, bl⟩, bh⟩ := hb
  obtain ⟨hf, v1, v2⟩ := (within_iff hl hh).1 hv
  have hr : roundInt v = (2 * v.fix + 2 ^ 149) / 2 ^ 150 := by simp [roundInt, hf]
  obtain ⟨xf, xv⟩ := ofInt_exact (z := roundInt v) (exact_int (by omega))
  have hfl : floorI (ofInt (roundInt v)) = roundInt v := by
    rw [floorI_of_isFinite xf, xv, Int.mul_ediv_cancel _ (by norm_num)]
  rw [Kind.legal, (le_iff_fix hl xf).2 (by omega), (le_iff_fix xf hh).2 (by omega), hfl]
  simp

/-- What SETP stores is legal for the register's kind (40_control.md R103 to R106). -/
theorem convert_legal {k : Kind} {v : F32} (hk : Kind.wellFormed k = true) (hv : v.isNaN = false) :
    Kind.legal k (convert k v) = true := by
  have order {lo hi : F32} (h : integralBounds lo hi = true) : le lo hi = true := by
    simp only [integralBounds, Bool.and_eq_true] at h
    exact h.1.1.1.1.2
  cases k with
  | cont lo hi => exact within_clampf hv hk
  | int lo hi => exact ofInt_roundInt_legal hk (within_clampf hv (order hk))
  | enum m => exact ofInt_roundInt_legal hk (within_clampf hv (order hk))
  | bool =>
    simp only [Kind.legal, convert]
    split <;> simp

theorem ParamFile.Legal.setPar {P : ParamFile} (h : P.Legal) {id : Nat} {i : Fin nParams}
    (hi : paramIndex? id = some i) {v : F32} (hv : Kind.legal (paramRow i).kind v = true) :
    (setPar P id v).Legal := by
  intro j
  have hset : Machine.setPar P id v = P.set i v := by simp [Machine.setPar, hi]
  rw [hset]
  by_cases hj : i = j
  · subst hj; simpa using hv
  · simpa [Fin.val_ne_of_ne hj] using h j

/-- Every change keeps the registers legal. -/
theorem Change.regsLegal {s t : State} (h : Change s t) (hs : s.RegsLegal) : t.RegsLegal := by
  cases h with
  | store hi hv => exact ParamFile.Legal.setPar hs hi (convert_legal (paramRow_wellFormed _) hv)
  | render => rw [State.RegsLegal, State.render_regs]; exact hs
  | _ => exact hs

/-! ### What a legal register holds -/

/-- The kind of register `id`, if it is a parameter register. -/
def kindOf? (id : Nat) : Option Kind := (paramIndex? id).map fun i => (paramRow i).kind

theorem ParamFile.Legal.par_legal {P : ParamFile} (h : P.Legal) {id : Nat} {k : Kind} (hk : kindOf? id = some k) :
    Kind.legal k (par P id) = true := by
  obtain ⟨i, hi, rfl⟩ := Option.map_eq_some_iff.1 hk
  rw [par_of_index hi]
  exact h i

/-- A legal continuous register holds a value between its bounds. -/
theorem ParamFile.Legal.par_within {P : ParamFile} (h : P.Legal) {id : Nat} {lo hi : F32}
    (hk : kindOf? id = some (.cont lo hi)) : within lo hi (par P id) = true := h.par_legal hk

end Sys2Proof.Machine
end

section
/-! SUPPORT. The ranges of a voice (10_state.md R40): every envelope segment keeps the level in [0, 1] and the time at
least 0, GATEON and GATEOFF set values in range, and, while no frequency overflows, every accumulator stays a phase. -/

namespace Sys2Proof.Machine
open F32 Consts

/-! ### The sample rate -/

/-- A finite number ≥ 0 divided by FSf is finite and ≥ 0. -/
theorem div_fsf {fs : Nat} (h₁ : 1 ≤ fs) (h₂ : fs < 16777216) {x : F32} (hx : x.isFinite = true) (h0 : 0 ≤ x.fix) :
    (div x (fsf fs)).isFinite = true ∧ 0 ≤ (div x (fsf fs)).fix := by
  obtain ⟨hf, hv⟩ := ofNat_exact h₂
  have h1 : (1 : Int) ≤ fs := by exact_mod_cast h₁
  have := within_div (lo := F32.zero) (hi := x) (by decide) hx hx hf (by omega) (by rw [fix_zero]; omega)
    (by rw [hv]; nlinarith)
  obtain ⟨hd, hl, -⟩ := (within_iff (by decide) hx).1 this
  exact ⟨hd, by rwa [fix_zero] at hl⟩

/-! ### The envelope -/

theorem within_zero_one_zero : within F32.zero one F32.zero = true := by decide

theorem within_zero_one_one : within F32.zero one one = true := by decide

theorem le_zero_zero : le F32.zero F32.zero = true := by decide

/-- What the envelope's registers hold: durations in [0, 10], the sustain level in [0, 1]. -/
structure EnvOk (P : ParamFile) : Prop where
  attack : within F32.zero ⟨0x41200000#32⟩ (par P Reg.envAttack) = true
  decay : within F32.zero ⟨0x41200000#32⟩ (par P Reg.envDecay) = true
  sustain : within F32.zero one (par P Reg.envSustain) = true
  release : within F32.zero ⟨0x41200000#32⟩ (par P Reg.envRelease) = true

theorem ParamFile.Legal.envOk {P : ParamFile} (h : P.Legal) : EnvOk P :=
  ⟨h.par_within (by decide +kernel), h.par_within (by decide +kernel), h.par_within (by decide +kernel),
    h.par_within (by decide +kernel)⟩

/-- Inside a segment that has not ended, the part of it that has passed lies in [0, 1]. -/
theorem elapsed_within {D t : F32} (hD : within F32.zero ⟨0x41200000#32⟩ D = true) (ht : le F32.zero t = true)
    (h : (le D tSnap || le D t) = false) : within F32.zero one (div t D) = true := by
  rw [Bool.or_eq_false_iff] at h
  obtain ⟨hDf, -, -⟩ := (within_iff (by decide) (by decide)).1 hD
  have hDn := not_isNaN_of_isFinite hDf
  have hsnap : tSnap.isFinite = true ∧ 0 < tSnap.fix := by decide +kernel
  have hpos := (lt_iff_fix hsnap.1 hDf).1 (lt_of_not_le hDn (not_isNaN_of_isFinite hsnap.1) h.1)
  have hlt := lt_of_not_le hDn (le_iff.1 ht).2.1 h.2
  have htf := isFinite_of_between (by decide) hDf ht (lt_imp_le hlt)
  have ht0 := fix_nonneg_of_le ht
  have htD := (lt_iff_fix htf hDf).1 hlt
  exact within_div (by decide) (by decide) htf hDf (by omega) (by rw [fix_zero]; omega) (by rw [fix_one]; omega)

/-- The level of a falling segment, 1 + (S − 1)·q, lies in [0, 1]. -/
theorem fall_within {S q : F32} (hS : within F32.zero one S = true) (hq : within F32.zero one q = true) :
    within F32.zero one (add one (mul (sub S one) q)) = true := by
  obtain ⟨fS, s0, s1⟩ := within_zero_one_iff.1 hS
  obtain ⟨fq, q0, q1⟩ := within_zero_one_iff.1 hq
  have hdepth : within negOne F32.zero (sub S one) = true :=
    within_sub (by decide) (by decide) fS (by decide) (by rw [fix_one, fix_negOne]; omega)
      (by rw [fix_one, fix_zero]; omega)
  obtain ⟨fa, a0, a1⟩ := within_negOne_zero_iff.1 hdepth
  have hfall : within negOne F32.zero (mul (sub S one) q) = true :=
    within_mul (by decide) (by decide) fa fq (by rw [fix_negOne]; nlinarith) (by rw [fix_zero]; nlinarith)
  obtain ⟨fm, m0, m1⟩ := within_negOne_zero_iff.1 hfall
  exact within_add (by decide) (by decide) (by decide) fm (by rw [fix_one, fix_zero]; omega) (by rw [fix_one]; omega)

/-- The level of the release, r·(1 − q), lies in [0, 1]. -/
theorem release_within {r q : F32} (hr : within F32.zero one r = true) (hq : within F32.zero one q = true) :
    within F32.zero one (mul r (sub one q)) = true := by
  obtain ⟨fr, r0, r1⟩ := within_zero_one_iff.1 hr
  obtain ⟨fq, q0, q1⟩ := within_zero_one_iff.1 hq
  have hrest : within F32.zero one (sub one q) = true :=
    within_sub (by decide) (by decide) (by decide) fq (by rw [fix_one, fix_zero]; omega) (by rw [fix_one]; omega)
  obtain ⟨fa, a0, a1⟩ := within_zero_one_iff.1 hrest
  exact within_mul (by decide) (by decide) fr fa (by rw [fix_zero]; nlinarith) (by rw [fix_one]; nlinarith)

variable {P : ParamFile} {v : Voice}

theorem envSustain_ok (hP : EnvOk P) (hv : v.Ok) : (envSustain P v).Ok := { hv with level := hP.sustain }

theorem envDecay_ok (hP : EnvOk P) (hv : v.Ok) : (envDecay P v).Ok := by
  unfold envDecay
  simp only
  split
  · exact envSustain_ok hP { hv with level := hP.sustain, time := le_zero_zero }
  · rename_i h
    exact { hv with level := fall_within hP.sustain (elapsed_within hP.decay hv.time (Bool.eq_false_iff.2 h)) }

theorem envAttack_ok (hP : EnvOk P) (hv : v.Ok) : (envAttack P v).Ok := by
  unfold envAttack
  simp only
  split
  · exact envDecay_ok hP { hv with level := within_zero_one_one, time := le_zero_zero }
  · rename_i h
    exact { hv with level := elapsed_within hP.attack hv.time (Bool.eq_false_iff.2 h) }

theorem envRelease_ok (hP : EnvOk P) (hv : v.Ok) : (envRelease P v).Ok := by
  unfold envRelease
  simp only
  split
  · exact { hv with level := within_zero_one_zero, time := le_zero_zero }
  · rename_i h
    exact { hv with level := release_within hv.relStart (elapsed_within hP.release hv.time (Bool.eq_false_iff.2 h)) }

theorem dt_nonneg {fs : Nat} (h₁ : 1 ≤ fs) (h₂ : fs < 16777216) : (dt fs).isFinite = true ∧ 0 ≤ (dt fs).fix :=
  div_fsf h₁ h₂ (by decide) (by rw [fix_one]; norm_num)

/-- EnvAdvance keeps a voice's ranges. -/
theorem envAdvance_ok (hP : EnvOk P) {d : F32} (hd : d.isFinite = true) (h0 : 0 ≤ d.fix) (hv : v.Ok) :
    (envAdvance P d v).Ok := by
  have tick : (envTick d v).Ok := { hv with time := le_zero_add hv.time hd h0 }
  unfold envAdvance
  split
  · exact { hv with level := within_zero_one_zero }
  · exact envAttack_ok hP tick
  · exact envDecay_ok hP tick
  · exact envSustain_ok hP tick
  · exact envRelease_ok hP tick

theorem envDecay_frame (P : ParamFile) (v : Voice) : (envDecay P v).note = v.note ∧ (envDecay P v).acc = v.acc := by
  unfold envDecay
  simp only
  split <;> exact ⟨rfl, rfl⟩

theorem envAttack_frame (P : ParamFile) (v : Voice) :
    (envAttack P v).note = v.note ∧ (envAttack P v).acc = v.acc := by
  unfold envAttack
  simp only
  split
  · exact envDecay_frame P _
  · exact ⟨rfl, rfl⟩

theorem envRelease_frame (P : ParamFile) (v : Voice) :
    (envRelease P v).note = v.note ∧ (envRelease P v).acc = v.acc := by
  unfold envRelease
  simp only
  split <;> exact ⟨rfl, rfl⟩

/-- EnvAdvance leaves note and accumulators alone. -/
theorem envAdvance_frame (P : ParamFile) (d : F32) (v : Voice) :
    (envAdvance P d v).note = v.note ∧ (envAdvance P d v).acc = v.acc := by
  unfold envAdvance
  split
  · exact ⟨rfl, rfl⟩
  · exact envAttack_frame P _
  · exact envDecay_frame P _
  · exact ⟨rfl, rfl⟩
  · exact envRelease_frame P _

/-! ### GATEON and GATEOFF -/

theorem velOf_within (imm : BitVec 16) : within F32.zero one (velOf imm) = true := by
  have hi := imm.isLt
  obtain ⟨nf, nv⟩ := ofNat_exact (n := imm.toNat) (by omega)
  obtain ⟨df, dv⟩ := ofNat_exact (n := 65535) (by decide)
  exact within_div (by decide) (by decide) nf df (by rw [dv]; norm_num)
    (by rw [fix_zero, nv]; omega) (by rw [fix_one, nv, dv]; omega)

theorem noteOf_within {raw : F32} (h : raw.isNaN = false) : within F32.zero ⟨0x42FE0000#32⟩ (noteOf raw) = true := by
  have h127 : dec 127 1 = ⟨0x42FE0000#32⟩ := by decide +kernel
  rw [noteOf, h127]
  exact within_clampf h (by decide)

theorem gatedOn_ok {vel note : F32} (hv : within F32.zero one vel = true)
    (hn : within F32.zero ⟨0x42FE0000#32⟩ note = true) : (gatedOn vel note).Ok :=
  { level := within_zero_one_zero, relStart := within_zero_one_zero, vel := hv, note := hn, time := le_zero_zero }

/-- Accumulators after GATEON are +0.0. -/
theorem gatedOn_accOk (vel note : F32) : (gatedOn vel note).AccOk := by
  have hz : inPhase F32.zero = true := by decide
  intro slot k
  simp [gatedOn, Voice.reset, hz]

theorem gatedOff_ok (hv : v.Ok) : (gatedOff v).Ok := by
  unfold gatedOff
  split
  · exact hv
  all_goals exact { hv with relStart := hv.level, time := le_zero_zero }

@[simp] theorem gatedOff_acc (v : Voice) : (gatedOff v).acc = v.acc := by
  unfold gatedOff
  split <;> rfl

end Sys2Proof.Machine
end

section
/-! SUPPORT. The oscillators' phases: for legal registers the operand of F_exp2 lies in [−8, 8], so while no frequency
overflows every accumulator advances from a phase to a phase; and the accumulation pass applies this to every voice
(41_voice.md R124 to R127, 42_render.md R162). -/

namespace Sys2Proof.Machine
open F32 Consts

/-! ### The frequency of a unison voice -/

/-- The unison offsets lie in [−1, 1] (41_voice.md R125). -/
theorem unisonOffset_within {U k : Nat} (h : k < U) : within negOne one (unisonOffset U k) = true := by
  unfold unisonOffset
  split
  · decide
  · exact ofRat_within (by omega) (by omega)

/-- What slot s's registers hold that a frequency is made of. -/
structure PitchOk (P : ParamFile) (s : Nat) : Prop where
  pitch : within (ofInt (-24)) (ofInt 24) (par P (Reg.oscPitch s)) = true
  detune : within (ofInt (-1)) (ofInt 1) (par P (Reg.oscDetune s)) = true
  spread : within F32.zero one (par P (Reg.oscSpread s)) = true

theorem ParamFile.Legal.pitchOk {P : ParamFile} (h : P.Legal) (s : Fin 4) : PitchOk P s := by
  have hk : ∀ s : Fin 4, kindOf? (Reg.oscPitch s) = some (.cont (ofInt (-24)) (ofInt 24))
      ∧ kindOf? (Reg.oscDetune s) = some (.cont (ofInt (-1)) (ofInt 1))
      ∧ kindOf? (Reg.oscSpread s) = some (.cont F32.zero one) := by decide +kernel
  exact ⟨h.par_within (hk s).1, h.par_within (hk s).2.1, h.par_within (hk s).2.2⟩

/-- The base pitch, note + pitch + detune, lies in [−25, 152]. -/
theorem base_within {P : ParamFile} {s : Nat} (h : PitchOk P s) {note : F32}
    (hn : within F32.zero ⟨0x42FE0000#32⟩ note = true) :
    within (ofInt (-25)) (ofInt 152) (add (add note (par P (Reg.oscPitch s))) (par P (Reg.oscDetune s))) = true := by
  have h0 : F32.zero = ofInt 0 := by decide +kernel
  have h127 : (⟨0x42FE0000#32⟩ : F32) = ofInt 127 := by decide +kernel
  rw [h0, h127] at hn
  have hp := within_ofInt_add (l := -24) (h := 151) hn h.pitch (by decide) (by decide) (by decide)
  exact within_ofInt_add hp h.detune (by decide) (by decide) (by decide)

/-- The detune of a unison voice lies in [−1, 1]. -/
theorem detune_within {P : ParamFile} {s U k : Nat} (h : PitchOk P s) (hk : k < U) :
    within (ofInt (-1)) (ofInt 1) (mul (mul (par P (Reg.oscSpread s)) (unisonOffset U k)) unisonSpan) = true := by
  have hspan : unisonSpan = one := by decide +kernel
  have hm1 : ofInt (-1) = negOne := by decide +kernel
  have h1 : ofInt 1 = one := by decide +kernel
  obtain ⟨fa, a0, a1⟩ := within_negOne_one_iff.1 (mul_within_unit h.spread (unisonOffset_within hk))
  rw [hspan, hm1, h1]
  exact within_mul (by decide) (by decide) fa (by decide) (by rw [fix_negOne, fix_one]; omega)
    (by rw [fix_one]; omega)

/-- The operand of F_exp2 lies in [−8, 8]. -/
theorem semitones_within {base vd : F32} (hb : within (ofInt (-25)) (ofInt 152) base = true)
    (hv : within (ofInt (-1)) (ofInt 1) vd = true) :
    within (ofInt (-8)) (ofInt 8) (div (sub (add base vd) (dec 69 1)) (dec 12 1)) = true := by
  have hdec (n : Int) : dec n 1 = ofInt n := rfl
  rw [hdec, hdec]
  have fi {n : Int} (h : n.natAbs < 16777216) := ofInt_exact (exact_int h)
  obtain ⟨fl, vl⟩ := fi (n := -95) (by decide)
  obtain ⟨fh, vh⟩ := fi (n := 84) (by decide)
  obtain ⟨f69, v69⟩ := fi (n := 69) (by decide)
  obtain ⟨f12, v12⟩ := fi (n := 12) (by decide)
  obtain ⟨fm, vm⟩ := fi (n := -8) (by decide)
  obtain ⟨f8, v8⟩ := fi (n := 8) (by decide)
  obtain ⟨fa, a0, a1⟩ := (within_ofInt_iff (by decide) (by decide)).1
    (within_ofInt_add (l := -26) (h := 153) hb hv (by decide) (by decide) (by decide))
  have hrel : within (ofInt (-95)) (ofInt 84) (sub (add base vd) (ofInt 69)) = true :=
    within_sub fl fh fa f69 (by rw [vl, v69]; omega) (by rw [vh, v69]; omega)
  obtain ⟨fs, s0, s1⟩ := (within_ofInt_iff (by decide) (by decide)).1 hrel
  exact within_div fm f8 fs f12 (by rw [v12]; norm_num) (by rw [vm, v12]; omega) (by rw [v8, v12]; omega)

/-- While no frequency overflows, the frequency of every operand in [−8, 8] is finite and at least 0. -/
theorem freq_nonneg {base vd : F32} (hno : ¬ FreqOverflows) (hb : within (ofInt (-25)) (ofInt 152) base = true)
    (hv : within (ofInt (-1)) (ofInt 1) vd = true) : (freq base vd).isFinite = true ∧ 0 ≤ (freq base vd).fix := by
  have h440 : dec 440 1 = ⟨0x43DC0000#32⟩ := by decide +kernel
  have hx := semitones_within hb hv
  obtain ⟨xf, -, -⟩ := (within_ofInt_iff (by decide) (by decide)).1 hx
  have h8 : ofInt 8 = ⟨0x41000000#32⟩ := by decide +kernel
  have hm8 : ofInt (-8) = negate ⟨0x41000000#32⟩ := by decide +kernel
  rw [h8, hm8] at hx
  have habs := abs_le_of_within hx
  have hp := posFinite_fExp2 xf habs
  rw [posFinite, Bool.and_eq_true] at hp
  unfold freq
  rw [h440]
  have hfin : (mul ⟨0x43DC0000#32⟩ (fExp2 (div (sub (add base vd) (dec 69 1)) (dec 12 1)))).isFinite = true := by
    by_contra hc
    exact hno ⟨_, xf, habs, by simpa using hc⟩
  refine ⟨hfin, ?_⟩
  exact fix_mul_nonneg (by decide) hp.1 (by decide) (fix_nonneg_of_le (lt_imp_le hp.2))

/-! ### The accumulators -/

variable {P : ParamFile} {fs : Nat}

/-- The unison voices processed are those below U. -/
theorem lt_of_mem_unisonIds {U : Nat} {k : Fin 8} (h : k ∈ unisonIds.take U) : k.val < U := by
  obtain ⟨i, hi, rfl⟩ := List.mem_take_iff_getElem.1 h
  have hid : ∀ i (h : i < 8), (unisonIds[i]'h).val = i := by decide
  obtain ⟨hU, h8⟩ := lt_min_iff.1 hi
  exact (hid i h8).trans_lt hU

/-- A phase advanced by a finite frequency that is at least 0 is a phase (41_voice.md R127). -/
theorem inPhase_advancePhase (h₁ : 1 ≤ fs) (h₂ : fs < 16777216) {acc f : F32} (ha : inPhase acc = true)
    (hf : f.isFinite = true) (h0 : 0 ≤ f.fix) : inPhase (advancePhase fs acc f) = true := by
  obtain ⟨df, d0⟩ := div_fsf h₁ h₂ hf h0
  exact (frac_add_phase ha df d0).1

/-- One unison voice keeps every accumulator of the slot a phase. -/
theorem unisonStep_phases (hno : ¬ FreqOverflows) (h₁ : 1 ≤ fs) (h₂ : fs < 16777216) {s U : Nat} (hs : PitchOk P s)
    {base : F32} (hb : within (ofInt (-25)) (ofInt 152) base = true) {st : OscLoop} {k : Fin 8} (hk : k.val < U)
    (h : ∀ j : Fin 8, inPhase st.acc[j] = true) (j : Fin 8) :
    inPhase (unisonStep P fs s U base st k).acc[j] = true := by
  obtain ⟨ff, f0⟩ := freq_nonneg hno hb (detune_within hs hk)
  have hadv := inPhase_advancePhase h₁ h₂ (h k) ff f0
  simp only [unisonStep]
  by_cases hj : k = j
  · subst hj; simpa using hadv
  · simpa [Fin.val_ne_of_ne hj] using h j

/-- The loop over unison voices below U keeps every accumulator of the slot a phase. -/
theorem unisonLoop_phases (hno : ¬ FreqOverflows) (h₁ : 1 ≤ fs) (h₂ : fs < 16777216) {s U : Nat} (hs : PitchOk P s)
    {base : F32} (hb : within (ofInt (-25)) (ofInt 152) base = true) {ks : List (Fin 8)}
    (hks : ∀ k ∈ ks, k.val < U) {st : OscLoop} (h : ∀ j : Fin 8, inPhase st.acc[j] = true) :
    ∀ j : Fin 8, inPhase (ks.foldl (unisonStep P fs s U base) st).acc[j] = true := by
  induction ks generalizing st with
  | nil => exact h
  | cons k ks ih =>
    obtain ⟨hk, hks⟩ := List.forall_mem_cons.1 hks
    exact ih hks (unisonStep_phases hno h₁ h₂ hs hb hk h)

/-- An oscillator slot keeps its accumulators phases. -/
theorem oscProcess_phases (hno : ¬ FreqOverflows) (h₁ : 1 ≤ fs) (h₂ : fs < 16777216) {s : Nat} (hs : PitchOk P s)
    {note : F32} (hn : within F32.zero ⟨0x42FE0000#32⟩ note = true) {acc : Vector F32 8} (d : Nat)
    (h : ∀ j : Fin 8, inPhase acc[j] = true) : ∀ j : Fin 8, inPhase (oscProcess P fs s note acc d).2.1[j] = true :=
  unisonLoop_phases hno h₁ h₂ hs (base_within hs hn) (fun _ => lt_of_mem_unisonIds) h

/-- One oscillator slot of a voice keeps every accumulator of the voice a phase. -/
theorem slotStep_phases (hno : ¬ FreqOverflows) (hP : P.Legal) (h₁ : 1 ≤ fs) (h₂ : fs < 16777216) {note : F32}
    (hn : within F32.zero ⟨0x42FE0000#32⟩ note = true) {st : SlotLoop} (s : Fin 4)
    (h : ∀ (i : Fin 4) (j : Fin 8), inPhase st.acc[i][j] = true) (i : Fin 4) (j : Fin 8) :
    inPhase (slotStep P fs note st s).acc[i][j] = true := by
  simp only [slotStep]
  by_cases hi : s = i
  · subst hi
    simpa using oscProcess_phases hno h₁ h₂ (hP.pitchOk s) hn st.draws (h s) j
  · simpa [Fin.val_ne_of_ne hi] using h i j

/-- The loop over oscillator slots keeps every accumulator of the voice a phase. -/
theorem slotLoop_phases (hno : ¬ FreqOverflows) (hP : P.Legal) (h₁ : 1 ≤ fs) (h₂ : fs < 16777216) {note : F32}
    (hn : within F32.zero ⟨0x42FE0000#32⟩ note = true) (ss : List (Fin 4)) {st : SlotLoop}
    (h : ∀ (i : Fin 4) (j : Fin 8), inPhase st.acc[i][j] = true) :
    ∀ (i : Fin 4) (j : Fin 8), inPhase (ss.foldl (slotStep P fs note) st).acc[i][j] = true := by
  induction ss generalizing st with
  | nil => exact h
  | cons s ss ih => exact ih (slotStep_phases hno hP h₁ h₂ hn s h)

/-- A voice's frame keeps its ranges. -/
theorem voiceFrame_ok (hP : EnvOk P) (h₁ : 1 ≤ fs) (h₂ : fs < 16777216) {v : Voice} (d : Nat) (hv : v.Ok) :
    (voiceFrame P fs v d).1.Ok := by
  obtain ⟨df, d0⟩ := dt_nonneg h₁ h₂
  have h := envAdvance_ok hP df d0 hv
  exact ⟨h.level, h.relStart, h.vel, h.note, h.time⟩

/-- A voice's frame keeps its accumulators phases, while no frequency overflows. -/
theorem voiceFrame_accOk (hno : ¬ FreqOverflows) (hP : P.Legal) (h₁ : 1 ≤ fs) (h₂ : fs < 16777216) {v : Voice}
    (d : Nat) (hv : v.Ok) (ha : v.AccOk) : (voiceFrame P fs v d).1.AccOk := by
  obtain ⟨hnote, hacc⟩ := envAdvance_frame P (dt fs) v
  have hn : within F32.zero ⟨0x42FE0000#32⟩ (envAdvance P (dt fs) v).note = true := hnote ▸ hv.note
  exact slotLoop_phases hno hP h₁ h₂ hn slotIds (st := ⟨_, _, _⟩) (by rw [hacc]; exact ha)

/-! ### The accumulation pass -/

/-- A property of voices that every frame of a voice keeps is kept by a frame of the pass. -/
theorem accFrame_keeps {Q : Voice → Prop} (hQ : ∀ v d, Q v → Q (voiceFrame P fs v d).1) {vs : List Voice}
    (sum : Stereo F32) (d : Nat) (h : ∀ v ∈ vs, Q v) : ∀ v ∈ (accFrame P fs vs sum d).voices, Q v := by
  induction vs generalizing sum d with
  | nil => exact h
  | cons x xs ih =>
    obtain ⟨hx, hxs⟩ := List.forall_mem_cons.1 h
    unfold accFrame
    split
    · exact List.forall_mem_cons.2 ⟨hx, ih _ _ hxs⟩
    · exact List.forall_mem_cons.2 ⟨hQ x d hx, ih _ _ hxs⟩

/-- A property of voices that every frame of a voice keeps is kept by the whole pass. -/
theorem accumulate_keeps {Q : Voice → Prop} (hQ : ∀ v d, Q v → Q (voiceFrame P fs v d).1) (n : Nat) {vs : List Voice}
    (d : Nat) (h : ∀ v ∈ vs, Q v) : ∀ v ∈ (accumulate P fs n vs d).voices, Q v := by
  induction n generalizing vs d with
  | zero => exact h
  | succ n ih => exact ih _ (accFrame_keeps hQ _ _ h)

end Sys2Proof.Machine
end

section
/-! SUPPORT. The output side of the invariant: the auto-gain multiplier in its bounds, the free-running phases, the
memories of the stages and OUTBUF, and the reserved bits of STATUS (42_render.md R164, R178, 10_state.md R37, R43 to
R48, 20_memory.md R73). -/

namespace Sys2Proof.Machine
open F32 Consts

/-! ### Auto-gain -/

/-- The gain auto-gain aims at lies in its bounds, if the present one does. -/
theorem autoGainDesired_within {P : ParamFile} (hP : P.Legal) (lv : Levels) {ag : F32}
    (h : within agMin agMax ag = true) : within agMin agMax (autoGainDesired P lv ag) = true := by
  unfold autoGainDesired
  split
  swap
  · exact h
  rename_i hrms
  obtain ⟨t0, t1⟩ := Bool.and_eq_true_iff.1 (hP.par_within (id := Reg.autogainTarget) (lo := dec (-40) 1)
    (hi := dec 0 1) (by decide +kernel))
  have hgain := posFinite_dbToGain (le_trans_of (by decide +kernel) t0) (le_trans_of t1 (by decide +kernel))
  rw [posFinite, Bool.and_eq_true] at hgain
  have hdes := isNaN_div_of_pos hgain.1 (lt_trans_of (b := agFloor) (by decide +kernel) hrms)
  refine within_clampf ?_ (by decide +kernel)
  split
  · rename_i hpeak
    exact isNaN_minf hdes (isNaN_div_of_pos (by decide) (lt_trans_of (b := meterFloor) (by decide +kernel) hpeak))
  · exact hdes

/-- AutoGainUpdate keeps the multiplier in its bounds (R164). -/
theorem autoGainUpdate_within {P : ParamFile} (hP : P.Legal) (lv : Levels) {ag : F32}
    (h : within agMin agMax ag = true) : within agMin agMax (autoGainUpdate P lv ag) = true := by
  have fmin : agMin.isFinite = true := by decide +kernel
  have fmax : agMax.isFinite = true := by decide +kernel
  unfold autoGainUpdate
  split
  · obtain ⟨fag, -, -⟩ := (within_iff fmin fmax).1 h
    obtain ⟨fdes, -, -⟩ := (within_iff fmin fmax).1 (autoGainDesired_within hP lv h)
    obtain ⟨fdelta, -, -⟩ := (within_iff (by decide +kernel) (by decide +kernel)).1
      (within_clampf (isNaN_sub fdes fag) (lo := sub F32.zero agStep) (hi := agStep) (by decide +kernel))
    exact within_clampf (isNaN_add fag fdelta) (by decide +kernel)
  · decide +kernel

/-! ### The output pass -/

variable {P : ParamFile} {fs : Nat}

/-- A property of the chain that every output frame keeps is kept by the output pass. -/
theorem outputPass_keeps {Q : Chain → Prop} {ag : F32} (hQ : ∀ c x, Q c → Q (outputFrame P fs ag c x).1)
    (xs : List (Stereo F32)) {c : Chain} (h : Q c) : Q (outputPass P fs ag xs c).1 := by
  induction xs generalizing c with
  | nil => exact h
  | cons x xs ih => exact ih (hQ c x h)

/-- Both free-running phases of the chain lie in [0, 1). -/
abbrev Chain.PhasesOk (c : Chain) : Prop := inPhase c.ringPh = true ∧ inPhase c.flanger.ph = true

/-- A register that holds a finite number ≥ 0 advances a phase to a phase. -/
theorem inPhase_advance_par (hP : P.Legal) (h₁ : 1 ≤ fs) (h₂ : fs < 16777216) {id : Nat} {lo hi : F32}
    (hk : kindOf? id = some (.cont lo hi)) (hl : lo.isFinite = true) (hh : hi.isFinite = true) (h0 : 0 ≤ lo.fix)
    {ph : F32} (h : inPhase ph = true) : inPhase (frac (add ph (div (par P id) (fsf fs)))) = true := by
  obtain ⟨ff, f0, -⟩ := (within_iff hl hh).1 (hP.par_within hk)
  exact inPhase_advancePhase h₁ h₂ h ff (h0.trans f0)

theorem ringMod_phase (hP : P.Legal) (h₁ : 1 ≤ fs) (h₂ : fs < 16777216) {ph : F32} (x : Stereo F32)
    (h : inPhase ph = true) : inPhase (ringMod P fs ph x).1 = true := by
  unfold ringMod
  split
  · exact inPhase_advance_par hP h₁ h₂ (lo := dec 0 1) (hi := dec 20000 1) (by decide +kernel) (by decide +kernel)
      (by decide +kernel) (by decide +kernel) h
  · exact h

theorem flanger_phase (hP : P.Legal) (h₁ : 1 ≤ fs) (h₂ : fs < 16777216) {st : FlangerState} (x : Stereo F32)
    (h : inPhase st.ph = true) : inPhase (flanger P fs st x).1.ph = true := by
  unfold flanger
  split
  · exact inPhase_advance_par hP h₁ h₂ (lo := dec 5 100) (hi := dec 5 1) (by decide +kernel) (by decide +kernel)
      (by decide +kernel) (by decide +kernel) h
  · exact h

theorem outputFrame_phasesOk (hP : P.Legal) (h₁ : 1 ≤ fs) (h₂ : fs < 16777216) (ag : F32) (c : Chain) (x : Stereo F32)
    (h : c.PhasesOk) : (outputFrame P fs ag c x).1.PhasesOk :=
  ⟨ringMod_phase hP h₁ h₂ _ h.1, flanger_phase hP h₁ h₂ _ h.2⟩

/-- Every memory of the chain is canonical and inside its size, every circular index inside its buffer. -/
structure Chain.MemOk (fs : Nat) (c : Chain) : Prop where
  dly : ∀ ch, Memory.within (Config.dbuf fs) (c.delay.dly.get ch) = true
  delayW : c.delay.w < Config.dbuf fs
  flb : ∀ ch, Memory.within (Config.lf fs) (c.flanger.flb.get ch) = true
  flangerW : c.flanger.w < Config.lf fs
  reverb : ∀ ch, ReverbChan.Ok fs ch (c.reverb.get ch)

theorem reverbChan_ok {ch : Chan} {st : ReverbChan} (x : F32) (h : ReverbChan.Ok fs ch st) :
    ReverbChan.Ok fs ch (reverbChan P fs ch st x).1 := by
  constructor
  · intro k
    match k with
    | 0 => exact combStep_ok _ _ (h.1 0)
    | 1 => exact combStep_ok _ _ (h.1 1)
    | 2 => exact combStep_ok _ _ (h.1 2)
    | 3 => exact combStep_ok _ _ (h.1 3)
  · intro j
    match j with
    | 0 => exact allpassStep_ok _ (h.2 0)
    | 1 => exact allpassStep_ok _ (h.2 1)

theorem reverb_ok {st : Stereo ReverbChan} (x : Stereo F32) (h : ∀ ch, ReverbChan.Ok fs ch (st.get ch)) (ch : Chan) :
    ReverbChan.Ok fs ch ((reverb P fs st x).1.get ch) := by
  unfold reverb
  split
  · cases ch
    · exact reverbChan_ok _ (h .L)
    · exact reverbChan_ok _ (h .R)
  · exact h ch

theorem outputFrame_memOk (ag : F32) (c : Chain) (x : Stereo F32) (h : c.MemOk fs) :
    (outputFrame P fs ag c x).1.MemOk fs := by
  obtain ⟨fm, fw⟩ := flanger_within (P := P) (filter P fs (c.filter, c.fltReset)
    (ringMod P fs c.ringPh (master P fs ag (c.comp, c.dc) x).2).2).2 h.flb h.flangerW
  obtain ⟨dm, dw⟩ := delay_within (P := P) (flanger P fs c.flanger (filter P fs (c.filter, c.fltReset)
    (ringMod P fs c.ringPh (master P fs ag (c.comp, c.dc) x).2).2).2).2 h.dly h.delayW
  exact ⟨dm, dw, fm, fw, reverb_ok _ h.reverb⟩

/-! ### OUTBUF -/

/-- Writing a number in [−1, 1] leaves a memory of such numbers one. -/
theorem inUnit_writeF {m : Mem} (hw : Memory.wf m = true) (h : ∀ a, inUnit (Memory.readF m a) = true) (b : Nat)
    {x : F32} (hx : inUnit x = true) (a : Nat) : inUnit (Memory.readF (Memory.writeF m b x) a) = true := by
  by_cases hab : a = b
  · subst hab
    rw [Memory.readF, Memory.writeF, Memory.read_write_same hw]
    exact hx
  · rw [Memory.readF, Memory.writeF, Memory.read_write_ne m _ hab]
    exact h a

theorem inUnit_writeFrames {m : Mem} (hw : Memory.wf m = true) (h : ∀ a, inUnit (Memory.readF m a) = true) (i : Nat)
    {xs : List (Stereo F32)} (hx : ∀ y ∈ xs, inUnit y.l = true ∧ inUnit y.r = true) :
    ∀ a, inUnit (Memory.readF (writeFrames m i xs) a) = true := by
  induction xs generalizing m i with
  | nil => exact h
  | cons x xs ih =>
    obtain ⟨⟨hl, hr⟩, hxs⟩ := List.forall_mem_cons.1 hx
    have w1 : Memory.wf (Memory.writeF m (2 * i) x.l) = true := Memory.wf_write hw _ _
    exact ih (Memory.wf_write w1 _ _) (inUnit_writeF w1 (inUnit_writeF hw h _ hl) _ hr) _ hxs

/-! ### STATUS -/

theorem setFlag_reserved {st : Word} (h : st &&& ~~~flagBits = 0) (f : Flag) : setFlag st f &&& ~~~flagBits = 0 := by
  have hf : f.mask &&& ~~~flagBits = 0 := by cases f <;> decide
  rw [setFlag, BitVec.and_comm, BitVec.and_or_distrib_left, BitVec.and_comm, h, BitVec.and_comm, hf]
  rfl

theorem clearFlags_reserved (st mask : Word) : clearFlags st mask &&& ~~~flagBits = 0 := by
  have hf : flagBits &&& ~~~flagBits = 0 := by decide
  rw [clearFlags, BitVec.and_assoc, hf]
  exact BitVec.and_zero

/-! ### Every change keeps the parts of the invariant -/

variable {s t : State}

theorem Change.statusOk (h : Change s t) (hs : s.StatusOk) : t.StatusOk := by
  cases h with
  | flag f => exact setFlag_reserved hs f
  | clear m => exact clearFlags_reserved _ m
  | render =>
    rw [State.StatusOk, State.render_status]
    split
    · exact setFlag_reserved hs _
    · exact hs
  | _ => exact hs

theorem Change.agOk (h : Change s t) (hr : s.RegsLegal) (hs : s.AgOk) : t.AgOk := by
  cases h with
  | render =>
    rw [State.AgOk, State.render_ag, ← Bool.and_eq_true]
    exact autoGainUpdate_within hr _ (Bool.and_eq_true_iff.2 hs)
  | _ => exact hs

theorem Change.memoriesOk (h : Change s t) (hs : s.MemoriesOk) : t.MemoriesOk := by
  cases h with
  | @render n _ hn =>
    obtain ⟨ho, hd, hdw, hf, hfw, hr⟩ := hs
    have hc : (s.outputOf n).1.MemOk s.cfg.fs :=
      outputPass_keeps (outputFrame_memOk _) _ (c := s.chain) ⟨hd, hdw, hf, hfw, hr⟩
    exact ⟨within_writeFrames ho 0 _ (by rw [outputPass_length, accumulate_frames_length]; omega), hc.dly,
      hc.delayW, hc.flb, hc.flangerW, hc.reverb⟩
  | _ => exact hs

theorem Change.outOk (h : Change s t) (hw : Memory.wf s.outbuf = true) (hs : s.OutOk) : t.OutOk := by
  cases h with
  | render => exact inUnit_writeFrames hw hs 0 (outputPass_inUnit _ _ _ _ _)
  | _ => exact hs

/-- FSf and DT are in range for every sample rate that R5 admits. -/
theorem admissible_fs_range {c : Cfg} (h : c.Admissible) : 1 ≤ c.fs ∧ c.fs < 16777216 := by
  obtain ⟨h1, h2, -, -⟩ := h
  exact ⟨by omega, by omega⟩

theorem Change.phasesOk (h : Change s t) (hc : s.cfg.Admissible) (hr : s.RegsLegal)
    (hs : inPhase s.ringPh = true ∧ inPhase s.flanger.ph = true) :
    inPhase t.ringPh = true ∧ inPhase t.flanger.ph = true := by
  obtain ⟨h₁, h₂⟩ := admissible_fs_range hc
  cases h with
  | render => exact outputPass_keeps (Q := Chain.PhasesOk) (outputFrame_phasesOk hr h₁ h₂ _) _ (c := s.chain) hs
  | _ => exact hs

/-- A property of voices that GATEON establishes, and that GATEOFF and a voice's frame keep, holds of all voices after
every change. -/
theorem Change.voices_keep {Q : Voice → Prop} (h : Change s t)
    (hon : ∀ {vel note}, within F32.zero one vel = true → within F32.zero ⟨0x42FE0000#32⟩ note = true →
      Q (gatedOn vel note))
    (hoff : ∀ v, Q v → Q (gatedOff v)) (hframe : ∀ v d, Q v → Q (voiceFrame s.regs s.cfg.fs v d).1)
    (hs : ∀ v ∈ s.voices, Q v) : ∀ v ∈ t.voices, Q v := by
  cases h with
  | gateOn vel _ hn =>
    intro x hx
    rcases List.mem_or_eq_of_mem_set hx with hx | rfl
    · exact hs x hx
    · exact hon (velOf_within vel) (noteOf_within hn)
  | gateOff hv =>
    intro x hx
    rcases List.mem_or_eq_of_mem_set hx with hx | rfl
    · exact hs x hx
    · exact hoff _ (hs _ (List.mem_of_getElem? hv))
  | render => exact accumulate_keeps hframe _ _ hs
  | _ => exact hs

theorem Change.voicesOk (h : Change s t) (hc : s.cfg.Admissible) (hr : s.RegsLegal) (hs : ∀ v ∈ s.voices, v.Ok) :
    ∀ v ∈ t.voices, v.Ok := by
  obtain ⟨h₁, h₂⟩ := admissible_fs_range hc
  exact h.voices_keep gatedOn_ok (fun _ => gatedOff_ok)
    (fun _ d => voiceFrame_ok (ParamFile.Legal.envOk hr) h₁ h₂ d) hs

theorem Change.accOk (h : Change s t) (hno : ¬ FreqOverflows) (hc : s.cfg.Admissible) (hr : s.RegsLegal)
    (hs : ∀ v ∈ s.voices, v.Ok) (ha : ∀ v ∈ s.voices, v.AccOk) : ∀ v ∈ t.voices, v.AccOk := by
  obtain ⟨h₁, h₂⟩ := admissible_fs_range hc
  have both := h.voices_keep (Q := fun v => v.Ok ∧ v.AccOk)
    (fun hv hn => ⟨gatedOn_ok hv hn, gatedOn_accOk _ _⟩)
    (fun v hv => ⟨gatedOff_ok hv.1, by rw [Voice.AccOk, gatedOff_acc]; exact hv.2⟩)
    (fun v d hv => ⟨voiceFrame_ok (ParamFile.Legal.envOk hr) h₁ h₂ d hv.1,
      voiceFrame_accOk hno hr h₁ h₂ d hv.1 hv.2⟩)
    (fun v hv => ⟨hs v hv, ha v hv⟩)
  exact fun v hv => (both v hv).2

/-- Every change keeps the invariant. -/
theorem Change.inv (h : Change s t) (hs : s.Inv) : t.Inv := by
  obtain ⟨hcfg, hnv⟩ := h.config_eq
  have hphases := h.phasesOk hs.config.1 hs.regs ⟨hs.ringPh, hs.flPh⟩
  exact {
    config := by rw [State.ConfigOk, hcfg, hnv]; exact hs.config
    regs := h.regsLegal hs.regs
    mem := h.memoriesOk hs.mem
    status := h.statusOk hs.status
    out := h.outOk (Bool.and_eq_true_iff.1 hs.mem.1).1 hs.out
    ag := h.agOk hs.regs hs.ag
    ringPh := hphases.1
    flPh := hphases.2
    voices := h.voicesOk hs.config.1 hs.regs hs.voices
    acc := by
      by_cases hno : FreqOverflows
      · exact .inl hno
      · exact .inr (h.accOk hno hs.config.1 hs.regs hs.voices (hs.acc.resolve_left hno)) }

/-- The invariant looks at neither port nor count. -/
theorem State.Inv.of_eq {s' : State} (hs : s.Inv) (ws : List Cmd) (n : BitVec 64)
    (h : s' = { s with port := ws, cmdidx := n }) : s'.Inv := by
  subst h
  exact ⟨hs.config, hs.regs, hs.mem, hs.status, hs.out, hs.ag, hs.ringPh, hs.flPh, hs.voices, hs.acc⟩

/-! ### Reset -/

theorem msToFrames_pos {tenths fs : Nat} (ht : 17 ≤ tenths) (hfs : 8000 ≤ fs) : 0 < Config.msToFrames tenths fs := by
  have : 17 * 8000 ≤ tenths * fs := Nat.mul_le_mul ht hfs
  unfold Config.msToFrames
  omega

theorem combLen_pos {fs : Nat} (hfs : 8000 ≤ fs) (ch : Chan) (k : Fin 4) : 0 < Config.combLen fs ch k := by
  have ht : ∀ k, 17 ≤ Config.combTenths k := by decide
  have h := msToFrames_pos (ht k) hfs
  cases ch
  · exact h
  · exact h.trans_le (Nat.le_add_right _ _)

theorem allpassLen_pos {fs : Nat} (hfs : 8000 ≤ fs) (ch : Chan) (j : Fin 2) : 0 < Config.allpassLen fs ch j := by
  have ht : ∀ j, 17 ≤ Config.allpassTenths j := by decide
  have h := msToFrames_pos (ht j) hfs
  cases ch
  · exact h
  · exact h.trans_le (Nat.le_add_right _ _)

theorem Line.ok_empty {len : Nat} (h : 0 < len) : Line.ok len ⟨[], 0⟩ = true := by simpa [Line.ok] using h

theorem ReverbChan.reset_ok {fs : Nat} (hfs : 8000 ≤ fs) (ch : Chan) : ReverbChan.Ok fs ch ReverbChan.reset := by
  constructor
  · intro k
    simpa [ReverbChan.reset] using Line.ok_empty (combLen_pos hfs ch k)
  · intro j
    simpa [ReverbChan.reset] using Line.ok_empty (allpassLen_pos hfs ch j)

theorem resetWith_memoriesOk {c : Cfg} (hfs : 8000 ≤ c.fs) (nv : Nat) : (State.resetWith c nv).MemoriesOk := by
  refine ⟨rfl, fun ch => ?_, ?_, fun ch => ?_, ?_, fun ch => ?_⟩
  · cases ch <;> rfl
  · show 0 < 2 * c.fs
    omega
  · cases ch <;> rfl
  · show 0 < (c.fs + 19) / 20
    omega
  · cases ch <;> exact ReverbChan.reset_ok hfs _

theorem Voice.reset_ok : Voice.reset.Ok :=
  ⟨within_zero_one_zero, within_zero_one_zero, within_zero_one_zero, by decide, le_zero_zero⟩

theorem Voice.reset_accOk : Voice.reset.AccOk := by
  unfold Voice.AccOk
  decide +kernel

theorem ParamFile.reset_legal : ParamFile.reset.Legal := by decide +kernel

/-- The invariant holds after reset for every admissible FS, MAXB and NV. -/
theorem inv_resetWith {c : Cfg} {nv : Nat} (hc : c.Admissible) (h₁ : 1 ≤ nv) (h₂ : nv ≤ 64) :
    (State.resetWith c nv).Inv := by
  have hnv : (State.resetWith c nv).nv = nv := List.length_replicate
  have hvoice : ∀ v ∈ (State.resetWith c nv).voices, v = Voice.reset := fun v hv => List.eq_of_mem_replicate hv
  exact {
    config := ⟨hc, by rw [hnv]; exact ⟨h₁, h₂⟩⟩
    regs := ParamFile.reset_legal
    mem := resetWith_memoriesOk hc.1 nv
    status := BitVec.zero_and
    out := fun _ => rfl
    ag := (by decide +kernel : le agMin one = true ∧ le one agMax = true)
    ringPh := (by decide : inPhase F32.zero = true)
    flPh := (by decide : inPhase F32.zero = true)
    voices := fun v hv => hvoice v hv ▸ Voice.reset_ok
    acc := .inr fun v hv => hvoice v hv ▸ Voice.reset_accOk }

end Sys2Proof.Machine

section
open Sys2Proof Sys2Proof.Machine

/-- Settles O25: every reset value lies in its range. -/
theorem invariantHoldsAfterReset : Obligations.InvariantHoldsAfterReset :=
  ⟨inv_resetWith (by decide) (by decide) (by decide), fun _ _ => inv_resetWith⟩

/-- Settles O26: a step is a change of a command between two updates of port and count, and each change keeps each part
of the invariant. -/
theorem stepKeepsTheInvariant : Obligations.StepKeepsTheInvariant := by
  intro s s' hs h
  exact step_keeps (Q := State.Inv) (fun s ws hs => hs.of_eq ws s.cmdidx rfl)
    (fun s hs => hs.of_eq s.port (s.cmdidx + 1) rfl) (fun s t hs ht => ht.inv hs) hs h

end
end

section
/-! SUPPORT. What leaves the count of commands alone: the commands themselves, and every register read
(10_state.md R21). -/

namespace Sys2Proof.Machine

/-- No change of a command touches the count or the port. -/
theorem Change.count_eq {s t : State} (h : Change s t) : t.cmdidx = s.cmdidx ∧ t.port = s.port := by
  cases h <;> simp

/-- A step with a word on the port takes it, makes one of the changes and counts it. -/
theorem step_change_of_cons {s s' : State} {w : Cmd} {ws : List Cmd} (hp : s.port = w :: ws)
    (h : step s = .next s') : ∃ t, Change (s.setPort ws) t ∧ s' = t.retire := by
  rcases step_cases s with ⟨hn, _⟩ | ⟨_, ws', hp', hstep⟩
  · simp [hp] at hn
  · obtain ⟨rfl, rfl⟩ := List.cons.inj (hp.symm.trans hp')
    rcases hstep with ⟨_, t, _, ht, e⟩ | ⟨r, _, e⟩ <;> rw [e] at h <;> cases h
    · exact ⟨t, exec_change ht, rfl⟩
    · exact ⟨_, .flag _, rfl⟩

/-- No register shows the count. -/
theorem readReg_cmdidx (s : State) (c : BitVec 64) (id : RegId) : readReg { s with cmdidx := c } id = readReg s id :=
  rfl

end Sys2Proof.Machine

section
open Sys2Proof Sys2Proof.Machine

/-- Settles O6: the step counts once after a change that leaves the count alone. -/
theorem cmdidxCountsEveryCommand : Obligations.CmdidxCountsEveryCommand := by
  refine ⟨fun s s' w ws hp h => ?_, fun s hp => by simp [step, fetch_nil hp], fun s t i h => (exec_change h).count_eq,
    fun _ _ => rfl, rfl, fun _ => rfl, readReg_cmdidx⟩
  obtain ⟨t, ht, rfl⟩ := step_change_of_cons hp h
  obtain ⟨hcount, hport⟩ := ht.count_eq
  exact ⟨by simp [hcount], by simp [hport]⟩

end
end

section
/-! SUPPORT. The address map: the ids of the register table are the blocks of 20_memory.md R74, and the kinds and legal
sets are those of 10_state.md R26 to R36. -/

namespace Sys2Proof

/-- An id is a parameter register exactly when the table has a row for it. -/
theorem paramIndex?_isSome_iff {id : Nat} : (paramIndex? id).isSome = true ↔ id ∈ paramTable.map (·.id) := by
  have hlt : paramTable.findIdx (fun r => r.id == id) < nParams ↔ ∃ r ∈ paramTable, r.id = id := by
    simp [← paramTable_length, List.findIdx_lt_length]
  rw [List.mem_map, ← hlt]
  unfold paramIndex?
  simp only
  split <;> rename_i h <;> simp [h]

/-- The blocks of consecutive ids in the address map, in the order of the register table: the oscillator slots and the
delay taps lie 16 ids apart (20_memory.md R74). -/
def mapIds : List Nat :=
  (List.range 4).flatMap (fun s => List.range' (0x0100 + 16 * s) 8) ++ List.range' 0x0200 4 ++ List.range' 0x0300 4
    ++ List.range' 0x0310 3 ++ List.range' 0x0320 4 ++ List.range' 0x0330 1 ++ List.range' 0x0340 2
    ++ List.range' 0x0350 2 ++ List.range' 0x0400 3 ++ List.range' 0x0500 6 ++ List.range' 0x0600 5
    ++ List.range' 0x0700 6 ++ (List.range 8).flatMap (fun t => List.range' (0x0800 + 16 * t) 3)
    ++ List.range' 0x0900 3

theorem paramTable_ids : paramTable.map (·.id) = mapIds := by decide +kernel

/-- An id lies in one of `count` blocks of `width` ids, 16 apart, exactly when its last hex digit says so. -/
theorem mem_blocks {base count width id : Nat} (hb : base % 16 = 0) (hw : width ≤ 16) :
    id ∈ (List.range count).flatMap (fun s => List.range' (base + 16 * s) width)
      ↔ base ≤ id ∧ id < base + 16 * count ∧ id % 16 < width := by
  simp only [List.mem_flatMap, List.mem_range, List.mem_range'_1]
  constructor
  · rintro ⟨s, hs, hid⟩
    omega
  · intro h
    exact ⟨(id - base) / 16, by omega⟩

namespace Machine

theorem isParamId_iff {id : Nat} : isParamId id = true ↔ id ∈ mapIds := by
  have osc := mem_blocks (base := 0x0100) (count := 4) (width := 8) (id := id) (by decide) (by decide)
  have tap := mem_blocks (base := 0x0800) (count := 8) (width := 3) (id := id) (by decide) (by decide)
  simp only [isParamId, mapIds, List.mem_append, osc, tap, List.mem_range'_1, Bool.or_eq_true, decide_eq_true_eq]
  omega

/-- The parameter registers end at 0x0902. -/
theorem isParamId_le {id : Nat} (h : isParamId id = true) : id ≤ 0x0902 := by
  simp only [isParamId, Bool.or_eq_true, decide_eq_true_eq] at h
  omega

theorem paramIndex?_isSome (id : Nat) : (paramIndex? id).isSome = isParamId id := by
  rw [Bool.eq_iff_iff, paramIndex?_isSome_iff, paramTable_ids, isParamId_iff]

end Machine
end Sys2Proof

section
open Sys2Proof Sys2Proof.Machine

/-- Settles O10: the table's ids are the blocks of the map. -/
theorem parameterIdsAreTheMap : Obligations.ParameterIdsAreTheMap := paramIndex?_isSome

/-- Settles O11: each row of the table, evaluated. -/
theorem legalSetsAreTheTables : Obligations.LegalSetsAreTheTables := by
  unfold Obligations.LegalSetsAreTheTables
  decide +kernel

end
end

section
/-! SUPPORT. The register read port: the parameter registers, the block's status registers and the four pages of
per-voice registers (20_memory.md R69, 10_state.md R37 to R39). -/

namespace Sys2Proof.Machine

/-- A parameter register answers its value. -/
theorem readReg_of_index (s : State) {id : RegId} {i : Fin nParams} (h : paramIndex? id.toNat = some i) :
    readReg s id = (s.regs[i]).bits := by
  simp [readReg, h]

/-- Every other id is answered as a status register. -/
theorem readReg_of_not_param (s : State) {id : RegId} (h : isParamId id.toNat = false) :
    readReg s id = statusReg s id.toNat := by
  rw [← paramIndex?_isSome, Option.isSome_eq_false_iff, Option.isNone_iff_eq_none] at h
  simp [readReg, h]

theorem readReg_of_ge (s : State) {id : RegId} (h : 0xF000 ≤ id.toNat) : readReg s id = statusReg s id.toNat := by
  refine readReg_of_not_param s (Bool.eq_false_iff.2 fun hp => ?_)
  have := isParamId_le hp
  omega

/-- The word that page `page` of 256 ids shows of a voice: phase, level, note, velocity, or 0 for an unmapped page
(10_state.md R39). -/
def pageField (page : Nat) : Voice → Word :=
  match page with
  | 0xF1 => fun x => BitVec.ofNat 32 x.phase.code
  | 0xF2 => fun x => x.level.bits
  | 0xF3 => fun x => x.note.bits
  | 0xF4 => fun x => x.vel.bits
  | _ => fun _ => 0

theorem pageField_unmapped {page : Nat} (h : page < 0xF1 ∨ 0xF4 < page) : pageField page = fun _ => 0 := by
  unfold pageField
  split
  case h_5 => rfl
  all_goals omega

theorem voiceReg_of_some {s : State} {v : Nat} {x : Voice} (h : s.voices[v]? = some x) (f : Voice → Word) :
    voiceReg s v f = f x := by
  simp [voiceReg, h]

theorem voiceReg_of_ge {s : State} {v : Nat} (h : s.nv ≤ v) (f : Voice → Word) : voiceReg s v f = 0 := by
  simp [voiceReg, List.getElem?_eq_none h]

theorem voiceReg_zero (s : State) (v : Nat) : voiceReg s v (fun _ => 0) = 0 := by
  unfold voiceReg
  split <;> rfl

/-- Outside the block's eleven status registers an id names a voice by its low byte and the field by its page. -/
theorem statusReg_page (s : State) {id : Nat} (h : id < 0xF000 ∨ 0xF00B ≤ id) :
    statusReg s id = voiceReg s (id % 256) (pageField (id / 256)) := by
  unfold statusReg
  split
  case h_12 =>
    generalize id / 256 = page
    split
    case h_5 n₁ n₂ n₃ n₄ =>
      have hne : page ≠ 0xF1 ∧ page ≠ 0xF2 ∧ page ≠ 0xF3 ∧ page ≠ 0xF4 := ⟨n₁, n₂, n₃, n₄⟩
      rw [pageField_unmapped (by omega), voiceReg_zero]
    all_goals rfl
  all_goals omega

/-- Slot v's register on a page of the per-voice registers. -/
theorem readReg_voice (s : State) {id : RegId} {page v : Nat} (hp : 0xF1 ≤ page) (hv : v < 256)
    (h : id.toNat = 256 * page + v) : readReg s id = voiceReg s v (pageField page) := by
  rw [readReg_of_ge s (by omega), statusReg_page s (by omega), show id.toNat % 256 = v by omega,
    show id.toNat / 256 = page by omega]

/-- A status id outside the block's registers and the four pages reads as 0. -/
theorem statusReg_unmapped (s : State) {id : Nat} (h : id < 0xF000 ∨ (0xF00B ≤ id ∧ id < 0xF100) ∨ 0xF500 ≤ id) :
    statusReg s id = 0 := by
  rw [statusReg_page s (by omega), pageField_unmapped (by omega), voiceReg_zero]

end Sys2Proof.Machine

section
open Sys2Proof Sys2Proof.Machine

/-- Settles O21: parameter registers by their index, the block's status registers each by its own case, the voices' by
page and slot. -/
theorem readPortAnswers : Obligations.ReadPortAnswers := by
  intro s id
  have status {k : RegId} (hk : 0xF000 ≤ k.toNat) (h : id = k) : readReg s id = statusReg s k.toNat := by
    rw [h, readReg_of_ge s hk]
  refine ⟨fun i h => readReg_of_index s h, status (by decide), fun h => ?_, status (by decide), status (by decide),
    status (by decide), status (by decide), status (by decide), status (by decide), status (by decide),
    status (by decide), status (by decide), fun v x hv hx => ?_, fun v hnv hv h => ?_, fun hp h => ?_, fun h₁ h₂ => ?_,
    fun h => ?_⟩
  · rw [← List.countP_eq_length_filter]
    exact status (by decide) h
  · have voice {page : Nat} (hp : 0xF1 ≤ page) (h : id.toNat = 256 * page + v) : readReg s id = pageField page x := by
      rw [readReg_voice s hp hv h, voiceReg_of_some hx]
    refine ⟨fun h => ?_, voice (page := 0xF2) (by decide), voice (page := 0xF3) (by decide),
      voice (page := 0xF4) (by decide)⟩
    rw [voice (page := 0xF1) (by decide) h]
    cases hph : x.phase <;> simp [pageField, hph, Phase.code]
  · obtain ⟨page, hp, h⟩ : ∃ page, 0xF1 ≤ page ∧ id.toNat = 256 * page + v := by
      rcases h with h | h | h | h
      · exact ⟨0xF1, by decide, h⟩
      · exact ⟨0xF2, by decide, h⟩
      · exact ⟨0xF3, by decide, h⟩
      · exact ⟨0xF4, by decide, h⟩
    rw [readReg_voice s hp hv h, voiceReg_of_ge hnv]
  · rw [readReg_of_not_param s hp, statusReg_unmapped s (.inl h)]
  · rw [readReg_of_ge s (by omega), statusReg_unmapped s (.inr (.inl ⟨h₁, h₂⟩))]
  · rw [readReg_of_ge s (by omega), statusReg_unmapped s (.inr (.inr h))]

end
end

section
/-! SUPPORT. A legal register value is a number (10_state.md R23). -/

namespace Sys2Proof.Machine
open F32

theorem not_isNaN_of_le {lo v : F32} (h : le lo v = true) : v.isNaN = false := (le_iff.1 h).2.1

/-- No legal set holds a NaN: the values of three kinds lie above a bound, and those of the fourth are 0.0 and 1.0. -/
theorem not_isNaN_of_legal {k : Kind} {v : F32} (h : Kind.legal k v = true) : v.isNaN = false := by
  cases k with
  | bool =>
    simp only [Kind.legal, Bool.or_eq_true, decide_eq_true_eq] at h
    rcases h with rfl | rfl <;> decide
  | cont =>
    obtain ⟨hlo, -⟩ := Bool.and_eq_true_iff.1 h
    exact not_isNaN_of_le hlo
  | int | enum =>
    obtain ⟨hrange, -⟩ := Bool.and_eq_true_iff.1 h
    obtain ⟨hlo, -⟩ := Bool.and_eq_true_iff.1 hrange
    exact not_isNaN_of_le hlo

end Sys2Proof.Machine

section
open Sys2Proof Sys2Proof.Machine

/-- Settles O27: each change a step can make keeps the registers legal, and no legal set holds a NaN. -/
theorem registersStayLegal : Obligations.RegistersStayLegal :=
  ⟨fun _ _ => step_keeps (Q := State.RegsLegal) (fun _ _ h => h) (fun _ h => h) (fun _ _ hs ht => ht.regsLegal hs),
    fun _ h i => not_isNaN_of_legal (h i)⟩

end
end

section
/-! SUPPORT. RENDER's answer by its length, and what it leaves of a voice and of STATUS (42_render.md R161, R176). -/

namespace Sys2Proof.Machine

variable {P : ParamFile} {fs : Nat}

/-- An accepted RENDER renders its frames. -/
theorem exec_render_of_accepts {s : State} {n : Word} (h : s.Accepts n) :
    exec (.render n) s = .next (s.render n.toNat) := by
  rcases execRender_cases n s with ⟨hn, _⟩ | ⟨_, _, e⟩
  · obtain ⟨h1, h2⟩ := h
    omega
  · exact e

/-- Any other RENDER is dropped with ERR_LEN. -/
theorem exec_render_of_not_accepts {s : State} {n : Word} (h : ¬ s.Accepts n) :
    exec (.render n) s = .next (s.raise .errLen) := by
  rcases execRender_cases n s with ⟨_, e⟩ | ⟨h1, h2, _⟩
  · exact e
  · exact absurd ⟨h1, h2⟩ h

/-! ### The voices -/

/-- What GATEON and GATEOFF give a voice and its frames only read: note, velocity and release level. -/
def Voice.operands (v : Voice) : F32 × F32 × F32 := (v.note, v.vel, v.relStart)

theorem envDecay_operands (v : Voice) : (envDecay P v).operands = v.operands := by
  unfold envDecay
  simp only
  split <;> rfl

theorem envAttack_operands (v : Voice) : (envAttack P v).operands = v.operands := by
  unfold envAttack
  simp only
  split
  · exact envDecay_operands _
  · rfl

theorem envRelease_operands (v : Voice) : (envRelease P v).operands = v.operands := by
  unfold envRelease
  simp only
  split <;> rfl

/-- EnvAdvance leaves note, velocity and release level alone. -/
theorem envAdvance_operands (d : F32) (v : Voice) : (envAdvance P d v).operands = v.operands := by
  unfold envAdvance
  split
  · rfl
  · exact envAttack_operands _
  · exact envDecay_operands _
  · rfl
  · exact envRelease_operands _

/-- What every frame of a voice leaves alone, a frame of the pass leaves alone in every slot. -/
theorem accFrame_map {α : Type} {g : Voice → α} (hg : ∀ v d, g (voiceFrame P fs v d).1 = g v) (vs : List Voice)
    (sum : Stereo F32) (d : Nat) : (accFrame P fs vs sum d).voices.map g = vs.map g := by
  induction vs generalizing sum d with
  | nil => rfl
  | cons v vs ih =>
    unfold accFrame
    split <;> simp [ih, hg]

/-- What every frame of a voice leaves alone, the whole pass leaves alone in every slot. -/
theorem accumulate_map {α : Type} {g : Voice → α} (hg : ∀ v d, g (voiceFrame P fs v d).1 = g v) (n : Nat)
    (vs : List Voice) (d : Nat) : (accumulate P fs n vs d).voices.map g = vs.map g := by
  induction n generalizing vs d with
  | zero => rfl
  | succ n ih => exact (ih _ _).trans (accFrame_map hg vs _ d)

/-- What every frame of a voice leaves alone, RENDER leaves alone in every slot, accepted or dropped. -/
theorem exec_render_voice {α : Type} {s t : State} {n : Word} {g : Voice → α}
    (hg : ∀ v d, g (voiceFrame s.regs s.cfg.fs v d).1 = g v) (h : exec (.render n) s = .next t) {v : Nat} {x : Voice}
    (hx : s.voices[v]? = some x) : ∃ y, t.voices[v]? = some y ∧ g y = g x := by
  have hmap : t.voices.map g = s.voices.map g := by
    by_cases ha : s.Accepts n
    · obtain rfl := Host.Outcome.next.inj ((exec_render_of_accepts ha).symm.trans h)
      exact accumulate_map hg _ _ _
    · obtain rfl := Host.Outcome.next.inj ((exec_render_of_not_accepts ha).symm.trans h)
      rfl
  have hv : (t.voices.map g)[v]? = some (g x) := by rw [hmap, List.getElem?_map, hx]; rfl
  rwa [List.getElem?_map, Option.map_eq_some_iff] at hv

/-! ### STATUS -/

/-- RENDER sets no flag but FLT_RESET. -/
theorem render_status_cases (s : State) (n : Nat) :
    (s.render n).status = s.status ∨ (s.render n).status = setFlag s.status .fltReset := by
  rw [State.render_status]
  split
  · exact .inr rfl
  · exact .inl rfl

/-- With the filter disabled no frame records an action of its guard. -/
theorem outputFrame_fltReset (h : isOn P Reg.filterEnable = false) (ag : F32) (c : Chain) (x : Stereo F32) :
    (outputFrame P fs ag c x).1.fltReset = c.fltReset := by
  simp [outputFrame, filter, h]

/-- With the filter disabled RENDER leaves STATUS alone. -/
theorem render_status_of_filter_off {s : State} (h : isOn s.regs Reg.filterEnable = false) (n : Nat) :
    (s.render n).status = s.status := by
  have hc : (s.outputOf n).1.fltReset = false :=
    outputPass_keeps (Q := fun c => c.fltReset = false) (fun c x hc => (outputFrame_fltReset h _ c x).trans hc) _
      (c := s.chain) rfl
  rw [State.render_status, hc]
  rfl

end Sys2Proof.Machine

section
open Sys2Proof Sys2Proof.Machine

/-- Settles O30: field by field, from what the two passes leave alone. -/
theorem renderCompletes : Obligations.RenderCompletes := by
  refine fun s n => ⟨exec_render_of_not_accepts, fun h => ⟨s.render n.toNat, exec_render_of_accepts h,
    s.render_frames _, s.render_regs _, s.render_cfg _, s.render_port _, s.render_cmdidx _, render_status_cases s _,
    fun hf => render_status_of_filter_off hf _, s.render_nv _, fun v x hx => ?_⟩⟩
  obtain ⟨y, hy, ho⟩ := exec_render_voice (g := Voice.operands) (fun v _ => envAdvance_operands _ v)
    (exec_render_of_accepts h) hx
  simp only [Voice.operands, Prod.mk.injEq] at ho
  exact ⟨y, hy, ho⟩

end
end

section
/-! SUPPORT. An accumulator beyond the unison count of its slot is inert: replacing it commutes with every loop of the
accumulation pass (10_state.md R42, 41_voice.md R124). -/

namespace Sys2Proof.Machine

variable {P : ParamFile} {fs : Nat} {slot : Fin 4} {k : Fin 8}

/-! ### One voice -/

/-- What the loop over unison voices carries, with accumulator k replaced. -/
def OscLoop.withAcc (st : OscLoop) (k : Fin 8) (z : F32) : OscLoop := { st with acc := st.acc.set k z }

/-- What the loop over oscillator slots carries, with accumulator k of one slot replaced. -/
def SlotLoop.withAcc (st : SlotLoop) (slot : Fin 4) (k : Fin 8) (z : F32) : SlotLoop :=
  { st with acc := st.acc.set slot (st.acc[slot].set k z) }

/-- A unison voice neither reads nor writes another's accumulator. -/
theorem unisonStep_withAcc {s U : Nat} {base : F32} {j : Fin 8} (hj : j ≠ k) (st : OscLoop) (z : F32) :
    unisonStep P fs s U base (st.withAcc k z) j = (unisonStep P fs s U base st j).withAcc k z := by
  have hkj : k.val ≠ j.val := fun h => hj (Fin.ext h.symm)
  simp [unisonStep, OscLoop.withAcc, hkj, Vector.set_comm _ _ hkj]

theorem unisonLoop_withAcc {s U : Nat} {base : F32} {js : List (Fin 8)} (hjs : ∀ j ∈ js, j ≠ k) (st : OscLoop)
    (z : F32) : js.foldl (unisonStep P fs s U base) (st.withAcc k z)
      = (js.foldl (unisonStep P fs s U base) st).withAcc k z := by
  induction js generalizing st with
  | nil => rfl
  | cons j js ih =>
    obtain ⟨hj, hjs⟩ := List.forall_mem_cons.1 hjs
    simp only [List.foldl_cons, unisonStep_withAcc hj, ih hjs]

/-- An oscillator slot neither reads nor writes an accumulator beyond its unison count. -/
theorem oscProcess_set {s : Nat} (hk : parNat P (Reg.oscUnison s) ≤ k.val) (note : F32) (acc : Vector F32 8) (d : Nat)
    (z : F32) : oscProcess P fs s note (acc.set k z) d
      = ((oscProcess P fs s note acc d).1, (oscProcess P fs s note acc d).2.1.set k z,
         (oscProcess P fs s note acc d).2.2) := by
  have hjs : ∀ j ∈ unisonIds.take (parNat P (Reg.oscUnison s)), j ≠ k := by
    rintro j hj rfl
    have := lt_of_mem_unisonIds hj
    omega
  have hloop := unisonLoop_withAcc (P := P) (fs := fs) (s := s) (U := parNat P (Reg.oscUnison s))
    (base := F32.add (F32.add note (par P (Reg.oscPitch s))) (par P (Reg.oscDetune s))) hjs ⟨acc, F32.zero, d⟩ z
  simp only [OscLoop.withAcc] at hloop
  simp only [oscProcess, hloop]

/-- A slot of VoiceFrame neither reads nor writes the accumulator, whichever slot it is. -/
theorem slotStep_withAcc (hk : parNat P (Reg.oscUnison slot) ≤ k.val) (note : F32) (st : SlotLoop) (s : Fin 4)
    (z : F32) : slotStep P fs note (st.withAcc slot k z) s = (slotStep P fs note st s).withAcc slot k z := by
  by_cases hs : s = slot
  · subst hs
    simp [slotStep, SlotLoop.withAcc, oscProcess_set hk]
  · have hne : slot.val ≠ s.val := fun h => hs (Fin.ext h.symm)
    simp [slotStep, SlotLoop.withAcc, hne, hne.symm, Vector.set_comm _ _ hne]

theorem envSustain_withAcc (v : Voice) (z : F32) :
    envSustain P (v.withAcc slot k z) = (envSustain P v).withAcc slot k z := rfl

theorem envDecay_withAcc (v : Voice) (z : F32) :
    envDecay P (v.withAcc slot k z) = (envDecay P v).withAcc slot k z := by
  unfold envDecay
  simp only [apply_ite (Voice.withAcc · slot k z)]
  rfl

theorem envAttack_withAcc (v : Voice) (z : F32) :
    envAttack P (v.withAcc slot k z) = (envAttack P v).withAcc slot k z := by
  unfold envAttack
  simp only [apply_ite (Voice.withAcc · slot k z), ← envDecay_withAcc]
  rfl

theorem envRelease_withAcc (v : Voice) (z : F32) :
    envRelease P (v.withAcc slot k z) = (envRelease P v).withAcc slot k z := by
  unfold envRelease
  simp only [apply_ite (Voice.withAcc · slot k z)]
  rfl

/-- EnvAdvance looks at no accumulator. -/
theorem envAdvance_withAcc (d : F32) (v : Voice) (z : F32) :
    envAdvance P d (v.withAcc slot k z) = (envAdvance P d v).withAcc slot k z := by
  have hphase : (v.withAcc slot k z).phase = v.phase := rfl
  have htick : envTick d (v.withAcc slot k z) = (envTick d v).withAcc slot k z := rfl
  cases hp : v.phase
  · simp only [envAdvance, hphase, hp]; rfl
  · simp only [envAdvance, hphase, hp, htick, envAttack_withAcc]
  · simp only [envAdvance, hphase, hp, htick, envDecay_withAcc]
  · simp only [envAdvance, hphase, hp, htick, envSustain_withAcc]
  · simp only [envAdvance, hphase, hp, htick, envRelease_withAcc]

/-- A voice's frame neither reads nor writes the accumulator. -/
theorem voiceFrame_withAcc (hk : parNat P (Reg.oscUnison slot) ≤ k.val) (v : Voice) (d : Nat) (z : F32) :
    voiceFrame P fs (v.withAcc slot k z) d
      = ((voiceFrame P fs v d).1.withAcc slot k z, (voiceFrame P fs v d).2) := by
  unfold voiceFrame
  rw [envAdvance_withAcc]
  generalize envAdvance P (Consts.dt fs) v = w
  have hloop : slotIds.foldl (slotStep P fs (w.withAcc slot k z).note)
        ⟨(w.withAcc slot k z).acc, ⟨F32.zero, F32.zero⟩, d⟩
      = (slotIds.foldl (slotStep P fs w.note) ⟨w.acc, ⟨F32.zero, F32.zero⟩, d⟩).withAcc slot k z :=
    List.foldl_hom (SlotLoop.withAcc · slot k z) (init := ⟨w.acc, ⟨F32.zero, F32.zero⟩, d⟩)
      (fun st s => slotStep_withAcc hk w.note st s z)
  simp only [hloop]
  rfl

theorem Voice.withAcc_self (v : Voice) : v.withAcc slot k v.acc[slot][k] = v := by
  simp [Voice.withAcc]

theorem Voice.withAcc_acc (v : Voice) (z : F32) : (v.withAcc slot k z).acc[slot][k] = z := by
  simp [Voice.withAcc]

/-- So a voice's frame keeps the accumulator: with its own value in its place the voice is the same, and the frame then
holds that value. -/
theorem voiceFrame_unused_acc (hk : parNat P (Reg.oscUnison slot) ≤ k.val) (v : Voice) (d : Nat) :
    (voiceFrame P fs v d).1.acc[slot][k] = v.acc[slot][k] := by
  have h := congrArg (fun r => r.1.acc[slot][k]) (voiceFrame_withAcc (fs := fs) hk v d v.acc[slot][k])
  rw [Voice.withAcc_self] at h
  exact h.trans (Voice.withAcc_acc _ _)

/-! ### The accumulation pass and RENDER -/

/-- A change of one slot that keeps its phase and commutes with a voice's frame changes only that slot of a frame of the
pass. -/
theorem accFrame_modify {f : Voice → Voice} (hphase : ∀ v, (f v).phase = v.phase)
    (hf : ∀ v d, voiceFrame P fs (f v) d = (f (voiceFrame P fs v d).1, (voiceFrame P fs v d).2)) (vs : List Voice)
    (i : Nat) (sum : Stereo F32) (d : Nat) : accFrame P fs (vs.modify i f) sum d
      = { accFrame P fs vs sum d with voices := (accFrame P fs vs sum d).voices.modify i f } := by
  induction vs generalizing i sum d with
  | nil => simp [accFrame]
  | cons v vs ih =>
    cases i with
    | zero =>
      simp only [List.modify_zero_cons, accFrame, hphase, hf]
      split <;> simp
    | succ i =>
      simp only [List.modify_succ_cons, accFrame, ih]
      split <;> simp

/-- Such a change changes only that slot of the whole pass. -/
theorem accumulate_modify {f : Voice → Voice} (hphase : ∀ v, (f v).phase = v.phase)
    (hf : ∀ v d, voiceFrame P fs (f v) d = (f (voiceFrame P fs v d).1, (voiceFrame P fs v d).2)) (n : Nat)
    (vs : List Voice) (i d : Nat) : accumulate P fs n (vs.modify i f) d
      = { accumulate P fs n vs d with voices := (accumulate P fs n vs d).voices.modify i f } := by
  induction n generalizing vs d with
  | zero => rfl
  | succ n ih => simp only [accumulate, accFrame_modify hphase hf, ih]

/-- Such a change changes only that slot of RENDER. -/
theorem exec_render_modify {s t : State} {n : Word} {f : Voice → Voice} (hphase : ∀ v, (f v).phase = v.phase)
    (hf : ∀ v d, voiceFrame s.regs s.cfg.fs (f v) d
      = (f (voiceFrame s.regs s.cfg.fs v d).1, (voiceFrame s.regs s.cfg.fs v d).2))
    (i : Nat) (h : exec (.render n) s = .next t) :
    exec (.render n) { s with voices := s.voices.modify i f } = .next { t with voices := t.voices.modify i f } := by
  by_cases ha : s.Accepts n
  · have ha' : State.Accepts { s with voices := s.voices.modify i f } n := ha
    obtain rfl := Host.Outcome.next.inj ((exec_render_of_accepts ha).symm.trans h)
    rw [exec_render_of_accepts ha']
    simp only [State.render, accumulate_modify hphase hf]
    rfl
  · have ha' : ¬ State.Accepts { s with voices := s.voices.modify i f } n := ha
    obtain rfl := Host.Outcome.next.inj ((exec_render_of_not_accepts ha).symm.trans h)
    exact exec_render_of_not_accepts ha'

theorem modify_eq_set {vs : List Voice} {i : Nat} {x : Voice} (h : vs[i]? = some x) (f : Voice → Voice) :
    vs.modify i f = vs.set i (f x) := by
  simp [List.modify_eq_set_getElem?, h]

end Sys2Proof.Machine

section
open Sys2Proof Sys2Proof.Machine

/-- Settles O43: a voice's frame keeps the accumulator, and replacing it commutes with the frame and so with RENDER. -/
theorem unusedUnisonVoicesAreInert : Obligations.UnusedUnisonVoicesAreInert := by
  intro s t n v x slot k z hx hk h
  obtain ⟨y, hy, hacc⟩ := exec_render_voice (g := fun v => v.acc[slot][k])
    (fun v d => voiceFrame_unused_acc hk v d) h hx
  have hreplace := exec_render_modify (f := fun v => v.withAcc slot k z) (fun _ => rfl)
    (fun v d => voiceFrame_withAcc hk v d z) v h
  rw [modify_eq_set hx, modify_eq_set hy] at hreplace
  exact ⟨y, hy, hacc, hreplace⟩

end
end

section
/-! SUPPORT. The narrow transports: the bytes of a word in the order they are sent, and that bytes and halves put
together in that order are the word (30_encoding.md R92, R93, 20_memory.md R63). -/

namespace Sys2Proof

/-- A field of a shifted word is the field that much higher in the word. -/
theorem extractLsb'_ushiftRight {n : Nat} (w : BitVec n) (k start len : Nat) :
    (w >>> k).extractLsb' start len = w.extractLsb' (k + start) len := by
  simp only [BitVec.extractLsb', BitVec.toNat_ushiftRight, Nat.shiftRight_add]

/-- Byte j sent is byte j of the word, the least significant byte being byte 0. -/
theorem getElem?_bytesOfWord {n j : Nat} (h : j < n) (w : Cmd) :
    (bytesOfWord n w)[j]? = some (w.extractLsb' (8 * j) 8) := by
  induction n generalizing w j with
  | zero => omega
  | succ n ih =>
    cases j with
    | zero => rfl
    | succ j =>
      rw [bytesOfWord, List.getElem?_cons_succ, ih (by omega), extractLsb'_ushiftRight, Nat.mul_succ, Nat.add_comm]

/-- The eight bytes of a word, one by one. -/
theorem bytesOfWord_eight (w : Cmd) : bytesOfWord 8 w
    = [w.extractLsb' 0 8, w.extractLsb' 8 8, w.extractLsb' 16 8, w.extractLsb' 24 8, w.extractLsb' 32 8,
       w.extractLsb' 40 8, w.extractLsb' 48 8, w.extractLsb' 56 8] := by
  simp only [bytesOfWord, extractLsb'_ushiftRight, ← BitVec.shiftRight_add]

/-- The eight bytes of a word make the word. -/
theorem wordOfBytes_extractLsb' (w : Cmd) :
    wordOfBytes (w.extractLsb' 0 8) (w.extractLsb' 8 8) (w.extractLsb' 16 8) (w.extractLsb' 24 8)
      (w.extractLsb' 32 8) (w.extractLsb' 40 8) (w.extractLsb' 48 8) (w.extractLsb' 56 8) = w := by
  simp (disch := rfl) only [wordOfBytes, BitVec.extractLsb'_append_extractLsb'_eq_extractLsb',
    BitVec.extractLsb'_eq_self]

/-- The four bytes of a 32-bit word make the word. -/
theorem byteOf_append (w : Word) :
    Machine.byteOf w 3 ++ Machine.byteOf w 2 ++ Machine.byteOf w 1 ++ Machine.byteOf w 0 = w := by
  simp (disch := rfl) only [Machine.byteOf, Nat.mul_zero, BitVec.extractLsb'_append_extractLsb'_eq_extractLsb',
    BitVec.extractLsb'_eq_self]

/-- The two halves of a word make the word. -/
theorem wordOfHalves_extractLsb' (w : Cmd) : wordOfHalves (w.extractLsb' 0 32) (w.extractLsb' 32 32) = w :=
  BitVec.extractLsb'_append_extractLsb' (w := 32) (len := 32)

/-- The bytes of a command's word, followed by any others, decode to the command, and the others are left. -/
theorem decodeBytes_bytesOfWord {w : Cmd} {i : Instr} (h : decodeWord w = .ok i) (rest : List (BitVec 8)) :
    decodeBytes (bytesOfWord 8 w ++ rest) = .ok (i, rest) := by
  rw [bytesOfWord_eight]
  simp only [List.cons_append, List.nil_append, decodeBytes, wordOfBytes_extractLsb', h]

/-- Fewer than eight bytes are no command yet. -/
theorem decodeBytes_incomplete {bs : List (BitVec 8)} (h : bs.length < 8) : decodeBytes bs = .error .incomplete := by
  unfold decodeBytes
  split
  · simp only [List.length_cons] at h
    omega
  · rfl

end Sys2Proof

section
open Sys2Proof Sys2Proof.Machine

/-- Settles O2: bytes and halves put together are the word, and the decoder reads a command's word as the command. -/
theorem narrowTransportsCarryTheWord : Obligations.NarrowTransportsCarryTheWord := by
  refine ⟨fun i => decodeBytes_bytesOfWord (decodeWord_encode i), fun i => ?_, fun w j h => getElem?_bytesOfWord h w,
    fun bs => decodeBytes_incomplete⟩
  rw [wordOfHalves_extractLsb', decodeWord_encode]

/-- Settles O22: the two sides of each address test, and the four bytes of a word put together. -/
theorem outbufReadsAndBridge : Obligations.OutbufReadsAndBridge := by
  refine ⟨fun s a => ⟨fun h => if_pos h, fun h => if_neg (by omega), ?_⟩, fun s b h => if_neg h, byteOf_append⟩
  rw [bridgeRead, if_pos (Nat.mul_mod_right 4 a), Nat.mul_div_cancel_left a (by decide)]

end
end

section
/-! SUPPORT. A circular buffer with its index, whichever stage it belongs to: a frame writes the element at the index
and advances it, so n frames advance the index by n and leave every element but the n slots from it on (20_memory.md
R70 to R73). -/

namespace Sys2Proof.Machine
open F32

/-- A circular index below its size, or one that has advanced, is the start plus the number of advances, modulo the
size. -/
theorem iterate_ringNext {size i n : Nat} (h : i < size ∨ 0 < n) :
    (ringNext · size)^[n] i = (i + n) % size := by
  induction n with
  | zero => exact (Nat.mod_eq_of_lt (h.resolve_right (lt_irrefl 0))).symm
  | succ n ih =>
    rw [Function.iterate_succ_apply']
    rcases Nat.eq_zero_or_pos n with rfl | hn
    · rfl
    · rw [ih (.inr hn), ringNext, Nat.mod_add_mod, Nat.add_assoc]

/-- What n frames of a circular buffer of this size do: its index advances n times, and an element that is at none of
the n indexes written stays. -/
structure Line.Advances (size n : Nat) (c c' : Line) : Prop where
  idx : c'.idx = (ringNext · size)^[n] c.idx
  read : ∀ a, (∀ j < n, a ≠ (ringNext · size)^[j] c.idx) → Memory.read c'.buf a = Memory.read c.buf a

namespace Line.Advances

variable {size n : Nat} {c c' c'' : Line}

theorem refl (size : Nat) (c : Line) : Line.Advances size 0 c c := ⟨rfl, fun _ _ => rfl⟩

/-- One frame writes the element at the index and advances the index. -/
theorem write (size : Nat) (m : Mem) (i : Nat) (v : F32) :
    Line.Advances size 1 ⟨m, i⟩ ⟨Memory.writeF m i v, ringNext i size⟩ :=
  ⟨rfl, fun _ h => Memory.read_write_ne m _ (h 0 Nat.one_pos)⟩

/-- One frame and then n more. -/
theorem cons (h₁ : Line.Advances size 1 c c') (h₂ : Line.Advances size n c' c'') :
    Line.Advances size (n + 1) c c'' where
  idx := by rw [h₂.idx, h₁.idx]; rfl
  read a ha := by
    have hrest : ∀ j < n, a ≠ (ringNext · size)^[j] c'.idx := fun j hj => by
      rw [h₁.idx]
      exact ha (j + 1) (by omega)
    exact (h₂.read a hrest).trans (h₁.read a fun j hj => ha j (by omega))

theorem idx_eq (h : Line.Advances size n c c') (hn : 0 < n) : c'.idx = (c.idx + n) % size :=
  h.idx.trans (iterate_ringNext (.inr hn))

theorem read_eq (h : Line.Advances size n c c') (hc : c.idx < size) {a : Nat} (ha : outsideRing c.idx n size a) :
    Memory.read c'.buf a = Memory.read c.buf a := by
  refine h.read a fun j hj => ?_
  rw [iterate_ringNext (.inl hc)]
  exact ha j hj

end Line.Advances

/-! ### The stages -/

variable {P : ParamFile} {fs : Nat}

/-- A channel of the delay line with its index. -/
def DelayState.line (st : DelayState) (ch : Chan) : Line := ⟨st.dly.get ch, st.w⟩

/-- A channel of the flanger's buffer with its index. -/
def FlangerState.line (st : FlangerState) (ch : Chan) : Line := ⟨st.flb.get ch, st.w⟩

/-- In every mode of the delay, disabled too, a channel is written at the index alone. -/
theorem delayChan_write (w : Nat) (buf : Mem) (x : F32) :
    ∃ v, (delayChan P fs w buf x).1 = Memory.writeF buf w v := by
  unfold delayChan
  split
  · exact ⟨_, rfl⟩
  · split <;> exact ⟨_, rfl⟩

theorem delay_advances (st : DelayState) (x : Stereo F32) (ch : Chan) :
    Line.Advances (Config.dbuf fs) 1 (st.line ch) ((delay P fs st x).1.line ch) := by
  have hchan : ∀ buf y, Line.Advances (Config.dbuf fs) 1 ⟨buf, st.w⟩
      ⟨(delayChan P fs st.w buf y).1, ringNext st.w (Config.dbuf fs)⟩ := fun buf y => by
    obtain ⟨v, hv⟩ := delayChan_write (P := P) (fs := fs) st.w buf y
    rw [hv]
    exact .write _ _ _ v
  cases ch
  · exact hchan _ _
  · exact hchan _ _

theorem flanger_advances (h : isOn P Reg.flangerEnable = true) (st : FlangerState) (x : Stereo F32) (ch : Chan) :
    Line.Advances (Config.lf fs) 1 (st.line ch) ((flanger P fs st x).1.line ch) := by
  rw [flanger, if_pos h]
  cases ch
  · exact .write _ _ _ _
  · exact .write _ _ _ _

theorem combStep_advances (gc x : F32) (len : Nat) (c : Line) : Line.Advances len 1 c (combStep gc x len c).2 :=
  .write _ _ _ _

theorem allpassStep_advances (u : F32) (len : Nat) (a : Line) : Line.Advances len 1 a (allpassStep u len a).2 :=
  .write _ _ _ _

theorem reverbChan_comb_advances (ch : Chan) (st : ReverbChan) (x : F32) (k : Fin 4) :
    Line.Advances (Config.combLen fs ch k) 1 st.comb[k] (reverbChan P fs ch st x).1.comb[k] := by
  match k with
  | 0 => exact combStep_advances _ _ _ _
  | 1 => exact combStep_advances _ _ _ _
  | 2 => exact combStep_advances _ _ _ _
  | 3 => exact combStep_advances _ _ _ _

theorem reverbChan_allpass_advances (ch : Chan) (st : ReverbChan) (x : F32) (j : Fin 2) :
    Line.Advances (Config.allpassLen fs ch j) 1 st.allpass[j] (reverbChan P fs ch st x).1.allpass[j] := by
  match j with
  | 0 => exact allpassStep_advances _ _ _
  | 1 => exact allpassStep_advances _ _ _

/-- An enabled reverb runs each channel by itself. -/
theorem reverb_get (h : isOn P Reg.reverbEnable = true) (st : Stereo ReverbChan) (x : Stereo F32) (ch : Chan) :
    ((reverb P fs st x).1.get ch) = (reverbChan P fs ch (st.get ch) (x.get ch)).1 := by
  rw [reverb, if_pos h]
  cases ch <;> rfl

/-! ### The output pass and RENDER -/

/-- A buffer of the chain that every frame advances once is advanced once a frame by the output pass. -/
theorem outputPass_advances {line : Chain → Line} {size : Nat} {ag : F32}
    (h : ∀ c x, Line.Advances size 1 (line c) (line (outputFrame P fs ag c x).1)) (xs : List (Stereo F32))
    (c : Chain) : Line.Advances size xs.length (line c) (line (outputPass P fs ag xs c).1) := by
  induction xs generalizing c with
  | nil => exact .refl _ _
  | cons x xs ih => exact (h c x).cons (ih _)

/-- So RENDER advances it n times. -/
theorem render_advances {s : State} {line : Chain → Line} {size : Nat}
    (h : ∀ ag c x, Line.Advances size 1 (line c) (line (outputFrame s.regs s.cfg.fs ag c x).1)) (n : Nat) :
    Line.Advances size n (line s.chain) (line (s.outputOf n).1) := by
  have := outputPass_advances (h (s.render n).ag) (accumulate s.regs s.cfg.fs n s.voices s.draws).frames s.chain
  rwa [accumulate_frames_length] at this

variable (s : State) (n : Nat)

theorem render_delay_advances (ch : Chan) :
    Line.Advances (Config.dbuf s.cfg.fs) n (s.delay.line ch) ((s.render n).delay.line ch) :=
  render_advances (line := fun c => c.delay.line ch) (fun _ c _ => delay_advances c.delay _ ch) n

variable {s}

theorem render_flanger_advances (h : isOn s.regs Reg.flangerEnable = true) (ch : Chan) :
    Line.Advances (Config.lf s.cfg.fs) n (s.flanger.line ch) ((s.render n).flanger.line ch) :=
  render_advances (line := fun c => c.flanger.line ch) (fun _ c _ => flanger_advances h c.flanger _ ch) n

theorem render_comb_advances (h : isOn s.regs Reg.reverbEnable = true) (ch : Chan) (k : Fin 4) :
    Line.Advances (Config.combLen s.cfg.fs ch k) n (s.reverb.get ch).comb[k] ((s.render n).reverb.get ch).comb[k] :=
  render_advances (line := fun c => (c.reverb.get ch).comb[k]) (fun _ c _ => by
    simp only [outputFrame, reverb_get h]
    exact reverbChan_comb_advances ch _ _ k) n

theorem render_allpass_advances (h : isOn s.regs Reg.reverbEnable = true) (ch : Chan) (j : Fin 2) :
    Line.Advances (Config.allpassLen s.cfg.fs ch j) n (s.reverb.get ch).allpass[j]
      ((s.render n).reverb.get ch).allpass[j] :=
  render_advances (line := fun c => (c.reverb.get ch).allpass[j]) (fun _ c _ => by
    simp only [outputFrame, reverb_get h]
    exact reverbChan_allpass_advances ch _ _ j) n

/-- RENDER leaves a disabled flanger as it was (42_render.md R177). -/
theorem render_flanger_of_off (h : isOn s.regs Reg.flangerEnable = false) : (s.render n).flanger = s.flanger :=
  outputPass_keeps (Q := fun c => c.flanger = s.flanger) (fun c x hc => by simpa [outputFrame, flanger, h] using hc) _
    (c := s.chain) rfl

/-- RENDER leaves a disabled reverb as it was (42_render.md R177). -/
theorem render_reverb_of_off (h : isOn s.regs Reg.reverbEnable = false) : (s.render n).reverb = s.reverb :=
  outputPass_keeps (Q := fun c => c.reverb = s.reverb) (fun c x hc => by simpa [outputFrame, reverb, h] using hc) _
    (c := s.chain) rfl

/-- RENDER leaves OUTBUF alone from word 2n on. -/
theorem render_outbuf_read {a : Nat} (h : 2 * n ≤ a) :
    Memory.read (s.render n).outbuf a = Memory.read s.outbuf a := by
  rw [State.render_outbuf]
  refine read_writeFrames_outside _ _ _ _ (.inr ?_)
  rwa [outputPass_length, accumulate_frames_length, Nat.zero_add]

theorem Line.idx_lt {len : Nat} {c : Line} (h : Line.ok len c = true) : c.idx < len :=
  of_decide_eq_true (Bool.and_eq_true_iff.1 h).2

/-- What RENDER leaves alone in a buffer: all of it while its stage is disabled, else what lies outside the slots. -/
theorem read_of_off_or_outside {n : Nat} {on : Bool} {size : Nat} {c c' : Line} (hoff : on = false → c' = c)
    (hon : on = true → Line.Advances size n c c') (hc : c.idx < size) {a : Nat}
    (ha : on = false ∨ outsideRing c.idx n size a) : Memory.read c'.buf a = Memory.read c.buf a := by
  cases on with
  | false => rw [hoff rfl]
  | true => exact (hon rfl).read_eq hc (ha.resolve_left (by decide))

theorem render_flanger_read {ch : Chan} {a : Nat} (hw : s.flanger.w < Config.lf s.cfg.fs)
    (ha : isOn s.regs Reg.flangerEnable = false ∨ outsideRing s.flanger.w n (Config.lf s.cfg.fs) a) :
    Memory.read ((s.render n).flanger.flb.get ch) a = Memory.read (s.flanger.flb.get ch) a :=
  read_of_off_or_outside (c := s.flanger.line ch) (c' := (s.render n).flanger.line ch)
    (fun h => by rw [render_flanger_of_off n h]) (fun h => render_flanger_advances n h ch) hw ha

theorem render_comb_read {ch : Chan} {k : Fin 4} {a : Nat} (hok : ReverbChan.Ok s.cfg.fs ch (s.reverb.get ch))
    (ha : isOn s.regs Reg.reverbEnable = false
      ∨ outsideRing ((s.reverb.get ch).comb[k]).idx n (Config.combLen s.cfg.fs ch k) a) :
    Memory.read (((s.render n).reverb.get ch).comb[k]).buf a = Memory.read ((s.reverb.get ch).comb[k]).buf a :=
  read_of_off_or_outside (fun h => by rw [render_reverb_of_off n h]) (fun h => render_comb_advances n h ch k)
    (Line.idx_lt (hok.1 k)) ha

theorem render_allpass_read {ch : Chan} {j : Fin 2} {a : Nat} (hok : ReverbChan.Ok s.cfg.fs ch (s.reverb.get ch))
    (ha : isOn s.regs Reg.reverbEnable = false
      ∨ outsideRing ((s.reverb.get ch).allpass[j]).idx n (Config.allpassLen s.cfg.fs ch j) a) :
    Memory.read (((s.render n).reverb.get ch).allpass[j]).buf a = Memory.read ((s.reverb.get ch).allpass[j]).buf a :=
  read_of_off_or_outside (fun h => by rw [render_reverb_of_off n h]) (fun h => render_allpass_advances n h ch j)
    (Line.idx_lt (hok.2 j)) ha

end Sys2Proof.Machine

section
open Sys2Proof Sys2Proof.Machine

/-- Settles O34: each buffer's index advances once a frame, and a disabled flanger or reverb is left alone. -/
theorem circularIndexesAdvance : Obligations.CircularIndexesAdvance := by
  intro s t n ha h
  obtain rfl := Host.Outcome.next.inj ((exec_render_of_accepts ha).symm.trans h)
  obtain ⟨hn, -⟩ := ha
  exact ⟨(render_delay_advances s _ .L).idx_eq hn, fun hf => (render_flanger_advances _ hf .L).idx_eq hn,
    fun hf => congrArg FlangerState.w (render_flanger_of_off _ hf),
    fun hr ch k => (render_comb_advances _ hr ch k).idx_eq hn,
    fun hr ch j => (render_allpass_advances _ hr ch j).idx_eq hn, fun hr => render_reverb_of_off _ hr⟩

/-- Settles O31: an accepted RENDER writes the frames' words of OUTBUF and advances each buffer n times, a disabled
flanger or reverb is left alone, and a dropped RENDER leaves every memory alone. -/
theorem renderMemoryFrame : Obligations.RenderMemoryFrame := by
  intro s t n hm h
  by_cases ha : s.Accepts n
  · obtain rfl := Host.Outcome.next.inj ((exec_render_of_accepts ha).symm.trans h)
    obtain ⟨-, -, hdelay, -, hflanger, hreverb⟩ := hm
    refine ⟨fun a ho => ?_, fun ch a => (render_delay_advances s _ ch).read_eq hdelay,
      fun ch a => render_flanger_read _ hflanger, fun ch k a => render_comb_read _ (hreverb ch),
      fun ch j a => render_allpass_read _ (hreverb ch)⟩
    have hread := render_outbuf_read (s := s) _ ho
    exact ⟨hread, by rw [readOut, readOut, State.render_cfg, hread]⟩
  · obtain rfl := Host.Outcome.next.inj ((exec_render_of_not_accepts ha).symm.trans h)
    exact ⟨fun _ _ => ⟨rfl, rfl⟩, fun _ _ _ => rfl, fun _ _ _ => rfl, fun _ _ _ _ => rfl, fun _ _ _ _ => rfl⟩

/-- Settles O33: the words written for a frame are its samples, and all 2n of them lie below 2·MAXB. -/
theorem outbufHoldsTheFrames : Obligations.OutbufHoldsTheFrames := by
  intro s t n hw ha h i y hy
  obtain rfl := Host.Outcome.next.inj ((exec_render_of_accepts ha).symm.trans h)
  obtain ⟨hl, hr⟩ := read_writeFrames hw 0 _ i hy
  rw [← State.render_outbuf, Nat.zero_add] at hl hr
  have hi : i < n.toNat := by
    have hlen := (List.getElem?_eq_some_iff.1 hy).1
    rwa [outputPass_length, accumulate_frames_length] at hlen
  obtain ⟨-, hn⟩ := ha
  rw [readOut, readOut, State.render_cfg, if_pos (by omega), if_pos (by omega)]
  exact ⟨hl, hr⟩

/-- Settles O28: a step is a change of a command between two updates of port and count, and each change keeps every
memory and index in its buffer. -/
theorem memoriesStayCanonical : Obligations.MemoriesStayCanonical := fun _ _ =>
  step_keeps (Q := State.MemoriesOk) (fun _ _ h => h) (fun _ h => h) fun _ _ hs ht => ht.memoriesOk hs

end
end

section
/-! SUPPORT. The decoder on every word: a word with an assigned opcode and zero reserved fields is the encoding of a
command, and the raw fields that 30_encoding.md R89 reserves are those `reservedZero` tests. -/

namespace Sys2Proof

/-- The assigned opcodes, one by one (R82). -/
theorem opc_of_le_five {w : Cmd} (h : (opc w).toNat ≤ 5) :
    opc w = 0 ∨ opc w = 1 ∨ opc w = 2 ∨ opc w = 3 ∨ opc w = 4 ∨ opc w = 5 := by
  bv_omega

/-- A word with an assigned opcode and zero reserved fields is the command of its opcode on its operand fields. -/
theorem exists_encode_eq {w : Cmd} (ho : (opc w).toNat ≤ 5) (hr : reservedZero w = true) : ∃ i, encode i = w := by
  have hw := packWord_fields w
  rcases opc_of_le_five ho with h | h | h | h | h | h <;> rw [h] at hw <;> simp [reservedZero, h] at hr
  · exact ⟨.nop, by simpa [encode, hr] using hw⟩
  · exact ⟨.setp (fieldImm w) (fieldData w), by simpa [encode, hr] using hw⟩
  · exact ⟨.gateon (fieldV w) (fieldImm w) (fieldData w), hw⟩
  · exact ⟨.gateoff (fieldV w), by simpa [encode, hr] using hw⟩
  · exact ⟨.render (fieldData w), by simpa [encode, hr] using hw⟩
  · exact ⟨.clrst (fieldData w), by simpa [encode, hr] using hw⟩

/-- What decoding can do: reject the opcode, reject a reserved field, or find the command whose encoding the word is
(R91). -/
theorem decodeWord_cases (w : Cmd) :
    (6 ≤ (opc w).toNat ∧ decodeWord w = .error .unassignedOpcode)
      ∨ ((opc w).toNat ≤ 5 ∧ reservedZero w = false ∧ decodeWord w = .error .reservedField)
      ∨ ((opc w).toNat ≤ 5 ∧ reservedZero w = true ∧ ∃ i, encode i = w ∧ decodeWord w = .ok i) := by
  by_cases ho : (opc w).toNat ≤ 5
  · cases hr : reservedZero w with
    | false => exact .inr (.inl ⟨ho, rfl, by simp [decodeWord, opcodeAssigned, ho, hr]⟩)
    | true =>
      obtain ⟨i, rfl⟩ := exists_encode_eq ho hr
      exact .inr (.inr ⟨ho, rfl, i, rfl, decodeWord_encode i⟩)
  · exact .inl ⟨by omega, by simp [decodeWord, opcodeAssigned, ho]⟩

/-- A word that decodes to a command is its encoding. -/
theorem encode_of_decodeWord {w : Cmd} {i : Instr} (h : decodeWord w = .ok i) : encode i = w := by
  rcases decodeWord_cases w with ⟨_, e⟩ | ⟨_, _, e⟩ | ⟨_, _, j, hj, e⟩ <;> rw [e] at h <;> cases h
  exact hj

/-! ### The reserved fields as raw bits -/

theorem extractLsb'_opc (w : Cmd) : w.extractLsb' 56 8 = opc w := rfl

theorem extractLsb'_voice (w : Cmd) : w.extractLsb' 48 8 = fieldV w := rfl

theorem append_eq_zero_iff {m n : Nat} {x : BitVec m} {y : BitVec n} : x ++ y = 0 ↔ x = 0 ∧ y = 0 := by
  simp [← BitVec.toNat_inj, BitVec.toNat_append, Nat.or_eq_zero_iff, Nat.shiftLeft_eq]

/-- A field made of two neighbouring fields is zero when both are. -/
theorem extractLsb'_eq_zero_iff {k : Nat} (w : BitVec k) (start m n : Nat) :
    w.extractLsb' start (n + m) = 0 ↔ w.extractLsb' (start + m) n = 0 ∧ w.extractLsb' start m = 0 := by
  rw [← BitVec.extractLsb'_append_extractLsb'_eq_extractLsb' rfl, append_eq_zero_iff]

/-- Below the voice field lie IMM16 and DATA. -/
theorem extractLsb'_immData (w : Cmd) : w.extractLsb' 0 48 = 0 ↔ fieldImm w = 0 ∧ fieldData w = 0 :=
  extractLsb'_eq_zero_iff w 0 32 16

/-- Below the opcode lie V, IMM16 and DATA. -/
theorem extractLsb'_operands (w : Cmd) :
    w.extractLsb' 0 56 = 0 ↔ fieldV w = 0 ∧ fieldImm w = 0 ∧ fieldData w = 0 := by
  rw [← extractLsb'_immData]
  exact extractLsb'_eq_zero_iff w 0 48 8

/-- Between opcode and DATA lie V and IMM16. -/
theorem extractLsb'_voiceImm (w : Cmd) : w.extractLsb' 32 24 = 0 ↔ fieldV w = 0 ∧ fieldImm w = 0 :=
  extractLsb'_eq_zero_iff w 32 16 8

/-- For an assigned opcode the raw reserved bits are non-zero exactly when the decoder finds a reserved field set. -/
theorem reservedNonzero_eq {w : Cmd} (ho : (opc w).toNat ≤ 5) : Machine.reservedNonzero w = !reservedZero w := by
  simp only [Machine.reservedNonzero, extractLsb'_opc, extractLsb'_voice, ne_eq, extractLsb'_operands,
    extractLsb'_immData, extractLsb'_voiceImm]
  rcases opc_of_le_five ho with h | h | h | h | h | h <;> simp [reservedZero, h, Bool.or_assoc]

/-! ### NOP's word -/

/-- The only command of opcode 0 is NOP, whose word is zero (R88). -/
theorem encode_eq_zero_of_opc {i : Instr} (h : opc (encode i) = 0) : encode i = 0 := by
  cases i with
  | nop => rfl
  | _ => simp [encode] at h

namespace Machine

/-- The step on a word that does not decode: the word is taken and counted, and its flag is set. -/
theorem step_of_reject {s : State} {w : Cmd} {ws : List Cmd} {e : Reject} (hp : s.port = w :: ws)
    (hd : decodeWord w = .error e) : step s = .next (s.dropped ws (rejectFlag e).bit) := by
  simp only [step, fetch_cons hp, runWord, hd, finish_next]
  rfl

/-- The step on NOP's word: the word is taken and counted. -/
theorem step_of_zero {s : State} {ws : List Cmd} (hp : s.port = 0 :: ws) :
    step s = .next (s.consumed ws s.status) := by
  obtain ⟨t, ht, hstep⟩ := step_of_decode hp (decodeWord_encode .nop)
  obtain rfl : s.setPort ws = t := Host.Outcome.next.inj ht
  exact hstep

/-- The step on any other word of opcode 0 drops it with ERR_RSVD. -/
theorem step_of_opc_zero {s : State} {w : Cmd} {ws : List Cmd} (hp : s.port = w :: ws) (ho : opc w = 0) (hw : w ≠ 0) :
    step s = .next (s.dropped ws 1) := by
  rcases decodeWord_cases w with ⟨h6, _⟩ | ⟨_, _, hd⟩ | ⟨_, _, i, rfl, _⟩
  · simp [ho] at h6
  · exact step_of_reject hp hd
  · exact absurd (encode_eq_zero_of_opc ho) hw

end Machine
end Sys2Proof

section
open Sys2Proof Sys2Proof.Machine

/-- Settles O1: the decoder reads a command's word as that command, and a word it accepts is a command's. -/
theorem decodeIffEncode : Obligations.DecodeIffEncode := by
  refine fun w i => ⟨fun h => (encode_of_decodeWord h).symm, ?_⟩
  rintro rfl
  exact decodeWord_encode i

/-- Settles O3: the three answers of the decoder, the reserved fields read as raw bits. -/
theorem everyWordIsClassified : Obligations.EveryWordIsClassified := by
  intro w
  rw [extractLsb'_opc]
  rcases decodeWord_cases w with ⟨h6, hd⟩ | ⟨h5, hr, hd⟩ | ⟨h5, hr, i, _, hd⟩
  · simp [hd, h6, Nat.not_le.2 h6]
  · simp [hd, h5, Nat.not_le.2 (Nat.lt_succ_of_le h5), reservedNonzero_eq h5, hr]
  · simp [hd, h5, Nat.not_le.2 (Nat.lt_succ_of_le h5), reservedNonzero_eq h5, hr]

/-- Settles O4: each word is the encoding of its command. -/
theorem workedEncodingsDecode : Obligations.WorkedEncodingsDecode := by
  refine ⟨?_, ?_, ?_, ?_, ?_, ?_⟩ <;> rw [decodeIffEncode] <;> rfl

/-- Settles O12: NOP answers the same state; of the words of opcode 0 only the zero word is a command's. -/
theorem nopChangesNothing : Obligations.NopChangesNothing := by
  refine ⟨fun s => rfl, fun s w ws hp ho => ⟨?_, step_of_opc_zero hp ho⟩⟩
  rintro rfl
  exact step_of_zero hp

end
end

section
/-! SUPPORT. What GATEON stores as the note, what GATEOFF makes of a slot, and the two commands' drops as words of
STATUS (41_voice.md R121, R122). -/

namespace Sys2Proof

namespace F32

/-- A value below the interval is clamped to its lower bound. -/
theorem clampf_of_lt_lo {v lo hi : F32} (h : lt v lo = true) : clampf v lo hi = lo := if_pos h

/-- A value above the interval is clamped to its upper bound. -/
theorem clampf_of_hi_lt {v lo hi : F32} (hb : lt hi lo = false) (h : lt hi v = true) : clampf v lo hi = hi := by
  have hlo : ¬ lt v lo = true := fun hv => by simp [lt_trans_of h hv] at hb
  rw [clampf, if_neg hlo, if_pos h]

end F32

namespace Machine
open F32

/-- The upper bound of a note is the binary32 127.0. -/
theorem noteOf_eq (raw : F32) : noteOf raw = clampf raw F32.zero ⟨0x42FE0000#32⟩ := by
  have h127 : Consts.dec 127 1 = ⟨0x42FE0000#32⟩ := by decide +kernel
  rw [noteOf, h127]

@[simp] theorem gatedOn_note (vel note : F32) : (gatedOn vel note).note = note := rfl

/-- Every accumulator of a voice right after GATEON is +0.0. -/
theorem gatedOn_acc (vel note : F32) (slot : Fin 4) (k : Fin 8) : (gatedOn vel note).acc[slot][k] = F32.zero := by
  simp [gatedOn, Voice.reset]

theorem gatedOff_of_idle {x : Voice} (h : x.phase = .idle) : gatedOff x = x := by
  simp [gatedOff, h]

/-- Every sounding phase goes to Release. -/
theorem gatedOff_of_sounding {x : Voice} (h : x.phase ≠ .idle) :
    gatedOff x = { x with relStart := x.level, phase := .release, time := F32.zero } := by
  unfold gatedOff
  split
  · contradiction
  all_goals rfl

/-- Replacing a slot by what it holds changes nothing. -/
theorem State.setVoice_self {s : State} {v : Nat} {x : Voice} (h : s.voices[v]? = some x) : s.setVoice v x = s := by
  obtain ⟨hv, rfl⟩ := List.getElem?_eq_some_iff.1 h
  rw [State.setVoice, List.set_getElem_self]

end Machine
end Sys2Proof

section
open Sys2Proof Sys2Proof.Machine

/-- Settles O17: the drop for the voice, the drop for the note, and the voice GATEON writes. -/
theorem gateonStartsTheNote : Obligations.GateonStartsTheNote := by
  intro s v vel note
  rcases execGateon_cases v vel note s with ⟨hv, h⟩ | ⟨hv, hn, h⟩ | ⟨hv, hn, h⟩
  · exact ⟨fun _ => h, fun hlt => absurd hv (by omega), fun hlt => absurd hv (by omega)⟩
  · exact ⟨fun hle => absurd hv (by omega), fun _ _ => h, fun _ hf => by simp [hn] at hf⟩
  · refine ⟨fun hle => absurd hv (by omega), fun _ ht => by simp [hn] at ht, fun _ _ => ?_⟩
    refine ⟨gatedOn (velOf vel) (noteOf ⟨note⟩), h, rfl, rfl, rfl, rfl, gatedOn_acc _ _, rfl, ?_⟩
    rw [gatedOn_note, noteOf_eq]
    exact ⟨F32.clampf_of_lt_lo, F32.clampf_of_hi_lt (by decide), F32.clampf_eq_self⟩

/-- Settles O18: the drop for the voice, and the slot GATEOFF writes. -/
theorem gateoffReleases : Obligations.GateoffReleases := by
  intro s v
  rcases execGateoff_cases v s with ⟨hv, h⟩ | ⟨x, hx, h⟩
  · exact ⟨fun _ => h, fun y hy => by simp [hv] at hy⟩
  · refine ⟨fun hle => ?_, fun y hy => ?_⟩
    · rw [List.getElem?_eq_none hle] at hx
      contradiction
    · obtain rfl := Option.some.inj (hx.symm.trans hy)
      refine ⟨fun hidle => ?_, fun hs => ?_⟩
      · rw [gatedOff_of_idle hidle, State.setVoice_self hx] at h
        exact h
      · rw [gatedOff_of_sounding hs] at h
        exact h

/-- Settles O20: the quotient of two numbers of which the first is no greater, and its two ends evaluated. -/
theorem velocityLiesInUnitRange : Obligations.VelocityLiesInUnitRange :=
  ⟨fun imm => Bool.and_eq_true_iff.1 (velOf_within imm), by decide +kernel, by decide +kernel⟩

end
end

section
/-! SUPPORT. SETP and CLRST: the answer of SETP by register and value, the value each kind stores, what a register read
shows after either command, and the bits CLRST keeps (40_control.md R102 to R110). -/

namespace Sys2Proof

namespace F32
open Machine

/-- f32(n) of a natural number stands where n rounds to. -/
theorem key_ofNat (n : Nat) : (ofNat n).key = roundKey (n * 2 ^ 149) 1 := by
  rw [ofNat_eq_ofInt]
  exact key_ofRat n 1

/-- A natural number whose f32 is at most a bound below 2^24 is itself below 2^24. -/
theorem lt_of_ofNat_le {n : Nat} {hi : F32} (hb : hi.fix < 16777216 * 2 ^ 149) (h : le (ofNat n) hi = true) :
    n < 16777216 := by
  by_contra hn
  have hexact : Exact ((16777216 : Nat) * 2 ^ 149) := exact_of_significand (q := 1) (k := 173) (by decide) (by decide)
  obtain ⟨-, hfix⟩ := fix_of_key_exact (key_ofNat 16777216) hexact
  have hkey : (ofNat 16777216).key ≤ hi.key := by
    calc (ofNat 16777216).key ≤ (ofNat n).key := by
          rw [key_ofNat, key_ofNat]
          exact roundKey_mono (by decide) (by decide) (by push_cast; omega)
      _ ≤ hi.key := (le_iff.1 h).2.2
  rw [key_le_iff, hfix] at hkey
  push_cast at hkey
  omega

/-- f32(n) of a natural number is a number, infinity included. -/
theorem isNaN_ofNat (n : Nat) : (ofNat n).isNaN = false := isNaN_pack_roundMag _ _ _

theorem le_zero_ofNat (n : Nat) : le zero (ofNat n) = true := by
  refine le_iff.2 ⟨by decide, isNaN_ofNat n, ?_⟩
  rw [key_ofNat]
  exact roundKey_nonneg (by positivity) 1

/-- Rounding to an integer leaves the f32 of a natural number of at most 24 bits. -/
theorem ofInt_roundInt_ofNat {n : Nat} (h : n < 16777216) : ofInt (roundInt (ofNat n)) = ofNat n := by
  obtain ⟨hf, hfix⟩ := ofNat_exact h
  have hround : roundInt (ofNat n) = n := by
    rw [roundInt, if_pos hf, hfix]
    omega
  rw [hround, ofNat_eq_ofInt]

/-- roundInt of a finite number rounds it half up (00_scope.md R14). -/
theorem roundsHalfUp_roundInt {c : F32} (h : c.isFinite = true) : RoundsHalfUp c (ofInt (roundInt c)) := by
  refine ⟨roundInt c, ?_, ?_, rfl⟩ <;> rw [roundInt, if_pos h] <;> omega

theorem lt_eq_false_of_le {a b : F32} (h : le a b = true) : lt b a = false := by
  simp only [lt, Bool.and_eq_false_iff, decide_eq_false_iff_not]
  exact .inr (Int.not_lt.2 (le_iff.1 h).2.2)

end F32

namespace Machine
open F32

/-! ### What a kind stores -/

theorem integralBounds_spec {lo hi : F32} (h : integralBounds lo hi = true) :
    lo.isFinite = true ∧ hi.isFinite = true ∧ le lo hi = true ∧ hi.fix < 16777216 * 2 ^ 149 := by
  simp only [integralBounds, Bool.and_eq_true, decide_eq_true_eq] at h
  obtain ⟨⟨⟨⟨⟨⟨hl, hh⟩, hle⟩, -⟩, -⟩, -⟩, hlt⟩ := h
  exact ⟨hl, hh, hle, hlt⟩

/-- Between integer bounds a number is clamped and rounded half up (R104, R105). -/
theorem roundsHalfUp_clampf {lo hi v : F32} (hb : integralBounds lo hi = true) (hv : v.isNaN = false) :
    RoundsHalfUp (clampf v lo hi) (ofInt (roundInt (clampf v lo hi))) := by
  obtain ⟨hl, hh, hle, -⟩ := integralBounds_spec hb
  obtain ⟨hlo, hhi⟩ := clampf_bounds hv hle
  exact roundsHalfUp_roundInt (isFinite_of_between hl hh hlo hhi)

/-- Between integer bounds the f32 of a natural number is stored bit for bit. -/
theorem ofInt_roundInt_clampf_ofNat {lo hi : F32} {n : Nat} (hb : integralBounds lo hi = true)
    (hl : le lo (ofNat n) = true) (hh : le (ofNat n) hi = true) :
    ofInt (roundInt (clampf (ofNat n) lo hi)) = ofNat n := by
  obtain ⟨-, -, -, hlt⟩ := integralBounds_spec hb
  rw [clampf_eq_self hl hh, ofInt_roundInt_ofNat (lt_of_ofNat_le hlt hh)]

/-! ### SETP by register and value -/

theorem isParamId_of_index {id : Nat} {i : Fin nParams} (h : paramIndex? id = some i) : isParamId id = true := by
  rw [← paramIndex?_isSome, h]
  rfl

theorem isParamId_of_index_none {id : Nat} (h : paramIndex? id = none) : isParamId id = false := by
  rw [← paramIndex?_isSome, h]
  rfl

/-- Writing a parameter register sets its place in the register file. -/
theorem State.writeParam_of_index (s : State) {id : Nat} {i : Fin nParams} (h : paramIndex? id = some i) (x : F32) :
    s.writeParam id x = { s with regs := s.regs.set i x } := by
  simp [State.writeParam, setPar, h]

/-- SETP of an id that is no parameter register is ignored (R107). -/
theorem exec_setp_ignored (s : State) {id : RegId} (v : Word) (h : isParamId id.toNat = false) :
    exec (.setp id v) s = .next s := by
  rcases execSetp_cases id v s with ⟨-, e⟩ | ⟨i, hi, -⟩
  · exact e
  · simp [isParamId_of_index hi] at h

/-- SETP of a NaN is dropped (R102). -/
theorem exec_setp_nan (s : State) {id : RegId} {v : Word} (h : isParamId id.toNat = true)
    (hv : (F32.mk v).isNaN = true) : exec (.setp id v) s = .next (s.raise .errNan) := by
  rcases execSetp_cases id v s with ⟨hi, -⟩ | ⟨_, _, ⟨_, e⟩ | ⟨hn, _⟩⟩
  · simp [isParamId_of_index_none hi] at h
  · exact e
  · simp [hv] at hn

/-- SETP of a number stores the converted value (R103). -/
theorem exec_setp_stores (s : State) {id : RegId} {i : Fin nParams} {v : Word} (h : paramIndex? id.toNat = some i)
    (hv : (F32.mk v).isNaN = false) :
    exec (.setp id v) s = .next (s.writeParam id.toNat (convert (paramRow i).kind ⟨v⟩)) := by
  rcases execSetp_cases id v s with ⟨hi, -⟩ | ⟨j, hj, ⟨hn, _⟩ | ⟨_, e⟩⟩
  · simp [hi] at h
  · simp [hv] at hn
  · obtain rfl := Option.some.inj (h.symm.trans hj)
    exact e

/-! ### Register reads after a write and after a flag -/

theorem readReg_status (s : State) : readReg s 0xF000 = s.status := readReg_of_ge s (by decide)

/-- A written parameter register reads as the value written. -/
theorem readReg_writeParam_same (s : State) {id : RegId} {i : Fin nParams} (h : paramIndex? id.toNat = some i)
    (x : F32) : readReg (s.writeParam id.toNat x) id = x.bits := by
  rw [readReg_of_index _ h, ← par_of_index h, State.writeParam_regs, par_setPar_same h]

/-- Every other register reads as before the write. -/
theorem readReg_writeParam_ne (s : State) {id id' : RegId} (h : id' ≠ id) (x : F32) :
    readReg (s.writeParam id.toNat x) id' = readReg s id' := by
  cases hi : paramIndex? id'.toNat with
  | some i =>
    have hne : id'.toNat ≠ id.toNat := fun e => h (BitVec.eq_of_toNat_eq e)
    rw [readReg_of_index _ hi, readReg_of_index _ hi, ← par_of_index hi, ← par_of_index hi, State.writeParam_regs,
      par_setPar_ne hne]
  | none =>
    have hp := isParamId_of_index_none hi
    rw [readReg_of_not_param _ hp, readReg_of_not_param _ hp]
    rfl

/-- Only STATUS shows a flag. -/
theorem readReg_raise_ne (s : State) (f : Flag) {id : RegId} (h : id ≠ 0xF000) :
    readReg (s.raise f) id = readReg s id := by
  have hstatus : statusReg (s.raise f) id.toNat = statusReg s id.toNat := by
    have hne : id.toNat ≠ 0xF000 := fun e => h (BitVec.eq_of_toNat_eq e)
    generalize id.toNat = k at hne
    unfold statusReg
    split
    case h_1 => exact absurd rfl hne
    all_goals rfl
  cases hi : paramIndex? id.toNat with
  | some i => rw [readReg_of_index _ hi, readReg_of_index _ hi, State.raise_regs]
  | none =>
    have hp := isParamId_of_index_none hi
    rw [readReg_of_not_param _ hp, readReg_of_not_param _ hp, hstatus]

/-! ### CLRST -/

/-- The flags are bits 5:0 of STATUS (10_state.md R37). -/
theorem flagBits_getLsbD (b : Nat) : flagBits.getLsbD b = decide (b < 6) := by
  have h : flagBits = (BitVec.allOnes 6).setWidth 32 := by decide
  rw [h, BitVec.getLsbD_setWidth, BitVec.getLsbD_allOnes]
  by_cases hb : b < 6
  · simp [hb, show b < 32 by omega]
  · simp [hb]

/-- CLRST keeps the flags its mask leaves out, and no other bit (R109). -/
theorem clearFlags_getLsbD (status mask : Word) (b : Nat) :
    (clearFlags status mask).getLsbD b = (status.getLsbD b && !mask.getLsbD b && decide (b < 6)) := by
  rw [clearFlags, BitVec.getLsbD_and, BitVec.getLsbD_and, BitVec.getLsbD_not, flagBits_getLsbD]
  by_cases hb : b < 6
  · simp [hb, show b < 32 by omega]
  · simp [hb]

/-- The step on a word of an assigned opcode with a reserved field set drops it with ERR_RSVD (30_encoding.md R89). -/
theorem step_of_reservedNonzero {s : State} {w : Cmd} {ws : List Cmd} (hp : s.port = w :: ws)
    (ho : (opc w).toNat ≤ 5) (hr : reservedNonzero w = true) : step s = .next (s.dropped ws 1) := by
  rw [reservedNonzero_eq ho, Bool.not_eq_true'] at hr
  rcases decodeWord_cases w with ⟨h6, _⟩ | ⟨_, _, hd⟩ | ⟨_, hz, _⟩
  · omega
  · exact step_of_reject hp hd
  · simp [hr] at hz

end Machine
end Sys2Proof

section
open Sys2Proof Sys2Proof.Machine

/-- Settles O13: the three answers of SETP, and the converted value kind by kind. -/
theorem setpStoresTheConvertedValue : Obligations.SetpStoresTheConvertedValue := by
  intro s id v
  refine ⟨exec_setp_ignored s v, fun i hi => ⟨exec_setp_nan s (isParamId_of_index hi), fun hv => ?_⟩⟩
  refine ⟨convert (paramRow i).kind ⟨v⟩, ?_, ?_⟩
  · rw [exec_setp_stores s hi hv, State.writeParam_of_index s hi]
  · have hk := paramRow_wellFormed i
    cases hkind : (paramRow i).kind <;> rw [hkind] at hk
    case cont lo hi =>
      exact ⟨F32.clampf_of_lt_lo, F32.clampf_of_hi_lt (F32.lt_eq_false_of_le hk), F32.clampf_eq_self⟩
    case int lo hi => exact roundsHalfUp_clampf hk hv
    case enum maxcode => exact roundsHalfUp_clampf hk hv
    case bool =>
      refine ⟨fun h => if_pos h, fun h => if_neg fun hle => ?_⟩
      simp [F32.lt_eq_false_of_le hle] at h

/-- Settles O14: a legal value is a number that its kind converts to itself, and a written register reads back. -/
theorem setpRoundTrips : Obligations.SetpRoundTrips := by
  intro s id i u hi hlegal
  have hself : u.isNaN = false ∧ convert (paramRow i).kind u = u := by
    have hk := paramRow_wellFormed i
    cases hkind : (paramRow i).kind <;> rw [hkind] at hk hlegal
    case cont lo hi =>
      obtain ⟨hl, hh⟩ := hlegal
      exact ⟨not_isNaN_of_le hl, F32.clampf_eq_self hl hh⟩
    case int lo hi =>
      obtain ⟨hl, hh, n, rfl⟩ := hlegal
      exact ⟨F32.isNaN_ofNat n, ofInt_roundInt_clampf_ofNat hk hl hh⟩
    case enum maxcode =>
      obtain ⟨hh, n, rfl⟩ := hlegal
      exact ⟨F32.isNaN_ofNat n, ofInt_roundInt_clampf_ofNat hk (F32.le_zero_ofNat n) hh⟩
    case bool =>
      rcases hlegal with rfl | rfl <;> decide
  obtain ⟨hn, hconv⟩ := hself
  refine ⟨s.writeParam id.toNat u, ?_, readReg_writeParam_same s hi u⟩
  rw [exec_setp_stores s hi hn, hconv]

/-- Settles O15: an ignored SETP leaves the state, a dropped one sets a flag that only STATUS shows, and an accepted one
writes a register that no other id shows. -/
theorem setpWritesOneRegister : Obligations.SetpWritesOneRegister := by
  intro s t id v h
  replace h : execSetp id v s = .next t := h
  rcases execSetp_cases id v s with ⟨_, e⟩ | ⟨i, hi, ⟨hn, e⟩ | ⟨_, e⟩⟩ <;> rw [e] at h <;> cases h
  · exact ⟨fun _ _ _ => rfl, fun _ => rfl, fun _ => rfl, fun _ => rfl, rfl⟩
  · have hp := isParamId_of_index hi
    refine ⟨fun _ _ hne => readReg_raise_ne s _ hne, fun hor => ?_, fun hf => ?_, fun _ => rfl, rfl⟩
    · simp [hp, hn] at hor
    · simp [hp] at hf
  · have hp := isParamId_of_index hi
    refine ⟨fun _ hne _ => readReg_writeParam_ne s hne _, fun _ => ?_, fun hf => ?_, fun _ => rfl, rfl⟩
    · rw [readReg_status, readReg_status, State.writeParam_status]
    · simp [hp] at hf

/-- Settles O16: STATUS bit by bit after CLRST, and the drop of a CLRST word with a reserved field set. -/
theorem clrstClearsTheNamedFlags : Obligations.ClrstClearsTheNamedFlags := by
  refine ⟨fun s mask => ⟨s.clearStatus mask, rfl, clearFlags_getLsbD s.status mask, rfl⟩, fun s w ws hp ho hr => ?_⟩
  have hopc : opc w = 5 := ho
  exact step_of_reservedNonzero hp (by rw [hopc]; decide) hr

end
end

section
/-! SUPPORT. A voice slot in ACTIVE: how replacing a slot changes the count of active voices (41_voice.md R151). -/

namespace Sys2Proof.Machine

/-- The voice GATEON writes is active. -/
theorem active_gatedOn (vel note : F32) : (gatedOn vel note).active = true := rfl

theorem active_eq_false_iff {v : Voice} : v.active = false ↔ v.phase = .idle := by
  simp [Voice.active]

/-- Replacing a slot a second time by the same voice changes nothing. -/
theorem State.setVoice_setVoice (s : State) (v : Nat) (x : Voice) : (s.setVoice v x).setVoice v x = s.setVoice v x := by
  simp only [State.setVoice, List.set_set]

/-- An active voice in a slot counts once more in ACTIVE if the slot was Idle, and as before if it was not. -/
theorem activeCount_setVoice_active {s : State} {v : Nat} {x y : Voice} (hx : s.voices[v]? = some x)
    (hy : y.active = true) : activeCount (s.setVoice v y) = activeCount s + (if x.phase = .idle then 1 else 0) := by
  obtain ⟨hv, rfl⟩ := List.getElem?_eq_some_iff.1 hx
  rw [activeCount, State.setVoice_voices, List.countP_set hv, if_pos hy, ← activeCount]
  cases ha : s.voices[v].active with
  | false => simp [active_eq_false_iff.1 ha]
  | true =>
    have hpos : 0 < activeCount s := List.countP_pos_iff.2 ⟨_, List.getElem_mem hv, ha⟩
    have hsounding : s.voices[v].phase ≠ .idle := by simpa [Voice.active] using ha
    rw [if_pos rfl, if_neg hsounding, Nat.sub_add_cancel hpos, Nat.add_zero]

end Sys2Proof.Machine

section
open Sys2Proof Sys2Proof.Machine

/-- Settles O19: both times GATEON writes the same voice into the same slot, an active one. -/
theorem retriggerKeepsOneVoice : Obligations.RetriggerKeepsOneVoice := by
  intro s t v vel note hv hn h
  have gateon {u : State} (hu : v.toNat < u.nv) : exec (.gateon v vel note) u
      = .next (u.setVoice v.toNat (gatedOn (velOf vel) (noteOf ⟨note⟩))) := by
    rcases execGateon_cases v vel note u with ⟨hlt, _⟩ | ⟨_, hnan, _⟩ | ⟨_, _, e⟩
    · omega
    · simp [hn] at hnan
    · exact e
  obtain rfl := Host.Outcome.next.inj ((gateon hv).symm.trans h)
  refine ⟨?_, fun x hx => activeCount_setVoice_active hx (active_gatedOn _ _), List.countP_le_length⟩
  rw [gateon (by simpa using hv), State.setVoice_setVoice]

end
end

section
/-! SUPPORT. The envelope segment by segment: what each one leaves while it runs and at its end, which phases it can
lead to, and what a voice slot holds after the frames of a RENDER (41_voice.md R136 to R144). -/

namespace Sys2Proof.Machine
open F32 Consts

variable {P : ParamFile} {fs : Nat} {v : Voice}

/-! ### Segments -/

/-- The test for the end of a segment of duration D at the given time: degenerate, or the time is up (R139 to R143). -/
abbrev segmentEnded (D time : F32) : Bool := le D tSnap || le D time

/-- A degenerate segment has ended at any time (R143). -/
theorem segmentEnded_of_le_tSnap {D : F32} (h : le D tSnap = true) (time : F32) : segmentEnded D time = true := by
  rw [segmentEnded, h, Bool.true_or]

theorem envDecay_of_ended (h : segmentEnded (par P Reg.envDecay) v.time = true) :
    envDecay P v = { v with level := par P Reg.envSustain, phase := .sustain, time := F32.zero } := if_pos h

theorem envDecay_of_running (h : ¬ segmentEnded (par P Reg.envDecay) v.time = true) :
    envDecay P v = { v with
      level := add one (mul (sub (par P Reg.envSustain) one) (div v.time (par P Reg.envDecay))) } := if_neg h

theorem envAttack_of_ended (h : segmentEnded (par P Reg.envAttack) v.time = true) :
    envAttack P v = envDecay P { v with level := one, phase := .decay, time := F32.zero } := if_pos h

theorem envAttack_of_running (h : ¬ segmentEnded (par P Reg.envAttack) v.time = true) :
    envAttack P v = { v with level := div v.time (par P Reg.envAttack) } := if_neg h

theorem envRelease_of_ended (h : segmentEnded (par P Reg.envRelease) v.time = true) :
    envRelease P v = { v with level := F32.zero, phase := .idle, time := F32.zero } := if_pos h

theorem envRelease_of_running (h : ¬ segmentEnded (par P Reg.envRelease) v.time = true) :
    envRelease P v = { v with level := mul v.relStart (sub one (div v.time (par P Reg.envRelease))) } := if_neg h

theorem envAdvance_idle (h : v.phase = .idle) (d : F32) : envAdvance P d v = { v with level := F32.zero } := by
  simp only [envAdvance, h]

theorem envAdvance_attack (h : v.phase = .attack) (d : F32) : envAdvance P d v = envAttack P (envTick d v) := by
  simp only [envAdvance, h]

theorem envAdvance_decay (h : v.phase = .decay) (d : F32) : envAdvance P d v = envDecay P (envTick d v) := by
  simp only [envAdvance, h]

theorem envAdvance_sustain (h : v.phase = .sustain) (d : F32) : envAdvance P d v = envSustain P (envTick d v) := by
  simp only [envAdvance, h]

theorem envAdvance_release (h : v.phase = .release) (d : F32) : envAdvance P d v = envRelease P (envTick d v) := by
  simp only [envAdvance, h]

/-- A voice's frame leaves of its envelope what EnvAdvance leaves. -/
theorem voiceFrame_envelope (v : Voice) (d : Nat) :
    (voiceFrame P fs v d).1.phase = (envAdvance P (dt fs) v).phase
      ∧ (voiceFrame P fs v d).1.time = (envAdvance P (dt fs) v).time
      ∧ (voiceFrame P fs v d).1.level = (envAdvance P (dt fs) v).level := ⟨rfl, rfl, rfl⟩

/-! ### Phases -/

theorem envDecay_phase (h : v.phase = .decay) : (envDecay P v).phase ∈ phasesAfter .decay := by
  by_cases he : segmentEnded (par P Reg.envDecay) v.time = true
  · simp [envDecay_of_ended he, phasesAfter]
  · simp [envDecay_of_running he, h, phasesAfter]

theorem envAttack_phase (h : v.phase = .attack) : (envAttack P v).phase ∈ phasesAfter .attack := by
  by_cases he : segmentEnded (par P Reg.envAttack) v.time = true
  · rw [envAttack_of_ended he]
    exact List.mem_cons_of_mem _ (envDecay_phase rfl)
  · simp [envAttack_of_running he, h, phasesAfter]

theorem envRelease_phase (h : v.phase = .release) : (envRelease P v).phase ∈ phasesAfter .release := by
  by_cases he : segmentEnded (par P Reg.envRelease) v.time = true
  · simp [envRelease_of_ended he, phasesAfter]
  · simp [envRelease_of_running he, h, phasesAfter]

/-- EnvAdvance moves a voice forward through its phases only (R136). -/
theorem envAdvance_phase (d : F32) (v : Voice) : (envAdvance P d v).phase ∈ phasesAfter v.phase := by
  cases h : v.phase with
  | idle => simp [envAdvance_idle h, h, phasesAfter]
  | attack => rw [envAdvance_attack h]; exact envAttack_phase h
  | decay => rw [envAdvance_decay h]; exact envDecay_phase h
  | sustain => simp [envAdvance_sustain h, envSustain, envTick, h, phasesAfter]
  | release => rw [envAdvance_release h]; exact envRelease_phase h

theorem mem_phasesAfter_self (p : Phase) : p ∈ phasesAfter p := by cases p <;> decide

/-- A phase reached from a phase reached is reached. -/
theorem mem_phasesAfter_trans {p : Phase} : ∀ q ∈ phasesAfter p, ∀ r ∈ phasesAfter q, r ∈ phasesAfter p := by
  cases p <;> decide

/-- No phase leads to Attack but Attack itself. -/
theorem ne_attack_of_mem_phasesAfter {p q : Phase} (hp : p ≠ .attack) (hq : q ∈ phasesAfter p) : q ≠ .attack := by
  rintro rfl
  cases p with
  | attack => exact hp rfl
  | idle | decay | sustain | release => exact absurd hq (by decide)

/-! ### A slot through the frames of a block -/

/-- A frame of the pass leaves an Idle slot as it was and takes any other through its frame. -/
theorem accFrame_slot {vs : List Voice} {k : Nat} {x : Voice} (hx : vs[k]? = some x) (sum : Stereo F32) (d : Nat) :
    ∃ d', (accFrame P fs vs sum d).voices[k]?
      = some (if x.phase = .idle then x else (voiceFrame P fs x d').1) := by
  induction vs generalizing k sum d with
  | nil => simp at hx
  | cons w vs ih =>
    cases k with
    | zero =>
      obtain rfl : w = x := by simpa using hx
      refine ⟨d, ?_⟩
      unfold accFrame
      split <;> rfl
    | succ k =>
      unfold accFrame
      split
      · exact ih hx _ _
      · exact ih hx _ _

/-- What every frame of a sounding voice keeps holds of a slot after the whole pass. -/
theorem accumulate_slot {Q : Voice → Prop} (hQ : ∀ v d, v.phase ≠ .idle → Q v → Q (voiceFrame P fs v d).1) (n : Nat)
    {vs : List Voice} {k : Nat} {x : Voice} (hx : vs[k]? = some x) (h : Q x) (d : Nat) :
    ∃ y, (accumulate P fs n vs d).voices[k]? = some y ∧ Q y := by
  induction n generalizing vs x d with
  | zero => exact ⟨x, hx, h⟩
  | succ n ih =>
    obtain ⟨d', hx'⟩ := accFrame_slot (P := P) (fs := fs) hx ⟨F32.zero, F32.zero⟩ d
    refine ih hx' ?_ _
    split
    · exact h
    · exact hQ x d' ‹_› h

/-- What the first frame of a sounding slot establishes and every further one keeps holds after an accepted RENDER. -/
theorem exec_render_slot {s t : State} {n : Word} {v : Nat} {x y : Voice} {Q : Voice → Prop}
    (hQ : ∀ v d, v.phase ≠ .idle → Q v → Q (voiceFrame s.regs s.cfg.fs v d).1) (ha : s.Accepts n)
    (ht : exec (.render n) s = .next t) (hx : s.voices[v]? = some x) (hy : t.voices[v]? = some y)
    (hs : x.phase ≠ .idle) (hfirst : ∀ d, Q (voiceFrame s.regs s.cfg.fs x d).1) : Q y := by
  obtain rfl := Host.Outcome.next.inj ((exec_render_of_accepts ha).symm.trans ht)
  obtain ⟨m, hm⟩ : ∃ m, n.toNat = m + 1 := ⟨n.toNat - 1, (Nat.sub_add_cancel ha.1).symm⟩
  obtain ⟨d', hx'⟩ := accFrame_slot (P := s.regs) (fs := s.cfg.fs) hx ⟨F32.zero, F32.zero⟩ s.draws
  rw [if_neg hs] at hx'
  obtain ⟨z, hz, hQz⟩ := accumulate_slot hQ m hx' (hfirst d') (accFrame s.regs s.cfg.fs s.voices _ s.draws).draws
  rw [State.render_voices, hm] at hy
  obtain rfl : z = y := Option.some.inj (hz.symm.trans hy)
  exact hQz

/-- RENDER 1 leaves of a sounding slot's envelope what EnvAdvance leaves. -/
theorem render_one_envelope {s : State} {v : Nat} {x : Voice} (hx : s.voices[v]? = some x) (hs : x.phase ≠ .idle) :
    ∃ y, (s.render 1).voices[v]? = some y ∧ y.phase = (envAdvance s.regs (dt s.cfg.fs) x).phase
      ∧ y.time = (envAdvance s.regs (dt s.cfg.fs) x).time ∧ y.level = (envAdvance s.regs (dt s.cfg.fs) x).level := by
  obtain ⟨d, hy⟩ := accFrame_slot (P := s.regs) (fs := s.cfg.fs) hx ⟨F32.zero, F32.zero⟩ s.draws
  rw [if_neg hs] at hy
  exact ⟨_, hy, voiceFrame_envelope x d⟩

/-- What Decay leaves at the given time: Sustain at level S if it has ended, else its level on the fall to S. -/
theorem envDecay_leaves (h : v.phase = .decay) :
    if segmentEnded (par P Reg.envDecay) v.time then
      (envDecay P v).phase = .sustain ∧ (envDecay P v).time = F32.zero ∧ (envDecay P v).level = par P Reg.envSustain
    else (envDecay P v).phase = .decay ∧ (envDecay P v).time = v.time
      ∧ (envDecay P v).level = add one (mul (sub (par P Reg.envSustain) one) (div v.time (par P Reg.envDecay))) := by
  split
  case isTrue he => rw [envDecay_of_ended he]; exact ⟨rfl, rfl, rfl⟩
  case isFalse he => rw [envDecay_of_running he]; exact ⟨h, rfl, rfl⟩

end Sys2Proof.Machine

section
open Sys2Proof Sys2Proof.Machine

/-- Settles O39: the segment's two cases in each phase, the end of Attack going through those of Decay at time 0. -/
theorem envelopeAdvancesOneFrame : Obligations.EnvelopeAdvancesOneFrame := by
  intro s v x hmax hx
  have hexec : exec (.render 1) s = .next (s.render 1) := exec_render_of_accepts ⟨le_rfl, hmax⟩
  by_cases hs : x.phase = .idle
  · refine ⟨s.render 1, x, hexec, accumulate_idle _ _ _ _ _ hx hs, ?_⟩
    simp only [hs]
  obtain ⟨y, hy, hphase, htime, hlevel⟩ := render_one_envelope hx hs
  refine ⟨s.render 1, y, hexec, hy, ?_⟩
  cases hp : x.phase <;> simp only [hphase, htime, hlevel]
  case idle => exact absurd hp hs
  case attack =>
    rw [envAdvance_attack hp]
    split
    case isTrue h =>
      rw [envAttack_of_ended (v := envTick (Consts.dt s.cfg.fs) x) h]
      exact envDecay_leaves (v := { envTick _ x with level := F32.one, phase := .decay, time := F32.zero }) rfl
    case isFalse h =>
      rw [envAttack_of_running (v := envTick (Consts.dt s.cfg.fs) x) h]
      exact ⟨hp, rfl, rfl⟩
  case decay =>
    rw [envAdvance_decay hp]
    exact envDecay_leaves (v := envTick _ x) hp
  case sustain =>
    rw [envAdvance_sustain hp]
    exact ⟨hp, rfl⟩
  case release =>
    rw [envAdvance_release hp]
    split
    case isTrue h =>
      rw [envRelease_of_ended (v := envTick (Consts.dt s.cfg.fs) x) h]
      exact ⟨rfl, rfl, rfl⟩
    case isFalse h =>
      rw [envRelease_of_running (v := envTick (Consts.dt s.cfg.fs) x) h]
      exact ⟨hp, rfl, rfl⟩

end
end

section
/-! SUPPORT. What commands leave of a slot: replacing another one leaves it as it is, and the frames of a RENDER leave
an Idle one as it is and a sustaining one in Sustain at level S (41_voice.md R141, R143, R150). -/

namespace Sys2Proof.Machine
open F32

variable {P : ParamFile} {v : Voice}

/-- RENDER leaves an Idle slot as it is, accepted or dropped. -/
theorem exec_render_idle {s t : State} {n : Word} {k : Nat} {x : Voice} (hx : s.voices[k]? = some x)
    (hi : x.phase = .idle) (h : exec (.render n) s = .next t) : t.voices[k]? = some x := by
  by_cases ha : s.Accepts n
  · obtain rfl := Host.Outcome.next.inj ((exec_render_of_accepts ha).symm.trans h)
    exact accumulate_idle _ _ _ _ _ hx hi
  · obtain rfl := Host.Outcome.next.inj ((exec_render_of_not_accepts ha).symm.trans h)
    exact hx

/-- The slots after one was replaced: the new voice there, every other slot as it was. -/
theorem setVoice_slot {s : State} {w k : Nat} {x y z : Voice} (hx : s.voices[k]? = some x)
    (hy : (s.setVoice w z).voices[k]? = some y) : y = if w = k then z else x := by
  rw [State.setVoice_voices] at hy
  split
  case isTrue hw =>
    subst hw
    rw [List.getElem?_set_self (List.getElem?_eq_some_iff.1 hx).1] at hy
    exact (Option.some.inj hy).symm
  case isFalse hw =>
    rw [List.getElem?_set_ne hw, hx] at hy
    exact (Option.some.inj hy).symm

/-- A command that leaves the voices alone leaves every slot as it was. -/
theorem slot_eq_of_voices_eq {s t : State} {k : Nat} {x y : Voice} (hx : s.voices[k]? = some x)
    (hy : t.voices[k]? = some y) (h : t.voices = s.voices) : y = x :=
  Option.some.inj (by rw [← hy, h, hx])

/-- What GATEON leaves of a slot: the named one is restarted, if the command is not dropped. -/
theorem execGateon_slot {s t : State} {w : BitVec 8} {vel : BitVec 16} {note : Word} {k : Nat} {x y : Voice}
    (h : execGateon w vel note s = .next t) (hx : s.voices[k]? = some x) (hy : t.voices[k]? = some y) :
    if w.toNat = k then y = x ∨ y.phase = .attack else y = x := by
  rcases execGateon_cases w vel note s with ⟨_, e⟩ | ⟨_, _, e⟩ | ⟨_, _, e⟩ <;> cases e.symm.trans h
  · simp [slot_eq_of_voices_eq hx hy rfl]
  · simp [slot_eq_of_voices_eq hx hy rfl]
  · rw [setVoice_slot hx hy]
    split
    · exact .inr rfl
    · rfl

/-- What GATEOFF leaves of a slot: the named one is released, if it is sounding. -/
theorem execGateoff_slot {s t : State} {w : BitVec 8} {k : Nat} {x y : Voice} (h : execGateoff w s = .next t)
    (hx : s.voices[k]? = some x) (hy : t.voices[k]? = some y) :
    if w.toNat = k then (x.phase = .idle ∧ y = x) ∨ (x.phase ≠ .idle ∧ y.phase = .release) else y = x := by
  rcases execGateoff_cases w s with ⟨hnone, e⟩ | ⟨z, hz, e⟩ <;> cases e.symm.trans h
  · have hne : w.toNat ≠ k := by
      rintro rfl
      simp [hnone] at hx
    simp [hne, slot_eq_of_voices_eq hx hy rfl]
  · rw [setVoice_slot hx hy]
    split
    case isTrue hw =>
      obtain rfl : z = x := Option.some.inj (by rw [← hz, hw, hx])
      by_cases hp : z.phase = .idle
      · exact .inl ⟨hp, gatedOff_of_idle hp⟩
      · exact .inr ⟨hp, by rw [gatedOff_of_sounding hp]⟩
    case isFalse => rfl

/-- RENDER moves a slot forward through its phases only. -/
theorem exec_render_phase {s t : State} {n : Word} {k : Nat} {x y : Voice} (h : exec (.render n) s = .next t)
    (hx : s.voices[k]? = some x) (hy : t.voices[k]? = some y) : y.phase ∈ phasesAfter x.phase := by
  by_cases hp : x.phase = .idle
  · obtain rfl : x = y := Option.some.inj ((exec_render_idle hx hp h).symm.trans hy)
    exact mem_phasesAfter_self _
  by_cases ha : s.Accepts n
  · exact exec_render_slot (Q := fun w => w.phase ∈ phasesAfter x.phase)
      (fun w _ _ hw => mem_phasesAfter_trans _ hw _ (envAdvance_phase _ w)) ha h hx hy hp
      fun _ => envAdvance_phase _ x
  · cases (exec_render_of_not_accepts ha).symm.trans h
    rw [slot_eq_of_voices_eq hx hy rfl]
    exact mem_phasesAfter_self _

/-- The voice is in Sustain at the level S of the registers. -/
def InSustain (P : ParamFile) (v : Voice) : Prop := v.phase = .sustain ∧ v.level = par P Reg.envSustain

theorem envAdvance_inSustain (h : InSustain P v) (d : F32) : InSustain P (envAdvance P d v) := by
  rw [envAdvance_sustain h.1]
  exact ⟨h.1, rfl⟩

/-- A degenerate Decay is in Sustain at once (R143). -/
theorem envDecay_inSustain (h : le (par P Reg.envDecay) Consts.tSnap = true) : InSustain P (envDecay P v) := by
  rw [envDecay_of_ended (segmentEnded_of_le_tSnap h _)]
  exact ⟨rfl, rfl⟩

end Sys2Proof.Machine

section
open Sys2Proof Sys2Proof.Machine

/-- Settles O40: what each command leaves of a slot. -/
theorem envelopePhasesMoveForward : Obligations.EnvelopePhasesMoveForward := by
  intro i s t v x y h hx hy
  have same : t.voices = s.voices → y = x := slot_eq_of_voices_eq hx hy
  cases i with
  | nop => exact same (by cases h; rfl)
  | setp id value =>
    replace h : execSetp id value s = .next t := h
    refine same ?_
    rcases execSetp_cases id value s with ⟨_, e⟩ | ⟨_, _, ⟨_, e⟩ | ⟨_, e⟩⟩ <;> cases e.symm.trans h <;> rfl
  | gateon w vel note => exact execGateon_slot h hx hy
  | gateoff w => exact execGateoff_slot h hx hy
  | render n =>
    exact ⟨exec_render_phase h hx hy, fun hp => Option.some.inj (hy.symm.trans (exec_render_idle hx hp h))⟩
  | clrst mask => exact same (by cases h; rfl)

/-- Settles O41: a degenerate segment has ended at any time, and no later frame leaves what its end leads to. -/
theorem degenerateDurationsSnap : Obligations.DegenerateDurationsSnap := by
  intro s t n v x y ha ht hx hy
  have sustains (hs : x.phase ≠ .idle) (hfirst : InSustain s.regs (envAdvance s.regs (Consts.dt s.cfg.fs) x)) :
      InSustain s.regs y :=
    exec_render_slot (fun _ _ _ hw => envAdvance_inSustain hw _) ha ht hx hy hs fun _ => hfirst
  refine ⟨fun hA hp => ?_, fun hD hp => ?_, fun hA hD hp => ?_, fun hR hp => ?_⟩
  · refine exec_render_slot (Q := fun w => w.phase ≠ .attack)
      (fun w _ _ hw => ne_attack_of_mem_phasesAfter hw (envAdvance_phase _ w)) ha ht hx hy (by simp [hp]) fun _ => ?_
    rw [(voiceFrame_envelope _ _).1, envAdvance_attack hp, envAttack_of_ended (segmentEnded_of_le_tSnap hA _)]
    exact ne_attack_of_mem_phasesAfter (by decide) (envDecay_phase rfl)
  · exact sustains (by simp [hp]) (envAdvance_decay hp _ ▸ envDecay_inSustain hD)
  · refine sustains (by simp [hp]) ?_
    rw [envAdvance_attack hp, envAttack_of_ended (segmentEnded_of_le_tSnap hA _)]
    exact envDecay_inSustain hD
  · refine exec_render_slot (Q := fun w => w.phase = .idle ∧ w.level = F32.zero)
      (fun w _ hs hw => absurd hw.1 hs) ha ht hx hy (by simp [hp]) fun d => ?_
    obtain ⟨hphase, -, hlevel⟩ := voiceFrame_envelope (P := s.regs) (fs := s.cfg.fs) x d
    rw [hphase, hlevel, envAdvance_release hp, envRelease_of_ended (segmentEnded_of_le_tSnap hR _)]
    exact ⟨rfl, rfl⟩

end
end

section
/-! SUPPORT. An Idle slot is skipped: whatever Idle voice it holds, the pass over the other slots is the same
(41_voice.md R150, 42_render.md R162). -/

namespace Sys2Proof.Machine

variable {P : ParamFile} {fs : Nat}

/-- Another Idle voice in an Idle slot changes only that slot of a frame of the pass. -/
theorem accFrame_set_idle {x x' : Voice} (hi : x.phase = .idle) (hi' : x'.phase = .idle) {vs : List Voice} {k : Nat}
    (hx : vs[k]? = some x) (sum : Stereo F32) (d : Nat) : accFrame P fs (vs.set k x') sum d
      = { accFrame P fs vs sum d with voices := (accFrame P fs vs sum d).voices.set k x' } := by
  induction vs generalizing k sum d with
  | nil => simp at hx
  | cons v vs ih =>
    cases k with
    | zero =>
      obtain rfl : v = x := by simpa using hx
      simp [accFrame, hi, hi']
    | succ k =>
      replace hx : vs[k]? = some x := hx
      simp only [List.set_cons_succ, accFrame, ih hx]
      split <;> rfl

/-- Another Idle voice in an Idle slot changes only that slot of the whole pass. -/
theorem accumulate_set_idle {x x' : Voice} (hi : x.phase = .idle) (hi' : x'.phase = .idle) (n : Nat) {vs : List Voice}
    {k : Nat} (hx : vs[k]? = some x) (d : Nat) : accumulate P fs n (vs.set k x') d
      = { accumulate P fs n vs d with voices := (accumulate P fs n vs d).voices.set k x' } := by
  induction n generalizing vs d with
  | zero => rfl
  | succ n ih => simp only [accumulate, accFrame_set_idle hi hi' hx, ih (accFrame_idle P fs _ d k hx hi)]

/-- Another Idle voice in an Idle slot changes only that slot of what an accepted RENDER leaves. -/
theorem render_set_idle {s : State} {k : Nat} {x x' : Voice} (hx : s.voices[k]? = some x) (hi : x.phase = .idle)
    (hi' : x'.phase = .idle) (n : Nat) : State.render { s with voices := s.voices.set k x' } n
      = { s.render n with voices := (s.render n).voices.set k x' } := by
  simp only [State.render, accumulate_set_idle hi hi' n hx]
  rfl

end Sys2Proof.Machine

section
open Sys2Proof Sys2Proof.Machine

/-- Settles O42: the accumulation pass skips the slot in every frame, and nothing after it reads a voice. -/
theorem idleVoiceIsInert : Obligations.IdleVoiceIsInert := by
  intro s t n v x x' hx hi hi' h
  refine ⟨exec_render_idle hx hi h, ?_⟩
  by_cases ha : s.Accepts n
  · have ha' : State.Accepts { s with voices := s.voices.set v x' } n := ha
    obtain rfl := Host.Outcome.next.inj ((exec_render_of_accepts ha).symm.trans h)
    rw [exec_render_of_accepts ha', render_set_idle hx hi hi']
  · have ha' : ¬ State.Accepts { s with voices := s.voices.set v x' } n := ha
    obtain rfl := Host.Outcome.next.inj ((exec_render_of_not_accepts ha).symm.trans h)
    exact exec_render_of_not_accepts ha'

end
end

section
/-! SUPPORT. The waveforms over the phases [0, 1), each step of their formulas bounded by binary32 values, and the mean
of a slot's unison samples (41_voice.md R124, R128 to R135). -/

namespace Sys2Proof

namespace F32
open Machine

/-- The range of a sample is the interval from −1 to 1. -/
theorem inUnit_eq_within (x : F32) : inUnit x = within negOne one x := rfl

/-- The exact value of abs is the absolute value. -/
theorem fix_abs (x : F32) : (abs x).fix = |x.fix| := by
  rw [Int.abs_eq_natAbs, natAbs_fix, abs_eq_pack, fix, neg_pack _ (mag_lt x), mag_pack _ (mag_lt x)]
  rfl

theorem isFinite_abs {x : F32} (h : x.isFinite = true) : (abs x).isFinite = true := by
  rw [abs_eq_pack, isFinite, mag_pack _ (mag_lt x)]
  exact h

theorem lt_of_le_of_lt_of {a b c : F32} (h₁ : le a b = true) (h₂ : lt b c = true) : lt a c = true := by
  obtain ⟨ha, -, hab⟩ := le_iff.1 h₁
  obtain ⟨-, hc, hbc⟩ := lt_iff.1 h₂
  exact lt_iff.2 ⟨ha, hc, hab.trans_lt hbc⟩

/-- A number below 1 is at most 1 − 2^-24, the binary32 value before 1. -/
theorem le_pred_one {x : F32} (h : lt x one = true) : le x ⟨0x3F7FFFFF#32⟩ = true := by
  obtain ⟨hx, -, hk⟩ := lt_iff.1 h
  have hone : one.key = (F32.mk 0x3F7FFFFF#32).key + 1 := by decide +kernel
  exact le_iff.2 ⟨hx, by decide, by omega⟩

end F32

namespace Machine
open F32 Consts

variable {q : F32}

/-- A phase is at most 1 − 2^-24. -/
theorem within_pred_one_of_inPhase (h : inPhase q = true) : within F32.zero ⟨0x3F7FFFFF#32⟩ q = true := by
  obtain ⟨h0, h1⟩ := Bool.and_eq_true_iff.1 h
  exact Bool.and_eq_true_iff.2 ⟨h0, le_pred_one h1⟩

/-- Saw is at least −1 and at most 1 − 2^-23: twice the phase is at most 2 − 2^-23. -/
theorem waveSaw_within (h : inPhase q = true) : within negOne ⟨0x3F7FFFFE#32⟩ (waveSaw q) = true := by
  have v1 : (F32.mk 0x3F7FFFFF#32).fix = 2 ^ 149 - 2 ^ 125 := by decide +kernel
  have v2 : (F32.mk 0x3FFFFFFF#32).fix = 2 ^ 150 - 2 ^ 126 := by decide +kernel
  have v3 : (F32.mk 0x3F7FFFFE#32).fix = 2 ^ 149 - 2 ^ 126 := by decide +kernel
  have vtwo : two.fix = 2 ^ 150 := by decide +kernel
  obtain ⟨fq, q0, q1⟩ := (within_iff (by decide) (by decide)).1 (within_pred_one_of_inPhase h)
  rw [fix_zero] at q0
  rw [v1] at q1
  have hdouble : within F32.zero ⟨0x3FFFFFFF#32⟩ (mul two q) = true :=
    within_mul (by decide) (by decide) (by decide) fq (by rw [fix_zero, vtwo]; omega) (by rw [v2, vtwo]; omega)
  obtain ⟨fd, d0, d1⟩ := (within_iff (by decide) (by decide)).1 hdouble
  rw [fix_zero] at d0
  rw [v2] at d1
  exact within_sub (by decide) (by decide) fd (by decide) (by rw [fix_negOne, fix_one]; omega)
    (by rw [v3, fix_one]; omega)

/-- Triangle lies in [−1, 1]: the distance of the phase from 0.5 is at most 0.5. -/
theorem waveTriangle_within (h : inPhase q = true) : within negOne one (waveTriangle q) = true := by
  have vhalf : half.fix = 2 ^ 148 := by decide +kernel
  have vmhalf : (F32.mk 0xBF000000#32).fix = -2 ^ 148 := by decide +kernel
  have vtwo : two.fix = 2 ^ 150 := by decide +kernel
  have h4 : dec 4 1 = ⟨0x40800000#32⟩ := by decide +kernel
  have v4 : (F32.mk 0x40800000#32).fix = 2 ^ 151 := by decide +kernel
  obtain ⟨fq, q0, q1⟩ := inPhase_iff.1 h
  have hdist : within ⟨0xBF000000#32⟩ half (sub q half) = true :=
    within_sub (by decide) (by decide) fq (by decide) (by rw [vmhalf, vhalf]; omega) (by rw [vhalf]; omega)
  obtain ⟨fs, s0, s1⟩ := (within_iff (by decide) (by decide)).1 hdist
  rw [vmhalf] at s0
  rw [vhalf] at s1
  have habs : |(sub q half).fix| ≤ 2 ^ 148 := abs_le.2 ⟨s0, s1⟩
  have habs0 := abs_nonneg (sub q half).fix
  have hscaled : within F32.zero two (mul ⟨0x40800000#32⟩ (F32.abs (sub q half))) = true :=
    within_mul (by decide) (by decide) (by decide) (isFinite_abs fs) (by rw [fix_zero, v4, fix_abs]; omega)
      (by rw [vtwo, v4, fix_abs]; omega)
  obtain ⟨fm, m0, m1⟩ := (within_iff (by decide) (by decide)).1 hscaled
  rw [fix_zero] at m0
  rw [vtwo] at m1
  rw [waveTriangle, h4]
  exact within_sub (by decide) (by decide) fm (by decide) (by rw [fix_negOne, fix_one]; omega)
    (by rw [fix_one]; omega)

/-- Sine lies in [−1, 1]: its operand is finite. -/
theorem inUnit_waveSine (h : inPhase q = true) : inUnit (waveSine q) = true := by
  obtain ⟨fq, q0, q1⟩ := inPhase_iff.1 h
  have hpos : 0 ≤ twoPi.fix := by decide +kernel
  have hangle : within F32.zero twoPi (mul twoPi q) = true :=
    within_mul (by decide) (by decide) (by decide) fq (by rw [fix_zero, zero_mul]; exact mul_nonneg hpos q0)
      (mul_le_mul_of_nonneg_left q1.le hpos)
  obtain ⟨fa, -, -⟩ := (within_iff (by decide) (by decide)).1 hangle
  exact inUnit_fSin fa

theorem waveSquare_of_lt {pw : F32} (h : lt q pw = true) : waveSquare q pw = one := if_pos h

theorem waveSquare_of_le {pw : F32} (h : le pw q = true) : waveSquare q pw = negOne :=
  if_neg (by rw [lt_eq_false_of_le h]; decide)

theorem inUnit_waveSquare (q pw : F32) : inUnit (waveSquare q pw) = true := by
  unfold waveSquare
  split <;> decide

theorem inUnit_noiseDraw (n : Nat) : inUnit (noiseDraw n) = true := narrow_ok (by decide) _

/-- Every waveform's value over the phases lies in [−1, 1]. -/
theorem inUnit_wave (h : inPhase q = true) (code : Nat) (pw : F32) (draws : Nat) :
    inUnit (wave code q pw draws).1 = true := by
  unfold wave
  split
  · exact inUnit_waveSine h
  · obtain ⟨h1, h2⟩ := Bool.and_eq_true_iff.1 (waveSaw_within h)
    exact Bool.and_eq_true_iff.2 ⟨h1, le_trans_of h2 (by decide +kernel)⟩
  · exact inUnit_waveSquare q pw
  · exact waveTriangle_within h
  · exact inUnit_noiseDraw draws

/-! ### The mean of the unison samples -/

variable {P : ParamFile} {fs : Nat}

/-- The lookup phase of a phase is a phase: PHOFF is 0.0 (R128). -/
theorem inPhase_lookupPhase {acc : F32} (h : inPhase acc = true) : inPhase (lookupPhase acc) = true :=
  (frac_add_phase h (by decide) (by decide)).1

/-- The loop over further unison voices, each with a phase, adds at most one to the bound of the sum for each. -/
theorem unisonLoop_sum_within {s U : Nat} {base : F32} {ks : List (Fin 8)} (hks : ks.Nodup) {n m : Nat}
    (hm : n + ks.length = m) (hsmall : m < 16777216) {st : OscLoop} (hacc : ∀ k ∈ ks, inPhase st.acc[k] = true)
    (hsum : within (ofInt (-n)) (ofInt n) st.sum = true) :
    within (ofInt (-m)) (ofInt m) (ks.foldl (unisonStep P fs s U base) st).sum = true := by
  induction ks generalizing n st with
  | nil =>
    obtain rfl : n = m := hm
    exact hsum
  | cons k ks ih =>
    obtain ⟨hk, hks⟩ := List.nodup_cons.1 hks
    obtain ⟨hphase, hacc⟩ := List.forall_mem_cons.1 hacc
    rw [List.length_cons] at hm
    have hsample := inUnit_wave (inPhase_lookupPhase hphase) (parNat P (Reg.oscWave s)) (par P (Reg.oscPw s)) st.draws
    have hm1 : negOne = ofInt (-1) := by decide +kernel
    have h1 : one = ofInt 1 := by decide +kernel
    rw [inUnit_eq_within, hm1, h1] at hsample
    refine ih hks (n := n + 1) (by omega) (fun j hj => ?_) ?_
    · have hkj : k.val ≠ j.val := fun h => hk (Fin.ext h ▸ hj)
      simpa [unisonStep, hkj] using hacc j hj
    · exact within_ofInt_add hsum hsample (by push_cast; ring) (by push_cast; ring) (by simp; omega)

/-- A sum of U numbers of [−1, 1] divided by U lies in [−1, 1]. -/
theorem mean_within {U : Nat} (h1 : 1 ≤ U) (hsmall : U < 16777216) {sum : F32}
    (h : within (ofInt (-U)) (ofInt U) sum = true) : within negOne one (div sum (ofNat U)) = true := by
  obtain ⟨fs, s0, s1⟩ := (within_ofInt_iff (by omega) (by omega)).1 h
  obtain ⟨fU, vU⟩ := ofNat_exact hsmall
  exact within_div (by decide) (by decide) fs fU (by rw [vU]; omega) (by rw [fix_negOne, vU]; nlinarith)
    (by rw [fix_one, vU]; nlinarith)

end Machine
end Sys2Proof

section
open Sys2Proof Sys2Proof.Machine

/-- Settles O45: the bounds of the waveforms over the phases, and the named values evaluated. -/
theorem waveformShapes : Obligations.WaveformShapes := by
  refine ⟨fun q hq => ?_, fun q pw => ⟨waveSquare_of_lt, waveSquare_of_le⟩, by decide +kernel, by decide +kernel,
    by decide +kernel⟩
  obtain ⟨h0, h1⟩ := Bool.and_eq_true_iff.1 hq
  obtain ⟨hlo, hhi⟩ := Bool.and_eq_true_iff.1 (waveSaw_within hq)
  have hbelow := F32.lt_of_le_of_lt_of hhi (c := F32.one) (by decide)
  exact ⟨⟨hlo, hbelow⟩, waveSquare_of_le h0, waveSquare_of_lt h1, fun code draws pw => inUnit_wave hq code pw draws⟩

/-- Settles O46: the loop reads each accumulator before it writes it, so every sample is one over a phase. -/
theorem oscillatorOutputInUnit : Obligations.OscillatorOutputInUnit := by
  intro P fs slot note acc draws h1 h8 hacc
  have hlen : (unisonIds.take (parNat P (Reg.oscUnison slot))).length = parNat P (Reg.oscUnison slot) := by
    rw [List.length_take]
    exact min_eq_left h8
  have hzero : within (F32.ofInt 0) (F32.ofInt 0) F32.zero = true := by decide +kernel
  refine mean_within h1 (by omega) (unisonLoop_sum_within (n := 0) ?_ (by rw [hlen, Nat.zero_add]) (by omega)
    (fun k hk => hacc k (lt_of_mem_unisonIds hk)) hzero)
  exact (List.take_sublist _ _).nodup (by decide)

/-- Settles O44: the fractions of the table evaluated. -/
theorem unisonOffsetsAreTheTable : Obligations.UnisonOffsetsAreTheTable := by
  unfold Obligations.UnisonOffsetsAreTheTable
  decide +kernel

end
end

section
/-! SUPPORT. A block without an active voice: its frames are +0.0, and the meters of such a block are at their floor
(41_voice.md R150, 42_render.md R162, R163). -/

namespace Sys2Proof

namespace F32

/-- +0.0 divided by a positive count is +0.0. -/
theorem zero_div_ofNat {n : Nat} (h : 1 ≤ n) : div zero (ofNat n) = zero := by
  have hmag : (ofNat n).mag = roundMag (n * 2 ^ 149) 1 := mag_pack _ (roundMag_lt _ _)
  have hneg : (ofNat n).neg = false := neg_pack _ (roundMag_lt _ _)
  have hone : fixMag 1065353216 = 2 ^ 149 := by decide +kernel
  have hpos : 1065353216 ≤ (ofNat n).mag := by
    rw [hmag]
    exact le_roundMag_of_le (by decide) (by decide) (by rw [hone]; omega)
  have hz : (ofNat n).isZero = false := decide_eq_false (by omega)
  have hzero : zero.isNaN = false ∧ zero.isInf = false ∧ zero.neg = false ∧ fixMag zero.mag = 0 := by decide
  obtain ⟨z1, z2, z3, z4⟩ := hzero
  simp only [div, z1, z2, z3, z4, isNaN_ofNat, hz, hneg, Bool.or_self, Bool.false_eq_true, if_false, zero_mul,
    roundMag_zero]
  split <;> decide

end F32

namespace Machine
open F32 Consts

variable {P : ParamFile} {fs : Nat}

/-- With every voice Idle a frame of the pass adds nothing, changes no voice and takes no draw. -/
theorem accFrame_of_all_idle {vs : List Voice} (h : ∀ x ∈ vs, x.phase = .idle) (sum : Stereo F32) (d : Nat) :
    accFrame P fs vs sum d = ⟨vs, sum, d⟩ := by
  induction vs with
  | nil => rfl
  | cons v vs ih =>
    obtain ⟨hv, hvs⟩ := List.forall_mem_cons.1 h
    rw [accFrame, if_pos hv, ih hvs]

/-- With every voice Idle the pass leaves frames of +0.0, every voice and the count of draws. -/
theorem accumulate_of_all_idle {vs : List Voice} (h : ∀ x ∈ vs, x.phase = .idle) (n d : Nat) :
    accumulate P fs n vs d = ⟨vs, List.replicate n ⟨F32.zero, F32.zero⟩, d⟩ := by
  induction n with
  | zero => rfl
  | succ n ih => simp only [accumulate, accFrame_of_all_idle h, ih, List.replicate_succ]

/-- A frame of +0.0 leaves peak and sum of squares at +0.0. -/
theorem meterStep_zero : meterStep ⟨F32.zero, F32.zero⟩ ⟨F32.zero, F32.zero⟩ = ⟨F32.zero, F32.zero⟩ := by
  decide +kernel

theorem foldl_meterStep_replicate_zero (n : Nat) :
    (List.replicate n ⟨F32.zero, F32.zero⟩).foldl meterStep ⟨F32.zero, F32.zero⟩ = ⟨F32.zero, F32.zero⟩ := by
  induction n with
  | zero => rfl
  | succ n ih => rw [List.replicate_succ, List.foldl_cons, meterStep_zero, ih]

/-- A block of frames of +0.0 has peak and RMS level +0.0. -/
theorem meter_replicate_zero {n : Nat} (h : 1 ≤ n) :
    meter (List.replicate n ⟨F32.zero, F32.zero⟩) = ⟨F32.zero, F32.zero⟩ := by
  have hroot : sqrt F32.zero = F32.zero := by decide
  have hmean := zero_div_ofNat (show 1 ≤ 2 * n by omega)
  simp only [meter, foldl_meterStep_replicate_zero, List.length_replicate, hmean, hroot]

/-- The level in dB of +0.0 is that of the floor. -/
theorem levelDb_zero : levelDb F32.zero = mul ⟨0x41A00000#32⟩ (fLog10 ⟨0x358637BD#32⟩) := by
  have h20 : dec 20 1 = ⟨0x41A00000#32⟩ := by decide +kernel
  have hfloor : maxf F32.zero meterFloor = ⟨0x358637BD#32⟩ := by decide +kernel
  rw [levelDb, h20, hfloor]

theorem State.render_peakDb (s : State) (n : Nat) :
    (s.render n).peakDb = levelDb (meter (accumulate s.regs s.cfg.fs n s.voices s.draws).frames).peak := by
  simp only [State.render, State.finishRender_peakDb, State.afterMeter_peakDb]

theorem State.render_rmsDb (s : State) (n : Nat) :
    (s.render n).rmsDb = levelDb (meter (accumulate s.regs s.cfg.fs n s.voices s.draws).frames).rms := by
  simp only [State.render, State.finishRender_rmsDb, State.afterMeter_rmsDb]

end Machine
end Sys2Proof

section
open Sys2Proof Sys2Proof.Machine

/-- Settles O56: the pass over Idle voices leaves frames of +0.0, and these meter as the floor. -/
theorem silentBlockMeters : Obligations.SilentBlockMeters := by
  intro s t n ha hidle h
  obtain rfl := Host.Outcome.next.inj ((exec_render_of_accepts ha).symm.trans h)
  rw [State.render_peakDb, State.render_rmsDb, State.render_voices, State.render_draws,
    accumulate_of_all_idle hidle, meter_replicate_zero ha.1]
  exact ⟨levelDb_zero, rfl, rfl, rfl⟩

end
end

section
/-! SUPPORT. The hard clamp below, above and inside [−1, 1], and the auto-gain multiplier on a silent block and in its
step (42_render.md R164, R174, R175). -/

namespace Sys2Proof

namespace F32

/-- x − x is +0.0 for a finite x. -/
theorem sub_self_of_isFinite {x : F32} (h : x.isFinite = true) : sub x x = zero := by
  have hz : x.fix + (negate x).fix = 0 := by rw [fix_negate]; omega
  have hneg := isFinite_negate h
  rw [sub_eq_add h h, add, not_isNaN_of_isFinite h, not_isNaN_of_isFinite hneg, isInf_eq_false h, isInf_eq_false hneg,
    hz, neg_negate]
  cases x.neg <;> rfl

/-- Adding +0.0 leaves the position of a finite number in the numeric order. -/
theorem key_add_zero {x : F32} (h : x.isFinite = true) : (add x zero).key = x.key := by
  rw [key_add h (by decide), fix_zero, add_zero, roundKey_fix h]

end F32

namespace Machine
open F32 Consts

/-- What is no NaN is clamped to [−1, 1]. -/
theorem hardClamp_of_not_isNaN {x : F32} (h : x.isNaN = false) : hardClamp x = clampf x negOne one := by
  rw [hardClamp, h, if_neg (by decide)]

variable {P : ParamFile} {lv : Levels} {ag : F32}

/-- The step the enabled auto-gain adds to its multiplier (42_render.md R164). -/
def autoGainStep (P : ParamFile) (lv : Levels) (ag : F32) : F32 :=
  clampf (sub (autoGainDesired P lv ag) ag) (sub F32.zero agStep) agStep

theorem autoGainUpdate_of_on (h : isOn P Reg.autogainEnable = true) (lv : Levels) (ag : F32) :
    autoGainUpdate P lv ag = clampf (add ag (autoGainStep P lv ag)) agMin agMax := if_pos h

theorem autoGainUpdate_of_off (h : isOn P Reg.autogainEnable = false) (lv : Levels) (ag : F32) :
    autoGainUpdate P lv ag = one := by
  rw [autoGainUpdate, h, if_neg (by decide)]

theorem autoGainStep_of_silent (hag : ag.isFinite = true) (h : lt agFloor lv.rms = false) :
    autoGainStep P lv ag = F32.zero := by
  rw [autoGainStep, autoGainDesired, h, if_neg (by decide), sub_self_of_isFinite hag]
  decide +kernel

theorem autoGainStep_within (hP : P.Legal) (lv : Levels) (h : within agMin agMax ag = true) :
    within (negate agStep) agStep (autoGainStep P lv ag) = true := by
  have fmin : agMin.isFinite = true := by decide +kernel
  have fmax : agMax.isFinite = true := by decide +kernel
  have hneg : sub F32.zero agStep = negate agStep := by decide +kernel
  obtain ⟨fag, -, -⟩ := (within_iff fmin fmax).1 h
  obtain ⟨fdes, -, -⟩ := (within_iff fmin fmax).1 (autoGainDesired_within hP lv h)
  rw [autoGainStep, hneg]
  exact within_clampf (isNaN_sub fdes fag) (by decide +kernel)

/-- A silent block leaves the multiplier's number. -/
theorem autoGainUpdate_of_silent (hon : isOn P Reg.autogainEnable = true) (h : within agMin agMax ag = true)
    (hs : lt agFloor lv.rms = false) : F32.eq (autoGainUpdate P lv ag) ag = true := by
  obtain ⟨hag, -, -⟩ := (within_iff (by decide +kernel) (by decide +kernel)).1 h
  have hk := key_add_zero hag
  have hn : (add ag F32.zero).isNaN = false := isNaN_add hag (by decide)
  obtain ⟨hmin, hmax⟩ := Bool.and_eq_true_iff.1 h
  rw [le_iff, ← hk] at hmin hmax
  rw [autoGainUpdate_of_on hon, autoGainStep_of_silent hag hs,
    clampf_eq_self (le_iff.2 ⟨hmin.1, hn, hmin.2.2⟩) (le_iff.2 ⟨hn, hmax.2.1, hmax.2.2⟩)]
  simp [F32.eq, hn, not_isNaN_of_isFinite hag, hk]

end Machine
end Sys2Proof

section
open Sys2Proof Sys2Proof.Machine

/-- Settles O47: the cases of the clamp, and mastering's last stage is the clamp. -/
theorem hardClampLimits : Obligations.HardClampLimits := by
  refine ⟨fun P fs ag st x => ⟨F32.inUnit_hardClamp _, F32.inUnit_hardClamp _⟩, fun x => ⟨fun h => ?_, fun h => ?_,
    fun h => ?_, fun hlo hhi => ?_, Bool.and_eq_true_iff.1 (F32.inUnit_hardClamp x), rfl⟩⟩
  · exact if_pos h
  · rw [hardClamp_of_not_isNaN (F32.lt_iff.1 h).1, F32.clampf_of_lt_lo h]
  · rw [hardClamp_of_not_isNaN (F32.lt_iff.1 h).2.1, F32.clampf_of_hi_lt (by decide) h]
  · rw [hardClamp_of_not_isNaN (F32.le_iff.1 hhi).1, F32.clampf_eq_self hlo hhi]

/-- Settles O48: the disabled, the silent and the enabled case of the update. -/
theorem autoGainIsRateLimited : Obligations.AutoGainIsRateLimited := by
  intro P lv ag hmin hmax
  have hag : within Consts.agMin Consts.agMax ag = true := Bool.and_eq_true_iff.2 ⟨hmin, hmax⟩
  refine ⟨fun h => autoGainUpdate_of_off h lv ag, fun h => autoGainUpdate_of_silent h hag, fun h hP => ?_⟩
  obtain ⟨hlo, hhi⟩ := Bool.and_eq_true_iff.1 (autoGainStep_within hP lv hag)
  exact ⟨autoGainStep P lv ag, hlo, hhi, autoGainUpdate_of_on h lv ag,
    Bool.and_eq_true_iff.1 (autoGainUpdate_within hP lv hag)⟩

end
end

section
/-! SUPPORT. The words of a block's frames in the order OUTBUF holds them (20_memory.md R61, 42_render.md R176), and the
output pass stage by stage (R160). -/

namespace Sys2Proof.Machine
open F32

/-- The words of the frames in order: left, then right sample of each (20_memory.md R61). -/
def frameWords (xs : List (Stereo F32)) : List Word := xs.flatMap fun y => [y.l.bits, y.r.bits]

@[simp] theorem frameWords_cons (x : Stereo F32) (xs : List (Stereo F32)) :
    frameWords (x :: xs) = x.l.bits :: x.r.bits :: frameWords xs := rfl

theorem frameWords_append (xs ys : List (Stereo F32)) : frameWords (xs ++ ys) = frameWords xs ++ frameWords ys :=
  List.flatMap_append

@[simp] theorem frameWords_length (xs : List (Stereo F32)) : (frameWords xs).length = 2 * xs.length := by
  induction xs with
  | nil => rfl
  | cons x xs ih => simp only [frameWords_cons, List.length_cons, ih]; omega

theorem inUnit_of_mem_frameWords {xs : List (Stereo F32)} (h : ∀ y ∈ xs, inUnit y.l = true ∧ inUnit y.r = true)
    {w : Word} (hw : w ∈ frameWords xs) : inUnit ⟨w⟩ = true := by
  obtain ⟨y, hy, hmem⟩ := List.mem_flatMap.1 hw
  obtain ⟨hl, hr⟩ := h y hy
  rcases List.mem_pair.1 hmem with rfl | rfl
  · exact hl
  · exact hr

/-- OUTBUF holds the words of the frames written, in order. -/
theorem read_writeFrames_word {m : Mem} (hm : Memory.wf m = true) (i : Nat) {xs : List (Stereo F32)} {a : Nat}
    {w : Word} (h : (frameWords xs)[a]? = some w) : Memory.read (writeFrames m i xs) (2 * i + a) = w := by
  induction xs generalizing m i a with
  | nil => simp [frameWords] at h
  | cons x xs ih =>
    obtain ⟨hl, hr⟩ := read_writeFrames hm i (x :: xs) 0 rfl
    match a with
    | 0 => exact hl.trans (Option.some.inj h)
    | 1 => exact hr.trans (Option.some.inj h)
    | a + 2 =>
      have := ih (Memory.wf_write (Memory.wf_write hm (2 * i) x.l.bits) (2 * i + 1) x.r.bits) (i + 1) h
      rwa [show 2 * (i + 1) + a = 2 * i + (a + 2) by omega] at this

@[simp] theorem State.outputOf_length (s : State) (n : Nat) : (s.outputOf n).2.length = n := by
  rw [State.outputOf, outputPass_length, accumulate_frames_length]

/-- The host reads the words of RENDER's frames from OUTBUF. -/
theorem readOut_render {s : State} (hm : Memory.wf s.outbuf = true) {n : Nat} (hn : n ≤ s.cfg.maxb) {a : Nat}
    {w : Word} (h : (frameWords (s.outputOf n).2)[a]? = some w) : readOut (s.render n) a = w := by
  have ha := (List.getElem?_eq_some_iff.1 h).1
  rw [frameWords_length, State.outputOf_length] at ha
  have hread := read_writeFrames_word hm 0 h
  rw [readOut, State.render_cfg, if_pos (by omega), State.render_outbuf]
  rwa [Nat.mul_zero, Nat.zero_add] at hread

/-- Every word RENDER writes has a place among the words of its frames. -/
theorem exists_frameWord (s : State) {n a : Nat} (ha : a < 2 * n) :
    ∃ w, (frameWords (s.outputOf n).2)[a]? = some w :=
  ⟨_, List.getElem?_eq_getElem (by rwa [frameWords_length, State.outputOf_length])⟩

end Sys2Proof.Machine

section
open Sys2Proof Sys2Proof.Machine

/-- Settles O32: a word RENDER writes is a sample of an output frame, and no change spoils a buffer of such words. -/
theorem renderedWordsAreUnitNumbers : Obligations.RenderedWordsAreUnitNumbers := by
  refine ⟨fun s t n hw ha h a hlt => ?_, fun s s' hw ho h => ?_⟩
  · obtain rfl := Host.Outcome.next.inj ((exec_render_of_accepts ha).symm.trans h)
    obtain ⟨w, hword⟩ := exists_frameWord s hlt
    have hunit := inUnit_of_mem_frameWords (outputPass_inUnit _ _ _ _ _) (List.mem_of_getElem? hword)
    obtain ⟨hlo, hhi⟩ := Bool.and_eq_true_iff.1 hunit
    rw [readOut_render hw ha.2 hword]
    exact ⟨hlo, hhi, (F32.le_iff.1 hhi).1⟩
  · rcases step_change h with rfl | ⟨ws, t, ht, rfl⟩
    · exact ho
    · exact ht.outOk hw ho

/-- Settles O38: by induction on the frames; a stage reads the frames before it and its own state, nothing else. -/
theorem stagewiseEqualsFramewise : Obligations.StagewiseEqualsFramewise := by
  intro P fs ag xs
  induction xs with
  | nil => exact fun c => rfl
  | cons x xs ih =>
    intro c
    simp only [outputPass, ih]
    rfl

end
end

section
/-! SUPPORT. A disabled stage: the identity on frames and on its own state, but for the delay's buffer write
(42_render.md R177, 43_effects.md R217). -/

namespace Sys2Proof.Machine
open F32

variable {P : ParamFile} {fs : Nat}

theorem compressor_of_off (h : isOn P Reg.compEnable = false) (st : CompLoop) (x : Stereo F32) :
    compressor P fs st x = (st, x) := by rw [compressor, h, if_neg (by decide)]

theorem dcBlock_of_off (h : isOn P Reg.dcEnable = false) (st : Stereo DcHist) (x : Stereo F32) :
    dcBlock P st x = (st, x) := by rw [dcBlock, h, if_neg (by decide)]

theorem softClip_of_off (h : isOn P Reg.softclipEnable = false) (x : Stereo F32) : softClip P x = x := by
  rw [softClip, h, if_neg (by decide)]

theorem ringMod_of_off (h : isOn P Reg.ringEnable = false) (ph : F32) (x : Stereo F32) :
    ringMod P fs ph x = (ph, x) := by rw [ringMod, h, if_neg (by decide)]

theorem filter_of_off (h : isOn P Reg.filterEnable = false) (st : FilterState × Bool) (x : Stereo F32) :
    filter P fs st x = (st, x) := by rw [filter, h, if_neg (by decide)]

theorem flanger_of_off (h : isOn P Reg.flangerEnable = false) (st : FlangerState) (x : Stereo F32) :
    flanger P fs st x = (st, x) := by rw [flanger, h, if_neg (by decide)]

theorem reverb_of_off (h : isOn P Reg.reverbEnable = false) (st : Stereo ReverbChan) (x : Stereo F32) :
    reverb P fs st x = (st, x) := by rw [reverb, h, if_neg (by decide)]

theorem delayChan_of_off (h : isOn P Reg.delayEnable = false) (w : Nat) (buf : Mem) (x : F32) :
    delayChan P fs w buf x = (Memory.writeF buf w x, x) := by
  rw [delayChan, h, Bool.false_and, if_neg (by decide), if_neg (by decide)]

/-- The disabled delay still writes its input and advances. -/
theorem delay_of_off (h : isOn P Reg.delayEnable = false) (st : DelayState) (x : Stereo F32) :
    delay P fs st x = ({ dly := ⟨Memory.writeF st.dly.l st.w x.l, Memory.writeF st.dly.r st.w x.r⟩
                         w := ringNext st.w (Config.dbuf fs) }, x) := by
  simp only [delay, delayChan_of_off h]

/-- A part of the chain that every output frame leaves alone is after RENDER as it was before. -/
theorem outputOf_keeps {α : Type} {g : Chain → α} {s : State}
    (hg : ∀ ag c x, g (outputFrame s.regs s.cfg.fs ag c x).1 = g c) (n : Nat) : g (s.outputOf n).1 = g s.chain :=
  outputPass_keeps (Q := fun c => g c = g s.chain) (fun c x hc => (hg _ c x).trans hc) _ rfl

/-- The gain-reduction readout of a block whose smallest gain is 1.0 (42_render.md R171). -/
theorem gainReductionDb_one : gainReductionDb one = F32.zero := by
  have hlog : fLog10 one = F32.zero := if_pos rfl
  rw [gainReductionDb, hlog]
  decide +kernel

variable {s : State}

theorem outputOf_comp_of_off (h : isOn s.regs Reg.compEnable = false) (n : Nat) :
    (s.outputOf n).1.comp = ⟨s.ce, one⟩ :=
  outputOf_keeps (g := Chain.comp) (fun _ _ _ => congrArg Prod.fst (compressor_of_off h _ _)) n

theorem render_ag_of_off (h : isOn s.regs Reg.autogainEnable = false) (n : Nat) : (s.render n).ag = one := by
  rw [State.render_ag, autoGainUpdate_of_off h]

end Sys2Proof.Machine

section
open Sys2Proof Sys2Proof.Machine

/-- Settles O35: each stage's disabled branch, and what every frame leaves alone the whole block leaves alone. -/
theorem disabledStagesAreFrozen : Obligations.DisabledStagesAreFrozen := by
  refine ⟨fun s t n ha h => ?_, fun P fs x => ⟨fun h st => compressor_of_off h st x, fun h st => dcBlock_of_off h st x,
    fun h => softClip_of_off h x, fun h st => ringMod_of_off h st x, fun h st => filter_of_off h st x,
    fun h st => flanger_of_off h st x, fun h st => reverb_of_off h st x, fun h st => ?_⟩⟩
  · obtain rfl := Host.Outcome.next.inj ((exec_render_of_accepts ha).symm.trans h)
    refine ⟨fun h => render_ag_of_off h _, fun h => ?comp,
      fun h => outputOf_keeps (g := Chain.dc) (fun _ _ _ => congrArg Prod.fst (dcBlock_of_off h _ _)) _,
      fun h => outputOf_keeps (g := Chain.ringPh) (fun _ _ _ => congrArg Prod.fst (ringMod_of_off h _ _)) _,
      fun h => outputOf_keeps (g := Chain.filter) (fun _ _ _ => congrArg (·.1.1) (filter_of_off h _ _)) _,
      fun h => render_flanger_of_off _ h, fun h => render_reverb_of_off _ h⟩
    rw [State.render_ce, State.render_grDb, outputOf_comp_of_off h]
    exact ⟨rfl, gainReductionDb_one⟩
  · rw [delay_of_off h]
    exact ⟨rfl, rfl, fun c => by cases c <;> rfl⟩

end
end

section
/-! SUPPORT. What a block records of itself, the compressor's smallest gain and an action of the filter's guard, is
carried through the output pass and read by no stage, so a block can be split (42_render.md R160, R161, R171). -/

namespace Sys2Proof.Machine
open F32

variable {P : ParamFile} {fs : Nat}

/-- The chain as the next RENDER takes it up: grMin 1.0, no guard action yet (42_render.md R161). -/
def Chain.fresh (c : Chain) : Chain := { c with comp := ⟨c.comp.ce, one⟩, fltReset := false }

/-- A RENDER takes up the chain the last one left. -/
theorem State.render_chain (s : State) (n : Nat) : (s.render n).chain = (s.outputOf n).1.fresh := rfl

/-- c is c' but for what the block records: the smallest gain, and b for a guard action before. -/
structure Chain.Continues (b : Bool) (c c' : Chain) : Prop where
  fresh : c.fresh = c'.fresh
  fltReset : c.fltReset = (b || c'.fltReset)

theorem Chain.continues_fresh (c : Chain) : Chain.Continues c.fltReset c c.fresh := ⟨rfl, (Bool.or_false _).symm⟩

/-- The compressor reads the followers alone: its frame and new followers do not depend on the smallest gain. -/
theorem compressor_grMin (ce : Stereo F32) (g g' : F32) (x : Stereo F32) :
    (compressor P fs ⟨ce, g⟩ x).1.ce = (compressor P fs ⟨ce, g'⟩ x).1.ce
      ∧ (compressor P fs ⟨ce, g⟩ x).2 = (compressor P fs ⟨ce, g'⟩ x).2 := by
  unfold compressor
  split <;> exact ⟨rfl, rfl⟩

/-- The filter adds its guard's actions to those before them and reads none. -/
theorem filter_fltReset (b b' : Bool) (f : FilterState) (x : Stereo F32) :
    filter P fs (f, b || b') x
      = (((filter P fs (f, b') x).1.1, b || (filter P fs (f, b') x).1.2), (filter P fs (f, b') x).2) := by
  unfold filter
  split
  · simp only [Bool.or_assoc]
  · rfl

variable {ag : F32}

/-- Mastering's frame and its state but for the smallest gain do not depend on the smallest gain. -/
theorem master_grMin (ce : Stereo F32) (g g' : F32) (dc : Stereo DcHist) (x : Stereo F32) :
    (master P fs ag (⟨ce, g⟩, dc) x).1.1.ce = (master P fs ag (⟨ce, g'⟩, dc) x).1.1.ce
      ∧ (master P fs ag (⟨ce, g⟩, dc) x).1.2 = (master P fs ag (⟨ce, g'⟩, dc) x).1.2
      ∧ (master P fs ag (⟨ce, g⟩, dc) x).2 = (master P fs ag (⟨ce, g'⟩, dc) x).2 := by
  obtain ⟨hce, hframe⟩ := compressor_grMin (P := P) (fs := fs) ce g g'
    (midSide (par P Reg.masterWidth) (masterPan P (applyAutoGain ag (masterGain P x))))
  simp only [master, hce, hframe, and_self]

theorem outputFrame_continues {b : Bool} {c c' : Chain} (h : Chain.Continues b c c') (x : Stereo F32) :
    Chain.Continues b (outputFrame P fs ag c x).1 (outputFrame P fs ag c' x).1
      ∧ (outputFrame P fs ag c x).2 = (outputFrame P fs ag c' x).2 := by
  obtain ⟨⟨ce, g⟩, dc, ph, f, flt, fl, dl, rv⟩ := c
  obtain ⟨⟨ce', g'⟩, dc', ph', f', flt', fl', dl', rv'⟩ := c'
  obtain ⟨hfresh, rfl : flt = (b || flt')⟩ := h
  simp only [Chain.fresh, Chain.mk.injEq, CompLoop.mk.injEq, and_true, true_and] at hfresh
  obtain ⟨rfl, rfl, rfl, rfl, rfl, rfl, rfl⟩ := hfresh
  obtain ⟨hce, hdc, hframe⟩ := master_grMin (P := P) (fs := fs) (ag := ag) ce g g' dc x
  refine ⟨⟨?_, ?_⟩, ?_⟩ <;> simp only [outputFrame, Chain.fresh, hce, hdc, hframe, filter_fltReset]

theorem outputPass_continues {b : Bool} (xs : List (Stereo F32)) {c c' : Chain} (h : Chain.Continues b c c') :
    Chain.Continues b (outputPass P fs ag xs c).1 (outputPass P fs ag xs c').1
      ∧ (outputPass P fs ag xs c).2 = (outputPass P fs ag xs c').2 := by
  induction xs generalizing c c' with
  | nil => exact ⟨h, rfl⟩
  | cons x xs ih =>
    obtain ⟨hc, hframe⟩ := outputFrame_continues (P := P) (fs := fs) (ag := ag) h x
    obtain ⟨hpass, hframes⟩ := ih hc
    exact ⟨hpass, by simp only [outputPass, hframe, hframes]⟩

/-! ### Two blocks and one -/

variable {s : State}

/-- With auto-gain disabled the output pass of m + n frames is the one of m frames, then that of the next RENDER of n
frames with what the first block recorded carried on. -/
theorem outputOf_add (h : isOn s.regs Reg.autogainEnable = false) (m n : Nat) :
    Chain.Continues (s.outputOf m).1.fltReset (s.outputOf (m + n)).1 ((s.render m).outputOf n).1
      ∧ (s.outputOf (m + n)).2 = (s.outputOf m).2 ++ ((s.render m).outputOf n).2 := by
  have h' : isOn (s.render m).regs Reg.autogainEnable = false := by rwa [State.render_regs]
  obtain ⟨hchain, hframes⟩ := outputPass_continues (P := s.regs) (fs := s.cfg.fs) (ag := one)
    (accumulate s.regs s.cfg.fs n (s.render m).voices (s.render m).draws).frames (s.outputOf m).1.continues_fresh
  simp only [State.outputOf, render_ag_of_off h, render_ag_of_off h', State.render_regs, State.render_cfg,
    State.render_chain, accumulate_add, outputPass_append] at hchain hframes ⊢
  exact ⟨hchain, by rw [← hframes]; rfl⟩

theorem setFlag_setFlag (status : Word) (f : Flag) : setFlag (setFlag status f) f = setFlag status f := by
  rw [setFlag, setFlag, BitVec.or_assoc, BitVec.or_self]

/-- A guard action in either of two blocks sets the flag that one in the joined block sets. -/
theorem render_status_add (h : isOn s.regs Reg.autogainEnable = false) (m n : Nat) :
    ((s.render m).render n).status = (s.render (m + n)).status := by
  obtain ⟨⟨-, hflt⟩, -⟩ := outputOf_add h m n
  rw [State.render_status, State.render_status, State.render_status, hflt]
  cases (s.outputOf m).1.fltReset <;> cases ((s.render m).outputOf n).1.fltReset
  all_goals simp [setFlag_setFlag]

theorem render_frames_add (s : State) (m n : Nat) :
    ((s.render m).render n).frames = (s.render (m + n)).frames := by
  rw [State.render_frames, State.render_frames, State.render_frames, BitVec.ofNat_add, BitVec.add_assoc]

/-- Two states are one but for OUTBUF and the readouts of the last block. -/
theorem eq_except_readouts {u w : State} (hcfg : u.cfg = w.cfg) (hport : u.port = w.port)
    (hcmdidx : u.cmdidx = w.cmdidx) (hregs : u.regs = w.regs) (hstatus : u.status = w.status)
    (hframes : u.frames = w.frames) (hvoices : u.voices = w.voices) (hag : u.ag = w.ag) (hchain : u.chain = w.chain)
    (hdraws : u.draws = w.draws) :
    u = { w with outbuf := u.outbuf, peakDb := u.peakDb, rmsDb := u.rmsDb, grDb := u.grDb } := by
  cases u
  cases w
  simp_all [State.chain]

/-- RENDER m then RENDER n leaves what RENDER m + n leaves, but for OUTBUF and the readouts of the last block. -/
theorem render_render (h : isOn s.regs Reg.autogainEnable = false) (m n : Nat) :
    let u := (s.render m).render n
    u = { s.render (m + n) with outbuf := u.outbuf, peakDb := u.peakDb, rmsDb := u.rmsDb, grDb := u.grDb } := by
  have h' : isOn (s.render m).regs Reg.autogainEnable = false := by rwa [State.render_regs]
  obtain ⟨⟨hchain, -⟩, -⟩ := outputOf_add h m n
  refine eq_except_readouts ?_ ?_ ?_ ?_ (render_status_add h m n) (render_frames_add s m n) ?_ ?_ hchain.symm ?_
  all_goals simp only [State.render_cfg, State.render_port, State.render_cmdidx, State.render_regs, State.render_voices,
    State.render_draws, render_ag_of_off h, render_ag_of_off h', accumulate_add]

theorem wf_writeFrames {m : Mem} (hm : Memory.wf m = true) (i : Nat) (xs : List (Stereo F32)) :
    Memory.wf (writeFrames m i xs) = true := by
  induction xs generalizing m i with
  | nil => exact hm
  | cons x xs ih => exact ih (Memory.wf_write (Memory.wf_write hm _ _) _ _) _

end Sys2Proof.Machine

section
open Sys2Proof Sys2Proof.Machine

/-- Settles O37: the frames of the one block are those of the two, and no stage reads what a block records of itself. -/
theorem renderSplitsAtAnyFrame : Obligations.RenderSplitsAtAnyFrame := by
  intro s m n hm hn hmax hlt hwf hoff
  have hsum : (m + n).toNat = m.toNat + n.toNat := by rw [BitVec.toNat_add, Nat.mod_eq_of_lt hlt]
  have hcfg := s.render_cfg m.toNat
  obtain ⟨-, hframes⟩ := outputOf_add hoff m.toNat n.toNat
  have hread : ∀ {a w}, (frameWords (s.outputOf m.toNat).2 ++ frameWords ((s.render m.toNat).outputOf n.toNat).2)[a]?
      = some w → readOut (s.render (m + n).toNat) a = w := by
    intro a w hw
    rw [← frameWords_append, ← hframes, ← hsum] at hw
    exact readOut_render hwf (by omega) hw
  have hlen : (frameWords (s.outputOf m.toNat).2).length = 2 * m.toNat := by
    rw [frameWords_length, State.outputOf_length]
  refine ⟨_, _, _, exec_render_of_accepts ⟨hm, by omega⟩, exec_render_of_accepts ⟨hn, by rw [hcfg]; omega⟩,
    exec_render_of_accepts ⟨by omega, by omega⟩, by rw [hsum]; exact render_render hoff _ _, fun a ha => ?_,
    fun a ha => ?_⟩
  · obtain ⟨w, hw⟩ := exists_frameWord s ha
    rw [readOut_render hwf (by omega) hw]
    exact hread (by rwa [List.getElem?_append_left (by omega)])
  · obtain ⟨w, hw⟩ := exists_frameWord (s.render m.toNat) ha
    rw [readOut_render (wf_writeFrames hwf 0 _) (by rw [hcfg]; omega) hw]
    refine hread ?_
    rwa [List.getElem?_append_right (by omega), hlen, Nat.add_sub_cancel_left]

end
end

section
/-! SUPPORT. The enabled stages of mastering and the ring modulator channel by channel, with the constants as words, and
the one frame of RENDER 1 (42_render.md R165 to R174, 43_effects.md R201, R202). -/

namespace Sys2Proof

namespace F32

/-- Between numbers, a is below b exactly when b is not at most a. -/
theorem lt_eq_not_le {a b : F32} (ha : a.isNaN = false) (hb : b.isNaN = false) : lt a b = !le b a := by
  simp [lt, le, ha, hb, ← decide_not]

/-- The absolute value of an infinity is +∞, and of nothing else. -/
theorem isInf_abs_iff (x : F32) : (abs x).isInf = true ↔ abs x = ⟨0x7F800000#32⟩ := by
  constructor
  · intro h
    have hmag : x.mag = infMag := by simpa [abs_eq_pack, isInf, mag_pack _ (mag_lt x)] using h
    rw [abs_eq_pack, hmag]
    rfl
  · intro h
    rw [h]
    rfl

end F32

namespace Machine
open F32 Consts

variable {P : ParamFile} {fs : Nat}

/-! ### Levels and coefficients -/

theorem dbToGain_eq (db : F32) : dbToGain db = fPow ⟨0x41200000#32⟩ (div db ⟨0x41A00000#32⟩) := by
  have h10 : dec 10 1 = ⟨0x41200000#32⟩ := by decide +kernel
  have h20 : dec 20 1 = ⟨0x41A00000#32⟩ := by decide +kernel
  rw [dbToGain, h10, h20]

theorem followCoef_eq (ms : F32) :
    followCoef fs ms = fExp (div (sub F32.zero one) (mul (mul ms ⟨0x3A83126F#32⟩) (ofNat fs))) := by
  have hms : dec 1 1000 = ⟨0x3A83126F#32⟩ := by decide +kernel
  rw [followCoef, hms, fsf]

theorem compAttMs_eq : compAttMs = ⟨0x41200000#32⟩ := by decide +kernel

theorem compRelMs_eq : compRelMs = ⟨0x42C80000#32⟩ := by decide +kernel

theorem dcR_eq : dcR = ⟨0x3F7EB852#32⟩ := by decide +kernel

theorem gainReductionDb_eq (g : F32) : gainReductionDb g = sub F32.zero (mul ⟨0x41A00000#32⟩ (fLog10 g)) := by
  have h20 : dec 20 1 = ⟨0x41A00000#32⟩ := by decide +kernel
  rw [gainReductionDb, h20]

/-! ### The stages by channel -/

theorem compressor_of_on (h : isOn P Reg.compEnable = true) (st : CompLoop) (x : Stereo F32) (c : Chan) :
    (compressor P fs st x).1.ce.get c = compFollow fs (st.ce.get c) (x.get c)
      ∧ (compressor P fs st x).2.get c = mul (mul (x.get c) (compGain P ((compressor P fs st x).1.ce.get c)))
          (dbToGain (par P Reg.compMakeup)) := by
  rw [compressor, if_pos h]
  cases c <;> exact ⟨rfl, rfl⟩

theorem compressor_grMin_of_on (h : isOn P Reg.compEnable = true) (st : CompLoop) (x : Stereo F32) :
    (compressor P fs st x).1.grMin = minf (minf st.grMin (compGain P (compressor P fs st x).1.ce.l))
      (compGain P (compressor P fs st x).1.ce.r) := by
  rw [compressor, if_pos h]

theorem dcBlock_of_on (h : isOn P Reg.dcEnable = true) (st : Stereo DcHist) (x : Stereo F32) (c : Chan) :
    (dcBlock P st x).2.get c = add (sub (x.get c) (st.get c).x1) (mul dcR (st.get c).y1)
      ∧ (dcBlock P st x).1.get c = ⟨x.get c, (dcBlock P st x).2.get c⟩ := by
  rw [dcBlock, if_pos h]
  cases c <;> exact ⟨rfl, rfl⟩

theorem softClip_of_on (h : isOn P Reg.softclipEnable = true) (x : Stereo F32) (c : Chan) :
    (softClip P x).get c = softClipOne (dbToGain (par P Reg.softclipThreshold)) (x.get c) := by
  rw [softClip, if_pos h]
  cases c <;> rfl

theorem ringMod_of_on (h : isOn P Reg.ringEnable = true) (ph : F32) (x : Stereo F32) :
    (ringMod P fs ph x).1 = frac (add ph (div (par P Reg.ringFreq) (ofNat fs)))
      ∧ ∀ c, (ringMod P fs ph x).2.get c
          = blend (x.get c) (mul (x.get c) (fSin (mul twoPi ph))) (par P Reg.ringMix) := by
  rw [ringMod, if_pos h]
  exact ⟨rfl, fun c => by cases c <;> rfl⟩

/-- The soft clipper bends what is above a threshold below 1.0, and leaves every other number, with a NaN for the
threshold too (42_render.md R173). -/
theorem softClipOne_eq (T x : F32) : softClipOne T x = if lt T one && lt T (F32.abs x) then
    copysign (if F32.abs x = ⟨0x7F800000#32⟩ then one else
      add T (mul (sub one T) (div (div (sub (F32.abs x) T) (sub one T))
        (add one (div (sub (F32.abs x) T) (sub one T)))))) x
    else x := by
  have hguard : (le one T || !(lt T (F32.abs x))) = !(lt T one && lt T (F32.abs x)) := by
    cases hn : T.isNaN
    · rw [lt_eq_not_le (b := one) hn (by decide), Bool.not_and, Bool.not_not]
    · simp [lt, le, hn]
  rw [softClipOne, hguard]
  cases lt T one && lt T (F32.abs x) with
  | false => rfl
  | true =>
    simp only [Bool.not_true, Bool.false_eq_true, if_false, if_true, isInf_abs_iff]
    split <;> rfl

/-! ### RENDER of one frame -/

/-- RENDER 1 is accepted, MAXB being at least 1 (R161). -/
theorem exec_render_one {s : State} (h : 1 ≤ s.cfg.maxb) : exec (.render 1) s = .next (s.render 1) :=
  exec_render_of_accepts (n := 1) ⟨le_rfl, h⟩

variable (s : State) (x : Stereo F32)

/-- The frame x of RENDER 1 after master gain, auto-gain and pan (42_render.md R165 to R167). -/
def State.pannedOne : Stereo F32 := masterPan s.regs (applyAutoGain (s.render 1).ag (masterGain s.regs x))

/-- The frame after the width (R168). -/
def State.wideOne : Stereo F32 := midSide (par s.regs Reg.masterWidth) (s.pannedOne x)

/-- The compressor's answer on that frame (R169, R170). -/
def State.compOne : CompLoop × Stereo F32 := compressor s.regs s.cfg.fs ⟨s.ce, one⟩ (s.wideOne x)

/-- The DC blocker's answer on the compressed frame (R172). -/
def State.dcOne : Stereo DcHist × Stereo F32 := dcBlock s.regs s.dc (s.compOne x).2

/-- The frame after the soft clipper (R173). -/
def State.clipOne : Stereo F32 := softClip s.regs (s.dcOne x).2

/-- The frame that leaves mastering (R174). -/
def State.limOne : Stereo F32 := ⟨hardClamp (s.clipOne x).l, hardClamp (s.clipOne x).r⟩

/-- The ring modulator's answer on it (43_effects.md R201, R202). -/
def State.ringOne : F32 × Stereo F32 := ringMod s.regs s.cfg.fs s.ringPh (s.limOne x)

variable {s x}

section
variable (hx : (accumulate s.regs s.cfg.fs 1 s.voices s.draws).frames = [x])
include hx

/-- RENDER 1 runs the chain once, on the one accumulated frame. -/
theorem outputOf_one : s.outputOf 1 = ((outputFrame s.regs s.cfg.fs (s.render 1).ag s.chain x).1,
    [(outputFrame s.regs s.cfg.fs (s.render 1).ag s.chain x).2]) := by
  rw [State.outputOf, hx]
  rfl

theorem render_one_ce : (s.render 1).ce = (s.compOne x).1.ce := by
  rw [State.render_ce, outputOf_one hx]
  rfl

theorem render_one_grDb : (s.render 1).grDb = gainReductionDb (s.compOne x).1.grMin := by
  rw [State.render_grDb, outputOf_one hx]
  rfl

theorem render_one_dc : (s.render 1).dc = (s.dcOne x).1 := by
  rw [State.render_dc, outputOf_one hx]
  rfl

theorem render_one_ringPh : (s.render 1).ringPh = (s.ringOne x).1 := by
  rw [State.render_ringPh, outputOf_one hx]
  rfl

/-- With filter, flanger, delay and reverb disabled RENDER 1 writes the ring modulator's frame, clamped. -/
theorem outputOf_one_of_off (hf : isOn s.regs Reg.filterEnable = false) (hl : isOn s.regs Reg.flangerEnable = false)
    (hd : isOn s.regs Reg.delayEnable = false) (hr : isOn s.regs Reg.reverbEnable = false) :
    (s.outputOf 1).2 = [⟨finalClamp (s.ringOne x).2.l, finalClamp (s.ringOne x).2.r⟩] := by
  rw [outputOf_one hx]
  simp only [outputFrame, filter_of_off hf, flanger_of_off hl, delay_of_off hd, reverb_of_off hr]
  rfl

end

end Machine
end Sys2Proof

section
open Sys2Proof Sys2Proof.Machine

/-- Settles O36: the stages of the one frame in their order, each in its enabled and its disabled case. -/
theorem masteringAndRingOneFrame : Obligations.MasteringAndRingOneFrame := by
  intro s t x hmaxb hx h P FSf fromDb angle coef thr gain T bent car mix
  obtain rfl := Host.Outcome.next.inj ((exec_render_one hmaxb).symm.trans h)
  have hgain : compGain P = gain := by
    funext ce
    simp only [compGain, dbToGain_eq, gain, thr, fromDb]
  refine ⟨s.pannedOne x, (s.wideOne x).get, (s.compOne x).2.get, (s.dcOne x).2.get, (s.clipOne x).get,
    (s.limOne x).get, (s.ringOne x).2.get, rfl, ⟨rfl, rfl⟩, fun hon c => ?compOn, fun hon => ?grDb,
    fun hoff => ?compOff, fun hon c => ?dcOn, fun hoff => ?dcOff, fun hon c => ?clipOn, fun hoff => ?clipOff,
    fun c => by cases c <;> rfl, fun hon => ?ringOn, fun hoff => ?ringOff, fun hwf hf hl hd hr => ?words⟩
  case compOn =>
    obtain ⟨hfollow, hframe⟩ := compressor_of_on (fs := s.cfg.fs) hon ⟨s.ce, F32.one⟩ (s.wideOne x) c
    rw [hgain, dbToGain_eq] at hframe
    rw [compFollow, followCoef_eq, followCoef_eq, compAttMs_eq, compRelMs_eq] at hfollow
    rw [render_one_ce hx]
    exact ⟨hfollow, hframe⟩
  case grDb =>
    rw [render_one_grDb hx, gainReductionDb_eq, State.compOne, compressor_grMin_of_on hon, hgain, render_one_ce hx]
    rfl
  case compOff => rw [State.compOne, compressor_of_off hoff]
  case dcOn =>
    obtain ⟨hframe, hhist⟩ := dcBlock_of_on hon s.dc (s.compOne x).2 c
    rw [dcR_eq] at hframe
    rw [render_one_dc hx]
    exact ⟨hframe, hhist⟩
  case dcOff => rw [State.dcOne, dcBlock_of_off hoff]
  case clipOn => rw [State.clipOne, softClip_of_on hon, softClipOne_eq, dbToGain_eq]
  case clipOff => rw [State.clipOne, softClip_of_off hoff]
  case ringOn =>
    rw [render_one_ringPh hx]
    exact ringMod_of_on hon s.ringPh (s.limOne x)
  case ringOff => rw [State.ringOne, ringMod_of_off hoff]
  case words =>
    have hframes := outputOf_one_of_off hx hf hl hd hr
    exact ⟨readOut_render hwf hmaxb (by rw [hframes]; rfl), readOut_render hwf hmaxb (by rw [hframes]; rfl)⟩

end
end

section
/-! SUPPORT. The filter's guard on one channel, and the enabled filter channel by channel (43_effects.md R203 to R213). -/

namespace Sys2Proof.Machine
open F32

/-! ### The guard -/

variable {b : Biquad} {out : F32}

/-- The guard acts exactly on a non-finite output or output history. -/
theorem filterGuard_tripped (b : Biquad) (out : F32) :
    (filterGuard b out).tripped = (!out.isFinite || !b.y1.isFinite || !b.y2.isFinite) := by
  unfold filterGuard
  split
  · rename_i h
    exact h.symm
  · rename_i h
    exact (Bool.eq_false_iff.2 h).symm

theorem filterGuard_of_tripped (h : (filterGuard b out).tripped = true) :
    (filterGuard b out).bq = ⟨F32.zero, F32.zero, F32.zero, F32.zero⟩ ∧ (filterGuard b out).out = F32.zero := by
  rw [filterGuard_tripped] at h
  rw [filterGuard, if_pos h]
  exact ⟨rfl, rfl⟩

theorem filterGuard_of_not_tripped (h : (filterGuard b out).tripped = false) :
    (filterGuard b out).bq = b ∧ (filterGuard b out).out = out := by
  rw [filterGuard_tripped] at h
  rw [filterGuard, h, if_neg (by decide)]
  exact ⟨rfl, rfl⟩

/-- What leaves the guard is finite: it was found finite, or it is zeroed. -/
theorem filterGuard_finite (b : Biquad) (out : F32) : (filterGuard b out).out.isFinite = true
    ∧ (filterGuard b out).bq.y1.isFinite = true ∧ (filterGuard b out).bq.y2.isFinite = true := by
  cases h : (filterGuard b out).tripped
  case true =>
    obtain ⟨hbq, hout⟩ := filterGuard_of_tripped h
    rw [hbq, hout]
    decide
  case false =>
    obtain ⟨hbq, hout⟩ := filterGuard_of_not_tripped h
    rw [hbq, hout]
    simpa [filterGuard_tripped, and_assoc] using h

/-! ### The enabled filter -/

variable {P : ParamFile} {fs : Nat}

/-- Channel c of the enabled filter, from the parameters smoothed for this frame (R203, R211 to R213). -/
def filterGuarded (P : ParamFile) (fs : Nat) (f : FilterState) (x : Stereo F32) (c : Chan) : GuardOut :=
  filterChan (filterCoefs P fs (filterSmooth P f)) (filterOsf P) (filterSmooth P f).smDrive (f.bq.get c) (x.get c)

/-- The enabled filter runs each channel by itself, behind one smoothing of the parameters. -/
theorem filter_of_on (h : isOn P Reg.filterEnable = true) (st : FilterState × Bool) (x : Stereo F32) :
    (∀ c, (filter P fs st x).1.1.bq.get c = (filterGuarded P fs st.1 x c).bq
        ∧ (filter P fs st x).2.get c = (filterGuarded P fs st.1 x c).out)
      ∧ (filter P fs st x).1.2
          = (st.2 || (filterGuarded P fs st.1 x .L).tripped || (filterGuarded P fs st.1 x .R).tripped)
      ∧ (filter P fs st x).1.1 = { filterSmooth P st.1 with bq := (filter P fs st x).1.1.bq } := by
  rw [filter, if_pos h]
  exact ⟨fun c => by cases c <;> exact ⟨rfl, rfl⟩, rfl, rfl⟩

end Sys2Proof.Machine

section
open Sys2Proof Sys2Proof.Machine

/-- Settles O49: each channel of the filter ends in the guard, whose two cases are the statement's. -/
theorem filterGuardKeepsFinite : Obligations.FilterGuardKeepsFinite := by
  intro P fs st x hon f run out bad o
  obtain ⟨hchan, hflag, hframe⟩ := filter_of_on (fs := fs) hon st x
  have hbad (c : Chan) : (filterGuarded P fs st.1 x c).tripped = bad c := filterGuard_tripped _ _
  refine ⟨fun c => ?_, fun c h => ?_, fun c h => ?_, ?_, hframe⟩
  · rw [(hchan c).1, (hchan c).2]
    exact filterGuard_finite _ _
  · rw [(hchan c).1, (hchan c).2]
    exact filterGuard_of_tripped ((hbad c).trans h)
  · rw [(hchan c).1, (hchan c).2]
    exact filterGuard_of_not_tripped ((hbad c).trans h)
  · rw [← hbad, ← hbad]
    exact hflag

end
end

section
/-! SUPPORT. A result rounded once is off by at most its own exact value, so a smoothing step, less
than a 64th of the distance to the target rounded twice, is at most a 16th of it (43_effects.md R203). -/

namespace Sys2Proof.Machine
open F32 Consts

/-- A finite rounded value lies between 0 and twice the exact one, since 0 is no nearer. -/
theorem RoundsTo.between_double {n d : Int} {x : F32} (h : RoundsTo n d x) (hx : x.isFinite = true) :
    (0 ≤ n → 0 ≤ x.fix * d ∧ x.fix * d ≤ 2 * n) ∧ (n ≤ 0 → 2 * n ≤ x.fix * d ∧ x.fix * d ≤ 0) := by
  have herr : |x.fix * d - n| ≤ |n| := by simpa using h.nearest hx F32.zero (by decide)
  constructor
  · intro hn
    rw [abs_of_nonneg hn, abs_le] at herr
    omega
  · intro hn
    rw [abs_of_nonpos hn, abs_le] at herr
    omega

/-- SMOOTH, in units of 2^-149, is positive and less than 1/64 = 2^143 units. -/
theorem smooth_spec : smooth.isFinite = true ∧ 0 < smooth.fix ∧ smooth.fix < 2 ^ 143 := by decide +kernel

/-- A finite distance times SMOOTH is finite. -/
theorem isFinite_mul_smooth {x : F32} (hx : x.isFinite = true) : (mul x smooth).isFinite = true := by
  obtain ⟨hs, h0, h1⟩ := smooth_spec
  have hle := fix_le_greatest hx
  have hge := fix_le_greatest (isFinite_negate hx)
  rw [fix_negate] at hge
  rw [(roundsTo_mul hx hs).finite_iff]
  calc |x.fix * smooth.fix| = |x.fix| * smooth.fix := by rw [abs_mul, abs_of_pos h0]
    _ ≤ 2 ^ 277 * 2 ^ 143 := mul_le_mul (abs_le.2 ⟨by omega, by omega⟩) h1.le h0.le (by positivity)
    _ < (2 ^ 277 - 2 ^ 252) * 2 ^ 149 := by decide +kernel

/-- The step of a smoothing has the direction of the exact distance to the target and does not exceed it. -/
theorem smoothStep_between {v target : F32} (hv : v.isFinite = true) (ht : target.isFinite = true)
    (hd : (sub target v).isFinite = true) :
    (v.fix ≤ target.fix → 0 ≤ (mul (sub target v) smooth).fix
        ∧ (mul (sub target v) smooth).fix ≤ target.fix - v.fix)
      ∧ (target.fix ≤ v.fix → target.fix - v.fix ≤ (mul (sub target v) smooth).fix
        ∧ (mul (sub target v) smooth).fix ≤ 0) := by
  obtain ⟨hs, s0, s1⟩ := smooth_spec
  obtain ⟨distUp, distDown⟩ := (roundsTo_sub ht hv).between_double hd
  obtain ⟨stepUp, stepDown⟩ := (roundsTo_mul hd hs).between_double (isFinite_mul_smooth hd)
  constructor
  · intro h
    obtain ⟨d0, d1⟩ := distUp (sub_nonneg.2 h)
    rw [mul_one] at d0
    obtain ⟨m0, m1⟩ := stepUp (mul_nonneg d0 s0.le)
    have hds := mul_le_mul_of_nonneg_left s1.le d0
    omega
  · intro h
    obtain ⟨d0, d1⟩ := distDown (sub_nonpos.2 h)
    rw [mul_one] at d1
    obtain ⟨m0, m1⟩ := stepDown (mul_nonpos_of_nonpos_of_nonneg d1 s0.le)
    have hds := mul_le_mul_of_nonpos_left s1.le d1
    omega

end Sys2Proof.Machine

section
open Sys2Proof Sys2Proof.Machine

/-- Settles O50: v plus a step that does not pass the target lies between the two, exactly and so after rounding. -/
theorem smoothingNeverOvershoots : Obligations.SmoothingNeverOvershoots := by
  intro v target hv ht hd
  obtain ⟨hs, -⟩ := smooth_spec
  obtain ⟨hup, hdown⟩ := smoothStep_between hv ht hd
  have hm := isFinite_mul_smooth hd
  constructor
  · intro h
    obtain ⟨m0, m1⟩ := hup ((F32.le_iff_fix hv ht).1 h)
    exact Bool.and_eq_true_iff.1 (F32.within_add hv ht hv hm (by omega) (by omega))
  · intro h
    obtain ⟨m0, m1⟩ := hdown ((F32.le_iff_fix ht hv).1 h)
    exact Bool.and_eq_true_iff.1 (F32.within_add ht hv hv hm (by omega) (by omega))

end
end

section
/-! SUPPORT. Circular distances: d slots back from an index is the slot that reaches it in d steps, and no distance from
1 to the size less one is the index itself (20_memory.md R73). The slot a frame writes is read again after one turn. -/

namespace Sys2Proof.Machine
open F32

/-! ### Distances -/

/-- Less than a whole turn forward never comes back to the start. -/
theorem add_mod_ne_self {w d size : Nat} (hw : w < size) (h₁ : 1 ≤ d) (h₂ : d < size) : (w + d) % size ≠ w := by
  rcases Nat.lt_or_ge (w + d) size with h | h
  · rw [Nat.mod_eq_of_lt h]
    omega
  · rw [Nat.mod_eq_sub_mod h, Nat.mod_eq_of_lt (by omega)]
    omega

/-- d steps forward from the slot d behind the index is the index. -/
theorem ringBack_add_mod {w size : Nat} (hw : w < size) (d : Nat) : (ringBack w d size + d) % size = w := by
  have hpos : (0 : Int) < size := by omega
  have hback : (ringBack w d size : Int) = (w - d) % size := Int.toNat_of_nonneg (Int.emod_nonneg _ hpos.ne')
  zify
  rw [hback, Int.emod_add_emod, sub_add_cancel]
  exact Int.emod_eq_of_lt (by omega) (by omega)

/-- A distance from 1 to the size less one reads another slot than that of the index. -/
theorem ringBack_ne {w d size : Nat} (hw : w < size) (h₁ : 1 ≤ d) (h₂ : d < size) : ringBack w d size ≠ w := by
  intro h
  have hback := ringBack_add_mod hw d
  rw [h] at hback
  exact add_mod_ne_self hw h₁ h₂ hback

/-! ### One turn -/

/-- A canonical memory reads back the binary32 that was stored. -/
theorem Memory.readF_writeF_same {m : Mem} (h : Memory.wf m = true) (a : Nat) (x : F32) :
    Memory.readF (Memory.writeF m a x) a = x := by
  rw [Memory.readF, Memory.writeF, Memory.read_write_same h]

/-- After as many frames as the buffer has slots the index is back, and there stands what the first frame stored. -/
theorem Line.Advances.read_after_turn {size n i : Nat} {m : Mem} {v : F32} {c' : Line}
    (h : Line.Advances size n ⟨Memory.writeF m i v, ringNext i size⟩ c') (hm : Memory.wf m = true) (hi : i < size)
    (hn : n + 1 = size) : Memory.readF c'.buf c'.idx = v := by
  have hidx : c'.idx = i := by
    rw [((Line.Advances.write size m i v).cons h).idx_eq (Nat.succ_pos n), hn, Nat.add_mod_right, Nat.mod_eq_of_lt hi]
  have hout : outsideRing (ringNext i size) n size i := fun j hj => by
    rw [ringNext, Nat.mod_add_mod, Nat.add_assoc]
    exact (add_mod_ne_self hi (by omega) (by omega)).symm
  have hread := h.read_eq (ringNext_lt (by omega) i) hout
  rw [hidx, Memory.readF, hread]
  exact Memory.readF_writeF_same hm i v

theorem combRun_advances (gc : F32) (len : Nat) (xs : List F32) (c : Line) :
    Line.Advances len xs.length c (combRun gc len xs c) := by
  induction xs generalizing c with
  | nil => exact .refl len c
  | cons x xs ih => exact (combStep_advances gc x len c).cons (ih _)

theorem allpassRun_advances (len : Nat) (us : List F32) (a : Line) :
    Line.Advances len us.length a (allpassRun len us a) := by
  induction us generalizing a with
  | nil => exact .refl len a
  | cons u us ih => exact (allpassStep_advances u len a).cons (ih _)

end Sys2Proof.Machine

section
open Sys2Proof Sys2Proof.Machine

/-- Settles O54: the frames after the first turn the index once round without writing its slot. -/
theorem combAndAllpassDelayByLength : Obligations.CombAndAllpassDelayByLength :=
  ⟨fun gc _ len xs _ hwf hidx hlen => (combRun_advances gc len xs _).read_after_turn hwf hidx hlen,
    fun _ len us _ hwf hidx hlen => (allpassRun_advances len us _).read_after_turn hwf hidx hlen⟩

end
end

section
/-! SUPPORT. The delay stage channel by channel, and its distances (43_effects.md R217 to R221). -/

namespace Sys2Proof.Machine
open F32

variable {P : ParamFile} {fs : Nat}

/-! ### One channel -/

theorem delayChan_of_standard (hon : isOn P Reg.delayEnable = true)
    (hmode : F32.eq (par P Reg.delayMode) F32.zero = true) (w : Nat) (buf : Mem) (x : F32) :
    delayChan P fs w buf x
      = (Memory.writeF buf w (add x (mul (par P Reg.delayFeedback)
            (Memory.readF buf (ringBack w (standardLen P fs) (Config.dbuf fs))))),
          blend x (Memory.readF buf (ringBack w (standardLen P fs) (Config.dbuf fs))) (par P Reg.delayMix)) := by
  rw [delayChan, hon, hmode, if_pos (by decide)]

theorem delayChan_of_multiTap (hon : isOn P Reg.delayEnable = true)
    (hmode : F32.eq (par P Reg.delayMode) F32.zero = false) (w : Nat) (buf : Mem) (x : F32) :
    delayChan P fs w buf x
      = (Memory.writeF buf w x, blend x (multiTapWet P fs w buf) (par P Reg.delayMix)) := by
  rw [delayChan, hon, hmode, if_neg (by decide), if_pos rfl]

/-- The delay runs each channel by itself and advances the index they share. -/
theorem delay_get (P : ParamFile) (fs : Nat) (st : DelayState) (x : Stereo F32) (c : Chan) :
    (delay P fs st x).1.dly.get c = (delayChan P fs st.w (st.dly.get c) (x.get c)).1
      ∧ (delay P fs st x).2.get c = (delayChan P fs st.w (st.dly.get c) (x.get c)).2 := by
  cases c <;> exact ⟨rfl, rfl⟩

/-! ### Distances -/

/-- A delay length lies in [1, DBUF − 1], whatever it is made from (R218, R220). -/
theorem delayLen_bounds (hfs : 1 ≤ fs) (d : F32) : 1 ≤ delayLen fs d ∧ delayLen fs d ≤ Config.dbuf fs - 1 := by
  unfold delayLen Config.dbuf
  omega

end Sys2Proof.Machine

section
open Sys2Proof Sys2Proof.Machine

/-- Settles O51: the three modes of a channel, each a read of the old buffer and one write at the index. -/
theorem delayReadsThenWrites : Obligations.DelayReadsThenWrites := by
  intro P fs st x c hwf o new tap mix on standard
  obtain ⟨hbuf, hout⟩ := delay_get P fs st x c
  have hnew {v : F32} (h : o.1.dly.get c = Memory.writeF (st.dly.get c) st.w v) : new = v :=
    (congrArg (Memory.readF · st.w) h).trans (Memory.readF_writeF_same hwf st.w v)
  refine ⟨fun hon hstd => ?_, fun hon hstd => ?_, fun hoff => ?_, fun a ha => ?_, rfl⟩
  · rw [delayChan_of_standard hon hstd] at hbuf hout
    exact ⟨hnew hbuf, hout⟩
  · rw [delayChan_of_multiTap hon hstd] at hbuf hout
    exact ⟨hnew hbuf, hout⟩
  · rw [delayChan_of_off hoff] at hbuf hout
    exact ⟨hnew hbuf, hout⟩
  · obtain ⟨v, hv⟩ := delayChan_write (P := P) (fs := fs) st.w (st.dly.get c) (x.get c)
    rw [hbuf, hv]
    exact Memory.read_write_ne _ _ ha

/-- Settles O52: both modes bound their lengths, and a distance in the bounds is another slot that many steps behind. -/
theorem delayDistancesStayInside : Obligations.DelayDistancesStayInside := by
  intro P fs w hfs hw
  refine ⟨delayLen_bounds hfs _, fun t => delayLen_bounds hfs _, fun d h1 h2 => ?_⟩
  exact ⟨ringBack_lt (by omega) w d, ringBack_ne hw h1 (by omega), ringBack_add_mod hw d⟩

end
end

section
/-! SUPPORT. The flanger's delay: the sweep lies between 1 and 11 ms, which is at least 8 frames and at most FS/64 of
them (43_effects.md R214). -/

namespace Sys2Proof

namespace F32
open Machine

/-- Between finite bounds, the numbers of [lo₁, hi₁] times those of [lo₂, hi₂], all at least 0, lie in [lo, hi]. -/
def productInside (lo₁ hi₁ lo₂ hi₂ lo hi : F32) : Bool :=
  [lo₁, hi₁, lo₂, hi₂, lo, hi].all isFinite && decide (0 ≤ lo₁.fix) && decide (0 ≤ lo₂.fix)
    && decide (lo.fix * 2 ^ 149 ≤ lo₁.fix * lo₂.fix) && decide (hi₁.fix * hi₂.fix ≤ hi.fix * 2 ^ 149)

theorem within_mul_of_productInside {lo₁ hi₁ lo₂ hi₂ lo hi a b : F32} (ha : within lo₁ hi₁ a = true)
    (hb : within lo₂ hi₂ b = true) (h : productInside lo₁ hi₁ lo₂ hi₂ lo hi = true) :
    within lo hi (mul a b) = true := by
  simp only [productInside, List.all_cons, List.all_nil, Bool.and_true, Bool.and_eq_true, decide_eq_true_eq] at h
  obtain ⟨⟨⟨⟨⟨fl₁, fh₁, fl₂, fh₂, fl, fh⟩, h₁⟩, h₂⟩, hlo⟩, hhi⟩ := h
  obtain ⟨fa, a0, a1⟩ := (within_iff fl₁ fh₁).1 ha
  obtain ⟨fb, b0, b1⟩ := (within_iff fl₂ fh₂).1 hb
  exact within_mul fl fh fa fb (hlo.trans (mul_le_mul a0 b0 h₂ (h₁.trans a0)))
    ((mul_le_mul a1 b1 (h₂.trans b0) (h₁.trans (a0.trans a1))).trans hhi)

/-- A number lies between itself and itself. -/
theorem within_self {x : F32} (h : x.isNaN = false) : within x x x = true :=
  Bool.and_eq_true_iff.2 ⟨le_refl_of h, le_refl_of h⟩

theorem fix_half : half.fix = 2 ^ 148 := by decide +kernel

/-- (1 + u)/2 of a u in [−1, 1] lies in [0, 1]. -/
theorem half_add_half_mul_within {u : F32} (hu : within negOne one u = true) :
    within zero one (add half (mul half u)) = true := by
  obtain ⟨fu, u0, u1⟩ := within_negOne_one_iff.1 hu
  have hmul : within (negate half) half (mul half u) = true :=
    within_mul (by decide) (by decide) (by decide) fu (by rw [fix_negate, fix_half]; omega) (by rw [fix_half]; omega)
  obtain ⟨fm, m0, m1⟩ := (within_iff (by decide) (by decide)).1 hmul
  rw [fix_negate, fix_half] at m0
  rw [fix_half] at m1
  exact within_add (by decide) (by decide) (by decide) fm (by rw [fix_zero, fix_half]; omega)
    (by rw [fix_one, fix_half]; omega)

end F32

namespace Machine
open F32 Consts

variable {P : ParamFile} {fs : Nat}

/-- The flanger's LFO is a number of [−1, 1], whatever F_sin is (P_SINR). -/
theorem flangerLfo_within {ph : F32} (h : inPhase ph = true) : within negOne one (fSin (mul twoPi ph)) = true := by
  have hph : within F32.zero one ph = true := by
    obtain ⟨h0, h1⟩ := Bool.and_eq_true_iff.1 h
    exact Bool.and_eq_true_iff.2 ⟨h0, lt_imp_le h1⟩
  have hangle : within F32.zero twoPi (mul twoPi ph) = true :=
    within_mul_of_productInside (within_self (by decide)) hph (by decide +kernel)
  exact inUnit_fSin ((within_iff (by decide) (by decide)).1 hangle).1

/-- The flanger's delay lies between FL_MIN_MS and FL_MIN_MS + FL_SWEEP_MS, 1 and 11 ms (R214). -/
theorem flangerMs_within (hP : P.Legal) {u : F32} (hu : within F32.zero one u = true) :
    within one ⟨0x41300000#32⟩ (add flMinMs (mul (mul (par P Reg.flangerDepth) flSweepMs) u)) = true := by
  have hmin : flMinMs = one := by decide +kernel
  have hsweep : flSweepMs = ⟨0x41200000#32⟩ := by decide +kernel
  have hdepth : within F32.zero one (par P Reg.flangerDepth) = true := hP.par_within (by decide +kernel)
  have hwidth : within F32.zero ⟨0x41200000#32⟩ (mul (par P Reg.flangerDepth) ⟨0x41200000#32⟩) = true :=
    within_mul_of_productInside hdepth (within_self (by decide)) (by decide +kernel)
  have hpart : within F32.zero ⟨0x41200000#32⟩ (mul (mul (par P Reg.flangerDepth) ⟨0x41200000#32⟩) u) = true :=
    within_mul_of_productInside hwidth hu (by decide +kernel)
  have h10 : (⟨0x41200000#32⟩ : F32).fix = 10 * 2 ^ 149 := by decide +kernel
  have h11 : (⟨0x41300000#32⟩ : F32).fix = 11 * 2 ^ 149 := by decide +kernel
  obtain ⟨fp, p0, p1⟩ := (within_iff (by decide) (by decide)).1 hpart
  rw [fix_zero] at p0
  rw [h10] at p1
  rw [hmin, hsweep]
  exact within_add (by decide) (by decide) (by decide) fp (by rw [fix_one]; omega) (by rw [fix_one, h11]; omega)

/-- At least 1 ms and at most 11 ms, in frames: at least 8 and at most FS/64 (R214). -/
theorem framesOfMs_bounds {dms : F32} (hfs : 8000 ≤ fs) (hfs' : fs ≤ 192000)
    (h : within one ⟨0x41300000#32⟩ dms = true) : (mul (mul dms (dec 1 1000)) (fsf fs)).isFinite = true
      ∧ 8 * 2 ^ 149 ≤ (mul (mul dms (dec 1 1000)) (fsf fs)).fix
      ∧ (mul (mul dms (dec 1 1000)) (fsf fs)).fix ≤ fs * 2 ^ 143 := by
  have hmilli : dec 1 1000 = ⟨0x3A83126F#32⟩ := by decide +kernel
  have hsec : within ⟨0x3A83126F#32⟩ ⟨0x3C800000#32⟩ (mul dms ⟨0x3A83126F#32⟩) = true :=
    within_mul_of_productInside h (within_self (by decide)) (by decide +kernel)
  have hlow : 2 ^ 149 ≤ (⟨0x3A83126F#32⟩ : F32).fix * 1000 := by decide +kernel
  have hhigh : (⟨0x3C800000#32⟩ : F32).fix = 2 ^ 143 := by decide +kernel
  obtain ⟨fsec, sec0, sec1⟩ := (within_iff (by decide) (by decide)).1 hsec
  rw [hhigh] at sec1
  obtain ⟨ffs, vfs⟩ := ofNat_exact (n := fs) (by omega)
  obtain ⟨f8, v8⟩ := ofNat_exact (n := 8) (by decide)
  obtain ⟨hi, fhi, vhi⟩ := exact_of_significand (q := fs) (k := 143) (by omega) (by decide)
  push_cast at vhi
  have := within_mul f8 fhi fsec ffs (by rw [v8, vfs]; push_cast; nlinarith) (by rw [vhi, vfs]; nlinarith)
  rw [within_iff f8 fhi, v8, vhi] at this
  rw [hmilli]
  exact_mod_cast this

/-- Both slots the flanger reads are 8 to LF − 1 behind the write index (R214, R215). -/
theorem flangerDelay_bounds (hP : P.Legal) (hfs : 8000 ≤ fs) (hfs' : fs ≤ 192000) {ph : F32} (h : inPhase ph = true) :
    8 ≤ floorI (flangerDelay P fs ph) ∧ floorI (flangerDelay P fs ph) + 1 ≤ (Config.lf fs : Int) - 1 := by
  obtain ⟨hf, h0, h1⟩ : (flangerDelay P fs ph).isFinite = true ∧ 8 * 2 ^ 149 ≤ (flangerDelay P fs ph).fix
      ∧ (flangerDelay P fs ph).fix ≤ fs * 2 ^ 143 :=
    framesOfMs_bounds hfs hfs' (flangerMs_within hP (half_add_half_mul_within (flangerLfo_within h)))
  rw [floorI_of_isFinite hf]
  unfold Config.lf
  omega

end Machine
end Sys2Proof

section
open Sys2Proof Sys2Proof.Machine

/-- Settles O53: a delay of 1 to 11 ms is at least 8 frames and far less than the 50 ms of the buffer. -/
theorem flangerDistancesStayInside : Obligations.FlangerDistancesStayInside := by
  intro s ph hregs hcfg _ hph Di LF
  obtain ⟨hfs, hfs', -⟩ := hcfg
  obtain ⟨hlo, hhi⟩ : 8 ≤ Di ∧ Di + 1 ≤ (LF : Int) - 1 := flangerDelay_bounds hregs hfs hfs' hph
  refine ⟨hlo, hhi, fun w hw => ?_⟩
  obtain ⟨d, hd⟩ := Int.eq_ofNat_of_zero_le (show 0 ≤ Di by omega)
  have hne := ringBack_ne (d := d) hw (by omega) (by omega)
  have hne' := ringBack_ne (d := d + 1) hw (by omega) (by omega)
  rw [hd]
  exact ⟨ringBack_lt (by omega) w _, hne, ringBack_lt (by omega) w _, hne'⟩

end
end

section
/-! SUPPORT. The checks of a command word and STATUS: the word as its command, the answers that drop a command, which
commands pass every check, and the flags a command adds whatever STATUS holds (60_exceptions.md R260 to R264). -/

namespace Sys2Proof

/-! ### The word of an opcode as its command -/

variable {w : Cmd}

theorem reservedZero_of_reservedNonzero (ho : (opc w).toNat ≤ 5) (hr : Machine.reservedNonzero w = false) :
    reservedZero w = true := by
  simpa [reservedNonzero_eq ho] using hr

theorem decodeWord_of_opc_one (ho : opc w = 1) (hr : Machine.reservedNonzero w = false) :
    decodeWord w = .ok (.setp (fieldImm w) (fieldData w)) := by
  have hz := reservedZero_of_reservedNonzero (by simp [ho]) hr
  simp [decodeWord, opcodeAssigned, ho, hz]

/-- GATEON reserves no field (R89). -/
theorem decodeWord_of_opc_two (ho : opc w = 2) :
    decodeWord w = .ok (.gateon (fieldV w) (fieldImm w) (fieldData w)) := by
  simp [decodeWord, opcodeAssigned, reservedZero, ho]

theorem decodeWord_of_opc_three (ho : opc w = 3) (hr : Machine.reservedNonzero w = false) :
    decodeWord w = .ok (.gateoff (fieldV w)) := by
  have hz := reservedZero_of_reservedNonzero (by simp [ho]) hr
  simp [decodeWord, opcodeAssigned, ho, hz]

theorem decodeWord_of_opc_four (ho : opc w = 4) (hr : Machine.reservedNonzero w = false) :
    decodeWord w = .ok (.render (fieldData w)) := by
  have hz := reservedZero_of_reservedNonzero (by simp [ho]) hr
  simp [decodeWord, opcodeAssigned, ho, hz]

/-- Only an assigned opcode has reserved fields. -/
theorem opc_le_five_of_reservedNonzero (h : Machine.reservedNonzero w = true) : (opc w).toNat ≤ 5 := by
  simp only [Machine.reservedNonzero, Bool.or_eq_true, decide_eq_true_eq] at h
  rcases h with (((⟨ho, -⟩ | ⟨ho, -⟩) | ⟨ho, -⟩) | ⟨ho, -⟩) | ⟨ho, -⟩
  all_goals simp [← extractLsb'_opc, ho]

theorem extractLsb'_imm (w : Cmd) : w.extractLsb' 32 16 = fieldImm w := rfl

theorem extractLsb'_data (w : Cmd) : w.extractLsb' 0 32 = fieldData w := rfl

namespace Machine

variable {s t : State} {i : Instr} {ws : List Cmd}

/-! ### The answers of GATEON and GATEOFF by slot and note -/

theorem exec_gateon_errVoice {v : BitVec 8} (vel : BitVec 16) (note : Word) (h : s.nv ≤ v.toNat) :
    exec (.gateon v vel note) s = .next (s.raise .errVoice) := if_pos h

theorem exec_gateon_errNan {v : BitVec 8} (vel : BitVec 16) {note : Word} (h : v.toNat < s.nv)
    (hn : (F32.mk note).isNaN = true) : exec (.gateon v vel note) s = .next (s.raise .errNan) :=
  (if_neg (Nat.not_le.2 h)).trans (if_pos hn)

theorem exec_gateon_starts {v : BitVec 8} (vel : BitVec 16) {note : Word} (h : v.toNat < s.nv)
    (hn : (F32.mk note).isNaN = false) :
    exec (.gateon v vel note) s = .next (s.setVoice v.toNat (gatedOn (velOf vel) (noteOf ⟨note⟩))) :=
  (if_neg (Nat.not_le.2 h)).trans (if_neg (by simp [hn]))

theorem exec_gateoff_errVoice {v : BitVec 8} (h : s.voices[v.toNat]? = none) :
    exec (.gateoff v) s = .next (s.raise .errVoice) := by
  simp [exec, execGateoff, h, drop]

theorem exec_gateoff_slot {v : BitVec 8} {x : Voice} (h : s.voices[v.toNat]? = some x) :
    exec (.gateoff v) s = .next (s.setVoice v.toNat (gatedOff x)) := by
  simp [exec, execGateoff, h]

/-! ### The step by the command's answer -/

/-- A step always answers a next state. -/
theorem step_next (s : State) : ∃ s', step s = .next s' := by
  rcases step_cases s with ⟨-, h⟩ | ⟨_, _, -, ⟨_, _, -, -, h⟩ | ⟨_, -, h⟩⟩
  all_goals exact ⟨_, h⟩

theorem step_of_exec (hp : s.port = w :: ws) (hd : decodeWord w = .ok i)
    (he : exec i (s.setPort ws) = .next t) : step s = .next t.retire := by
  simp [step, fetch_cons hp, runWord, hd, he]

/-- The step on a command that only sets a flag: the word is dropped with that flag (R262). -/
theorem step_of_raise {f : Flag} (hp : s.port = w :: ws) (hd : decodeWord w = .ok i)
    (he : exec i (s.setPort ws) = .next ((s.setPort ws).raise f)) : step s = .next (s.dropped ws f.bit) :=
  step_of_exec hp hd he

/-- The step on a word of an unassigned opcode drops it with ERR_OPC (R263 step 1). -/
theorem step_of_unassigned (hp : s.port = w :: ws) (h : 6 ≤ (opc w).toNat) : step s = .next (s.dropped ws 0) := by
  rcases decodeWord_cases w with ⟨-, hd⟩ | ⟨h5, -⟩ | ⟨h5, -⟩
  · exact step_of_reject hp hd
  · omega
  · omega

/-! ### Commands that pass every check -/

/-- The command passes the checks of its operands (R263 steps 3 to 6). Unlike `Instr.wf`, a NaN to an id that is no
parameter register passes: it is ignored without a flag (40_control.md R107). -/
def PassesChecks (s : State) : Instr → Prop
  | .setp id value => isParamId id.toNat = true → (F32.mk value).isNaN = false
  | .gateon v _ note => v.toNat < s.nv ∧ (F32.mk note).isNaN = false
  | .gateoff v => v.toNat < s.nv
  | .render n => s.Accepts n
  | .nop => True
  | .clrst _ => True

/-- STATUS after a command that passes every check: as before, with FLT_RESET set (RENDER), or masked (CLRST). -/
theorem exec_status_of_passes (hi : PassesChecks s i) (h : exec i s = .next t) :
    t.status = s.status ∨ t.status = setFlag s.status .fltReset ∨ ∃ mask, t.status = clearFlags s.status mask := by
  cases i with
  | nop =>
    obtain rfl := Host.Outcome.next.inj h
    exact .inl rfl
  | setp id v =>
    replace h : execSetp id v s = .next t := h
    rcases execSetp_cases id v s with ⟨-, e⟩ | ⟨i, hid, ⟨hn, -⟩ | ⟨-, e⟩⟩
    · obtain rfl := Host.Outcome.next.inj (e.symm.trans h)
      exact .inl rfl
    · simp [hi (isParamId_of_index hid)] at hn
    · obtain rfl := Host.Outcome.next.inj (e.symm.trans h)
      exact .inl rfl
  | gateon v vel note =>
    obtain ⟨hv, hn⟩ := hi
    obtain rfl := Host.Outcome.next.inj ((exec_gateon_starts vel hv hn).symm.trans h)
    exact .inl rfl
  | gateoff v =>
    obtain rfl := Host.Outcome.next.inj ((exec_gateoff_slot (List.getElem?_eq_getElem hi)).symm.trans h)
    exact .inl rfl
  | render n =>
    obtain rfl := Host.Outcome.next.inj ((exec_render_of_accepts hi).symm.trans h)
    exact (render_status_cases s _).imp_right .inl
  | clrst mask =>
    obtain rfl := Host.Outcome.next.inj h
    exact .inr (.inr ⟨mask, rfl⟩)

theorem setFlag_fltReset_adds_no_error (st : Word) : setFlag st .fltReset &&& ~~~st &&& 0x1F#32 = 0 := by
  have hf : Flag.fltReset.mask &&& 0x1F#32 = 0 := by decide
  have hnew : setFlag st .fltReset &&& ~~~st = ~~~st &&& Flag.fltReset.mask := by
    rw [setFlag, BitVec.and_or_distrib_right, BitVec.and_not_self, BitVec.and_comm Flag.fltReset.mask]
    exact BitVec.zero_or
  rw [hnew, BitVec.and_assoc, hf]
  exact BitVec.and_zero

theorem clearFlags_adds_no_flag (st mask : Word) : clearFlags st mask &&& ~~~st = 0 := by
  rw [clearFlags, BitVec.and_assoc st, BitVec.and_comm st, BitVec.and_assoc, BitVec.and_not_self]
  exact BitVec.and_zero

/-- A command that passes every check sets no error flag (R261). -/
theorem exec_adds_no_error (hi : PassesChecks s i) (h : exec i s = .next t) :
    t.status &&& ~~~s.status &&& 0x1F#32 = 0 := by
  rcases exec_status_of_passes hi h with e | e | ⟨mask, e⟩ <;> rw [e]
  · simp
  · exact setFlag_fltReset_adds_no_error _
  · rw [clearFlags_adds_no_flag]
    rfl

/-! ### The flags a command adds -/

/-- Whatever STATUS holds, the command leaves the same state but for STATUS, to which it adds the same flags. -/
def AddsFlags (i : Instr) (s : State) : Prop :=
  ∃ (t : State) (new : Word), ∀ st : Word, exec i { s with status := st } = .next { t with status := st ||| new }

theorem addsFlags_of_status_kept (h : ∀ st : Word, exec i { s with status := st } = .next { t with status := st }) :
    AddsFlags i s :=
  ⟨t, 0, fun st => by rw [h]; simp⟩

theorem addsFlags_of_raise (f : Flag)
    (h : ∀ st : Word, exec i { s with status := st } = .next (State.raise { s with status := st } f)) :
    AddsFlags i s :=
  ⟨s, f.mask, h⟩

/-- RENDER reads no flag: of STATUS its guard's FLT_RESET is all it touches. -/
theorem render_with_status (s : State) (n : Nat) (st : Word) : State.render { s with status := st } n
    = { s.render n with status := st ||| if (s.outputOf n).1.fltReset then Flag.fltReset.mask else 0 } := by
  have hst : (State.render { s with status := st } n).status
      = if (s.outputOf n).1.fltReset then setFlag st .fltReset else st := rfl
  have hor : (State.render { s with status := st } n).status
      = st ||| if (s.outputOf n).1.fltReset then Flag.fltReset.mask else 0 := by
    rw [hst]
    split
    · rfl
    · simp
  rw [← hor]
  rfl

/-- Every command but CLRST adds flags and does not read STATUS (R264). -/
theorem exec_addsFlags (s : State) (hi : ∀ mask, i ≠ .clrst mask) : AddsFlags i s := by
  cases i with
  | nop => exact addsFlags_of_status_kept fun st => rfl
  | setp id v =>
    cases hid : paramIndex? id.toNat with
    | none => exact addsFlags_of_status_kept fun st => exec_setp_ignored _ v (isParamId_of_index_none hid)
    | some k =>
      cases hv : (F32.mk v).isNaN with
      | true => exact addsFlags_of_raise .errNan fun st => exec_setp_nan _ (isParamId_of_index hid) hv
      | false =>
        exact addsFlags_of_status_kept (t := s.writeParam id.toNat (convert (paramRow k).kind ⟨v⟩))
          fun st => exec_setp_stores _ hid hv
  | gateon v vel note =>
    by_cases h : s.nv ≤ v.toNat
    · exact addsFlags_of_raise .errVoice fun st => exec_gateon_errVoice vel note h
    · cases hn : (F32.mk note).isNaN with
      | true => exact addsFlags_of_raise .errNan fun st => exec_gateon_errNan vel (Nat.not_le.1 h) hn
      | false =>
        exact addsFlags_of_status_kept (t := s.setVoice v.toNat (gatedOn (velOf vel) (noteOf ⟨note⟩)))
          fun st => exec_gateon_starts vel (Nat.not_le.1 h) hn
  | gateoff v =>
    cases hx : s.voices[v.toNat]? with
    | none => exact addsFlags_of_raise .errVoice fun st => exec_gateoff_errVoice hx
    | some x =>
      exact addsFlags_of_status_kept (t := s.setVoice v.toNat (gatedOff x)) fun st => exec_gateoff_slot hx
  | render n =>
    by_cases h : s.Accepts n
    · exact ⟨s.render n.toNat, _, fun st => by
        rw [← render_with_status]
        exact exec_render_of_accepts h⟩
    · exact addsFlags_of_raise .errLen fun st => exec_render_of_not_accepts h
  | clrst mask => exact absurd rfl (hi mask)

/-- A command other than CLRST, run with its own and with any other STATUS (R264). -/
theorem exec_with_status (h : exec i s = .next t) (hi : ∀ mask, i ≠ .clrst mask) (st : Word) :
    ∃ new : Word, t.status = s.status ||| new
      ∧ exec i { s with status := st } = .next { t with status := st ||| new } := by
  obtain ⟨u, new, hu⟩ := exec_addsFlags s hi
  obtain rfl : t = { u with status := s.status ||| new } := Host.Outcome.next.inj (h.symm.trans (hu s.status))
  exact ⟨new, rfl, hu st⟩

theorem and_not_or_self (st new : Word) : st &&& ~~~(st ||| new) = 0 := by
  rw [BitVec.not_or, ← BitVec.and_assoc, BitVec.and_not_self]
  exact BitVec.zero_and

/-- A step on a word whose opcode is not CLRST's adds flags to STATUS and takes none away. -/
theorem step_status_of_opc_ne {s' : State} (hp : s.port = w :: ws) (ho : opc w ≠ 5) (h : step s = .next s') :
    ∃ new : Word, s'.status = s.status ||| new := by
  cases hd : decodeWord w with
  | ok i =>
    have hi : ∀ mask, i ≠ .clrst mask := by
      rintro mask rfl
      exact ho (by simp [← encode_of_decodeWord hd, encode])
    obtain ⟨t, he, hstep⟩ := step_of_decode hp hd
    obtain rfl := Host.Outcome.next.inj (hstep.symm.trans h)
    obtain ⟨new, hnew, -⟩ := exec_with_status he hi 0
    exact ⟨new, hnew⟩
  | error e =>
    obtain rfl := Host.Outcome.next.inj ((step_of_reject hp hd).symm.trans h)
    exact ⟨_, rfl⟩

end Machine
end Sys2Proof

section
open Sys2Proof Sys2Proof.Machine

/-- Settles O7: each case of a command's and of a step's answer is a next state. -/
theorem noCommandStopsTheBlock : Obligations.NoCommandStopsTheBlock := ⟨exec_next, step_next⟩

/-- Settles O8: the decoder's two rejects, then each command's answer by its operand checks. -/
theorem checksApplyInOrder : Obligations.ChecksApplyInOrder := by
  intro s w ws hp
  refine ⟨step_of_unassigned hp,
    fun hr => step_of_reservedNonzero hp (opc_le_five_of_reservedNonzero hr) hr,
    fun ho hv => step_of_raise hp (decodeWord_of_opc_two ho) (exec_gateon_errVoice _ _ hv),
    fun ho hr hv => step_of_raise hp (decodeWord_of_opc_three ho hr)
      (exec_gateoff_errVoice (List.getElem?_eq_none hv)),
    fun ho hr hid => step_of_exec hp (decodeWord_of_opc_one ho hr) (exec_setp_ignored _ _ hid),
    fun ho hr hid hn => step_of_raise hp (decodeWord_of_opc_one ho hr) (exec_setp_nan _ hid hn),
    fun ho hv hn => step_of_raise hp (decodeWord_of_opc_two ho) (exec_gateon_errNan _ hv hn),
    fun ho hr hlen => step_of_raise hp (decodeWord_of_opc_four ho hr) (exec_render_of_not_accepts ?_),
    fun ho hr hvoice hsetp hgateon hrender => ?_⟩
  · rintro ⟨h1, hmax : (fieldData w).toNat ≤ s.cfg.maxb⟩
    rw [extractLsb'_data] at hlen
    omega
  · obtain ⟨i, rfl⟩ := exists_encode_eq ho (reservedZero_of_reservedNonzero ho hr)
    have hpass : PassesChecks (s.setPort ws) i := by
      simp only [extractLsb'_opc, extractLsb'_voice, extractLsb'_imm, extractLsb'_data] at hvoice hsetp hgateon hrender
      cases i with
      | nop => trivial
      | setp id v => simpa [encode, PassesChecks] using hsetp
      | gateon v vel note => exact ⟨by simpa [encode] using hvoice, by simpa [encode] using hgateon⟩
      | gateoff v => simpa [encode, PassesChecks] using hvoice
      | render n => simpa [encode, PassesChecks, State.Accepts] using hrender
      | clrst mask => trivial
    obtain ⟨t, he, hstep⟩ := step_of_decode hp (decodeWord_encode i)
    have hnone := exec_adds_no_error hpass he
    exact ⟨_, hstep, hnone⟩

/-- Settles O9: CLRST masks STATUS alone, and every other command adds flags that do not depend on STATUS. -/
theorem flagsAreStickyAndInert : Obligations.FlagsAreStickyAndInert := by
  refine ⟨fun i s t st h => ?_, fun i s t st h hi => exec_with_status h hi st,
    fun s s' w ws hp ho h => ?_, fun s => rfl⟩
  · by_cases hi : ∀ mask, i ≠ .clrst mask
    · obtain ⟨_, -, hu⟩ := exec_with_status h hi st
      exact ⟨_, hu, rfl⟩
    · obtain ⟨mask, rfl⟩ : ∃ mask, i = .clrst mask := by simpa using hi
      obtain rfl := Host.Outcome.next.inj h
      exact ⟨_, rfl, rfl⟩
  · obtain ⟨new, hnew⟩ := step_status_of_opc_ne hp ho h
    rw [hnew]
    exact and_not_or_self _ _

end
end

section
/-! SUPPORT. What reset gives the registers, the voices and the memories (70_reset_and_hazards.md R280 to R283). -/

namespace Sys2Proof.Machine

/-- A parameter register reads as its value in the register file. -/
theorem readReg_of_param (s : State) {id : RegId} (h : isParamId id.toNat = true) :
    readReg s id = (par s.regs id.toNat).bits := by
  obtain ⟨i, hi⟩ := Option.isSome_iff_exists.1 ((paramIndex?_isSome id.toNat).trans h)
  rw [readReg_of_index s hi, par_of_index hi]

/-- After reset a parameter register reads its reset value, whatever the state before. -/
theorem readReg_hostReset (s : State) {id : RegId} (h : isParamId id.toNat = true) :
    readReg s.hostReset id = (par ParamFile.reset id.toNat).bits := readReg_of_param s.hostReset h

/-- So do the registers that a list names. -/
theorem map_readReg_hostReset (s : State) {ids : List RegId} {ws : List Word}
    (hids : ids.all (fun id => isParamId id.toNat) = true)
    (hws : ids.map (fun id => (par ParamFile.reset id.toNat).bits) = ws) : ids.map (readReg s.hostReset) = ws :=
  (List.map_congr_left fun id hid => readReg_hostReset s (List.all_eq_true.1 hids id hid)).trans hws

/-- The ids of oscillator slot `slot`, counted from 0 (10_state.md R26). -/
def oscIds (slot : Nat) : List RegId :=
  [0, 1, 2, 3, 4, 5, 6, 7].map fun f => BitVec.ofNat 16 (0x0100 + 0x10 * slot + f)

/-- The ids of the taps' beats registers (R35). -/
def beatsIds : List RegId := [0, 1, 2, 3, 4, 5, 6, 7].map fun t => BitVec.ofNat 16 (0x0801 + 0x10 * t)

/-- Osc1's gain alone differs between the slots' reset values (R26). -/
theorem oscIds_reset : ∀ slot : Fin 4, (oscIds slot).all (fun id => isParamId id.toNat) = true
    ∧ (oscIds slot).map (fun id => (par ParamFile.reset id.toNat).bits)
      = [0, 0, 0, if slot = 0 then 0x3F800000#32 else 0, 0, 0x3F000000#32, 0x3F800000#32, 0] := by
  decide +kernel

/-- Every tap is off at half level after reset (R35). -/
theorem tap_reset : ∀ t : Fin 8,
    (isParamId (BitVec.ofNat 16 (0x0800 + 0x10 * t.val)).toNat = true
      ∧ isParamId (BitVec.ofNat 16 (0x0802 + 0x10 * t.val)).toNat = true)
    ∧ (par ParamFile.reset (BitVec.ofNat 16 (0x0800 + 0x10 * t.val)).toNat).bits = 0
    ∧ (par ParamFile.reset (BitVec.ofNat 16 (0x0802 + 0x10 * t.val)).toNat).bits = 0x3F000000#32 := by
  decide +kernel

/-- Every voice slot after reset is one at its reset values. -/
theorem eq_reset_of_hostReset_voices {s : State} {v : Nat} {x : Voice} (h : s.hostReset.voices[v]? = some x) :
    x = Voice.reset :=
  List.eq_of_mem_replicate (List.mem_of_getElem? h)

theorem hostReset_reverb_get (s : State) (c : Chan) : s.hostReset.reverb.get c = ReverbChan.reset := by
  cases c <;> rfl

theorem Voice.reset_acc (slot : Fin 4) (k : Fin 8) : Voice.reset.acc[slot][k] = F32.zero := by
  simp [Voice.reset]

theorem ReverbChan.reset_comb (k : Fin 4) : ReverbChan.reset.comb[k] = ⟨[], 0⟩ := by
  simp [ReverbChan.reset]

theorem ReverbChan.reset_allpass (j : Fin 2) : ReverbChan.reset.allpass[j] = ⟨[], 0⟩ := by
  simp [ReverbChan.reset]

/-- The meters' reset reading, −120 dB (R282). -/
theorem reset_levelDb : Consts.dec (-120) 1 = ⟨0xC2F00000#32⟩ := by decide +kernel

/-- Every OUTBUF word reads 0 after reset (R283). -/
theorem readOut_hostReset (s : State) (a : Nat) : readOut s.hostReset a = 0 := by
  rw [readOut, show Memory.read s.hostReset.outbuf a = 0 from rfl, ite_self]

end Sys2Proof.Machine

section
open Sys2Proof Sys2Proof.Machine

/-- Settles O23: each register reads its table's reset column, evaluated id by id. -/
theorem resetParameters : Obligations.ResetParameters := by
  intro s
  refine ⟨fun slot => ?osc, ?env, ?mixer, ?enables, ?master, ?ringFilter, ?flanger, ?delayReverb, ?beats,
    fun t => ?tap⟩
  case osc =>
    obtain ⟨hids, hws⟩ := oscIds_reset slot
    exact map_readReg_hostReset s hids hws
  case beats => exact map_readReg_hostReset s (ids := beatsIds) (by decide +kernel) (by decide +kernel)
  case tap =>
    obtain ⟨⟨hon, hlevel⟩, hoff, hhalf⟩ := tap_reset t
    exact ⟨(readReg_hostReset s hon).trans hoff, (readReg_hostReset s hlevel).trans hhalf⟩
  all_goals exact map_readReg_hostReset s (by decide +kernel) (by decide +kernel)

/-- Settles O24: the fields of the reset state, and an unlisted element reads as 0. -/
theorem resetInternalState : Obligations.ResetInternalState := by
  intro s
  refine ⟨fun v x hx => ?voice, List.length_replicate, rfl, rfl, rfl, fun c => by cases c <;> rfl, ?peak, ?rms,
    rfl, rfl, ?cutoff, rfl, rfl, fun c => by cases c <;> rfl, fun c a => by cases c <;> rfl, rfl, rfl,
    fun c a => by cases c <;> rfl, rfl, fun c k a => ?comb, fun c j a => ?allpass, rfl, rfl, rfl,
    readOut_hostReset s, ?reg⟩
  case voice =>
    obtain rfl := eq_reset_of_hostReset_voices hx
    exact ⟨rfl, rfl, rfl, rfl, rfl, rfl, Voice.reset_acc⟩
  case comb =>
    rw [hostReset_reverb_get, ReverbChan.reset_comb]
    exact ⟨rfl, rfl⟩
  case allpass =>
    rw [hostReset_reverb_get, ReverbChan.reset_allpass]
    exact ⟨rfl, rfl⟩
  case cutoff => exact (by decide +kernel : Consts.dec 1000 1 = ⟨0x447A0000#32⟩)
  case reg => exact (readReg_of_ge _ (by decide)).trans (congrArg F32.bits reset_levelDb)
  case peak => exact reset_levelDb
  case rms => exact reset_levelDb

end
end

section
/-! SUPPORT. A block of silence at the reset registers: the sign of a zero through the operations, the one frame the
output pass makes of +0.0, and what OUTBUF then holds (70_reset_and_hazards.md R284). -/

namespace Sys2Proof

namespace F32

/-- +0.0 times a finite number is a zero with that number's sign. -/
theorem zero_mul_of_isFinite {x : F32} (h : x.isFinite = true) : mul zero x = pack x.neg 0 := by
  have hzero : zero.isNaN = false ∧ zero.isInf = false ∧ zero.neg = false ∧ fixMag zero.mag = 0 := by decide
  obtain ⟨z1, z2, z3, z4⟩ := hzero
  simp only [mul, z1, z2, z3, z4, not_isNaN_of_isFinite h, isInf_eq_false h, Bool.or_self, Bool.false_eq_true, if_false,
    Nat.zero_mul, roundMag_zero, Bool.false_bne]

theorem isZero_pack_zero (s : Bool) : (pack s 0).isZero = true := by cases s <;> rfl

theorem isFinite_of_inUnit {x : F32} (h : inUnit x = true) : x.isFinite = true := by
  obtain ⟨hlo, hhi⟩ := Bool.and_eq_true_iff.1 h
  exact isFinite_of_between (by decide) (by decide) hlo hhi

end F32

namespace Machine
open F32 Consts

/-- The output frame of silence at the reset registers: +0.0 on the left, and on the right a zero whose sign bit is set
when both gains of the reset pan have theirs set (R10 leaves their signs open). -/
def silentFrame : Stereo F32 := ⟨F32.zero, pack ((fCos qPi).neg && (fSin qPi).neg) 0⟩

/-- The reset pan is the centre, at the angle QPI32 (41_voice.md R148). -/
theorem panGains_reset : panGains (par ParamFile.reset Reg.masterPan) = ⟨fCos qPi, fSin qPi⟩ := by
  have hangle : mul (add (par ParamFile.reset Reg.masterPan) one) qPi = qPi := by decide +kernel
  rw [panGains, hangle]

/-- Pan makes of +0.0 a zero with the gain's sign on each channel. -/
theorem masterPan_reset : masterPan ParamFile.reset ⟨F32.zero, F32.zero⟩
    = ⟨pack (fCos qPi).neg 0, pack (fSin qPi).neg 0⟩ := by
  have hq : qPi.isFinite = true := by decide
  rw [masterPan, panGains_reset]
  simp only [zero_mul_of_isFinite (isFinite_of_inUnit (inUnit_fCos hq)),
    zero_mul_of_isFinite (isFinite_of_inUnit (inUnit_fSin hq))]

/-- The width 1.0 on signed zeros: the right channel alone can keep a sign, when both have it. -/
theorem midSide_signed_zeros : ∀ l r : Bool,
    midSide one ⟨pack l 0, pack r 0⟩ = ⟨F32.zero, pack (l && r) 0⟩ := by
  decide +kernel

/-- Gain, pan and width at the reset registers make the silent frame of +0.0 (42_render.md R165 to R168). -/
theorem midSide_reset : midSide (par ParamFile.reset Reg.masterWidth)
    (masterPan ParamFile.reset (applyAutoGain one (masterGain ParamFile.reset ⟨F32.zero, F32.zero⟩)))
    = silentFrame := by
  have hgain : applyAutoGain one (masterGain ParamFile.reset ⟨F32.zero, F32.zero⟩) = ⟨F32.zero, F32.zero⟩ := by
    decide +kernel
  have hwidth : par ParamFile.reset Reg.masterWidth = one := by decide +kernel
  rw [hgain, hwidth, masterPan_reset, midSide_signed_zeros, silentFrame]

/-- A clamp leaves the silent frame. -/
theorem hardClamp_silentFrame :
    (⟨hardClamp silentFrame.l, hardClamp silentFrame.r⟩ : Stereo F32) = silentFrame := by
  have hzero : ∀ s : Bool, hardClamp (pack s 0) = pack s 0 := by decide
  exact congrArg₂ Stereo.mk (hzero false) (hzero _)

/-- The enable registers of the stages behind the accumulation pass (10_state.md R29 to R36). -/
def stageEnables : List Nat :=
  [Reg.compEnable, Reg.dcEnable, Reg.softclipEnable, Reg.autogainEnable, Reg.ringEnable, Reg.filterEnable,
    Reg.flangerEnable, Reg.delayEnable, Reg.reverbEnable]

/-- Every one of these stages is off at reset. -/
theorem isOn_reset : ∀ id ∈ stageEnables, isOn ParamFile.reset id = false := by
  decide +kernel

/-- Mastering at the reset registers makes the silent frame of +0.0, its other stages being off. -/
theorem master_reset (fs : Nat) (st : CompLoop × Stereo DcHist) :
    (master ParamFile.reset fs one st ⟨F32.zero, F32.zero⟩).2 = silentFrame := by
  simp only [master, midSide_reset, compressor_of_off (isOn_reset _ (by decide)),
    dcBlock_of_off (isOn_reset _ (by decide)), softClip_of_off (isOn_reset _ (by decide)), hardClamp_silentFrame]

/-- Every effect is off at reset, so the output frame of +0.0 is the silent frame. -/
theorem outputFrame_reset (fs : Nat) (c : Chain) :
    (outputFrame ParamFile.reset fs one c ⟨F32.zero, F32.zero⟩).2 = silentFrame := by
  simp only [outputFrame, master_reset, ringMod_of_off (isOn_reset _ (by decide)),
    filter_of_off (isOn_reset _ (by decide)), flanger_of_off (isOn_reset _ (by decide)),
    delay_of_off (isOn_reset _ (by decide)), reverb_of_off (isOn_reset _ (by decide)), finalClamp,
    hardClamp_silentFrame]

/-- Where a frame gives the same output whatever the chain, a block of it gives a block of that output. -/
theorem outputPass_replicate {P : ParamFile} {fs : Nat} {ag : F32} {x y : Stereo F32}
    (h : ∀ c, (outputFrame P fs ag c x).2 = y) (n : Nat) (c : Chain) :
    (outputPass P fs ag (List.replicate n x) c).2 = List.replicate n y := by
  induction n generalizing c with
  | zero => rfl
  | succ n ih => simp only [List.replicate_succ, outputPass, h, ih]

variable (c : Cfg) (nv n : Nat)

theorem resetWith_voices_idle : ∀ x ∈ (State.resetWith c nv).voices, x.phase = .idle := fun _ hx =>
  List.eq_of_mem_replicate hx ▸ rfl

theorem isOn_resetWith {id : Nat} (h : id ∈ stageEnables) :
    isOn (State.resetWith c nv).regs id = false := isOn_reset id h

/-- A RENDER straight after reset puts out silent frames. -/
theorem outputOf_resetWith : ((State.resetWith c nv).outputOf n).2 = List.replicate n silentFrame := by
  have hoff := isOn_resetWith c nv (id := Reg.autogainEnable) (by decide)
  rw [State.outputOf, accumulate_of_all_idle (resetWith_voices_idle c nv), render_ag_of_off hoff]
  exact outputPass_replicate (outputFrame_reset c.fs) n _

/-- OUTBUF after a RENDER straight after reset: the samples of the silent frame, and 0 beyond the block. -/
theorem readOut_render_resetWith {c : Cfg} {n : Nat} (hn : n ≤ c.maxb) (a : Nat) :
    readOut ((State.resetWith c nv).render n) a = 0
      ∨ readOut ((State.resetWith c nv).render n) a = silentFrame.r.bits := by
  rcases Nat.lt_or_ge a (2 * n) with ha | ha
  · obtain ⟨w, hw⟩ := exists_frameWord (State.resetWith c nv) ha
    rw [readOut_render rfl hn hw]
    rw [outputOf_resetWith] at hw
    obtain ⟨y, hy, hmem⟩ := List.mem_flatMap.1 (List.mem_of_getElem? hw)
    obtain rfl := List.eq_of_mem_replicate hy
    exact List.mem_pair.1 hmem
  · refine .inl ?_
    rw [readOut, render_outbuf_read n ha, show Memory.read (State.resetWith c nv).outbuf a = 0 from rfl, ite_self]

end Machine
end Sys2Proof

section
open Sys2Proof Sys2Proof.Machine

/-- Settles O55: every frame is the silent one, and the disabled stages and Idle voices keep their state. -/
theorem silentBlockAfterReset : Obligations.SilentBlockAfterReset := by
  intro c nv n hn hmax
  have hread := readOut_render_resetWith nv hmax
  refine ⟨_, exec_render_of_accepts ⟨hn, hmax⟩, fun a => ?zero, ?sign, ?index, ?voices, State.render_regs _ _, ?status,
    ?frames⟩
  case zero =>
    rcases hread a with h | h
    · rw [h]
      rfl
    · rw [h]
      exact F32.isZero_pack_zero _
  case sign =>
    cases hcos : (fCos Consts.qPi).neg with
    | true => exact .inl hcos
    | false =>
      have hr : silentFrame.r.bits = 0 := by rw [silentFrame, hcos]; rfl
      exact .inr (.inr fun a => (hread a).elim id (·.trans hr))
  case index =>
    have hw := (render_delay_advances (State.resetWith c nv) n.toNat .L).idx_eq hn
    exact hw.trans (congrArg (· % Config.dbuf c.fs) (Nat.zero_add _))
  case voices => rw [State.render_voices, accumulate_of_all_idle (resetWith_voices_idle c nv)]
  case status => exact render_status_of_filter_off (isOn_resetWith c nv (id := Reg.filterEnable) (by decide)) _
  case frames => exact (State.render_frames _ _).trans (BitVec.zero_add _)

end
end
